-- ==== Sys2Proof/Word.lean ====
section
/-! DEFINITION. The word types of the block (spec R9, R11, R62): bytes, 32-bit words, 64-bit quantities. -/

namespace Sys2Proof

/-- R9: "A byte is 8 bits". -/
abbrev Byte := BitVec 8

/-- R9: "Word" means 32 bits; R8 REG_WIDTH: every register is 32 bits. -/
abbrev Word := BitVec 32

/-- R8 TIME_WIDTH and COUNTER_WIDTH: the 64-bit unsigned TIME and CNT. -/
abbrev DWord := BitVec 64

end Sys2Proof
end

