-- ==== Sys2Proof/Config.lean ====
section
/-! DEFINITION. What an implementation fixes (spec R8) and the free values: constants without a body, so that
no proof can see what they are. -/

namespace Sys2Proof.Config

/-- R8, R44: RAM_SIZE, which this hardware takes as 4096. -/
def ramSize : Nat := 4096

/-- R60, R62: the host window is 8 KiB of block offsets. -/
def windowSize : Nat := 0x2000

/-- R60, R61: the RAM window starts at block offset 0x1000; the register space lies below it. -/
def ramWindow : Nat := 0x1000

/-- R8, R68: BASE is OPEN, a model argument, and must be 8 KiB aligned: an unknown multiple of 8192 (log 7). -/
opaque baseIndex : Nat

/-- R8, R60: the block's physical base address. -/
def base : Nat := windowSize * baseIndex

/-- FREE VALUE (log 1): the n-th free byte: a byte drawn "under no law" (R47, R69, R302). -/
opaque freeByte : Nat → Byte

/-- FREE VALUE (log 1): the n-th free word: what a result register reads as while BUSY = 1 (R47). -/
opaque freeWord : Nat → Word

/-- FREE VALUE (log 2): how many host steps come before the engine step of a START (R312(b)). -/
opaque engineLatency : Nat → Nat

/-- FREE VALUE (log 10): what a host variable holds before the host program assigns it (R101 is silent). -/
opaque freeHostVar : Nat → Int

/-- FREE VALUE (log 11): the host notation's shift by a negative amount (R101 is silent). -/
opaque freeShift : Int → Int → Int

end Sys2Proof.Config
end

