-- ==== Sys2Proof/Syntax.lean ====
section
/-! DEFINITION. The commands (one constructor per row of spec/opcode_table.json), the error codes' names, and the
host notation that the host agent runs (spec R90 to R102, R271). -/

namespace Sys2Proof

/-- R92: ALPH selects one of the two Base32 alphabets. -/
inductive Alphabet where
  | std   -- ALPH = 0
  | hex   -- ALPH = 1
  deriving DecidableEq, Repr

/-- R92, R97(c): the key form of HMAC, HOTP and TOTP. KEYFMT = 0 is raw bytes, and then ALPH must be 0;
KEYFMT = 1 is Base32 text in the alphabet ALPH. -/
inductive KeyForm where
  | raw
  | b32 (alph : Alphabet)
  deriving DecidableEq, Repr

/-- R94: KS = 0, 1, 2; KS = 3 is reserved and is no key size. -/
inductive KeySize where
  | k128
  | k192
  | k256
  deriving DecidableEq, Repr

/-- R95: the eleven assigned operations. -/
inductive Opcode where
  | nop | b32enc | b32dec | sha1 | hmac | hotp | totp | aesEcbEnc | aesEcbDec | aesCbcEnc | aesCbcDec
  deriving DecidableEq, Repr

/-- The commands, one constructor per row of the opcode table (R95). `digits` is the raw DIGITS field of
R91: 0 means 6, and 11 to 15 are ill-formed (R93). -/
inductive Instr where
  | nop
  | b32enc (alph : Alphabet)
  | b32dec (alph : Alphabet)
  | sha1
  | hmac (key : KeyForm)
  | hotp (key : KeyForm) (digits : BitVec 4)
  | totp (key : KeyForm) (digits : BitVec 4)
  | aesEcbEnc (ks : KeySize)
  | aesEcbDec (ks : KeySize)
  | aesCbcEnc (ks : KeySize)
  | aesCbcDec (ks : KeySize)
  deriving DecidableEq, Repr

/-- R271: the names of the nine error codes; their numbers are `errByte` in Machine/Flags.lean. -/
inductive ErrCode where
  | badOpcode | badField | badDigits | badLen | range | overlap | b32Pad | b32Char | b32Rem
  deriving DecidableEq, Repr

/-- R62: the width of a host access. -/
inductive Width where
  | w8
  | w16
  | w32
  deriving DecidableEq, Repr

/-- R101: an integer expression of the host notation over literals and host variables (a variable is its
number); `+`, `-`, `AND`, `OR`, `<<`, `==`, `!=`. -/
inductive HostExpr where
  | lit (n : Int)
  | var (x : Nat)
  | add (a b : HostExpr)
  | sub (a b : HostExpr)
  | and (a b : HostExpr)
  | or (a b : HostExpr)
  | shl (a b : HostExpr)
  | eq (a b : HostExpr)
  | ne (a b : HostExpr)
  deriving DecidableEq, Repr

/-- R101: the statements of the host notation. A label is the index of the statement it marks (log 12).
`pin` is the model's own (log 9): the platform drives the reset input `rst` of R300. -/
inductive HostStmt where
  | write (w : Width) (off : Nat) (v : HostExpr)
  | read (w : Width) (off : Nat) (x : Nat)
  | bnz (e : HostExpr) (target : Nat)
  | bz (e : HostExpr) (target : Nat)
  | halt
  | pin (level : Bool)
  deriving DecidableEq, Repr

end Sys2Proof
end

