-- ==== Sys2Proof/WellFormed.lean ====
section
/-! DEFINITION. Which commands and host statements are well formed (spec R62, R93, R101). -/

namespace Sys2Proof

/-- R93: the DIGITS field is 0 to 10. Every other field's illegal values are no term of `Instr`. -/
def Instr.wf : Instr → Bool
  | .nop => true
  | .b32enc _ => true
  | .b32dec _ => true
  | .sha1 => true
  | .hmac _ => true
  | .hotp _ digits => decide (digits.toNat ≤ 10)
  | .totp _ digits => decide (digits.toNat ≤ 10)
  | .aesEcbEnc _ => true
  | .aesEcbDec _ => true
  | .aesCbcEnc _ => true
  | .aesCbcDec _ => true

/-- The bytes a host access of this width covers (R62). -/
def Width.bytes : Width → Nat
  | .w8 => 1
  | .w16 => 2
  | .w32 => 4

/-- R62: the legal accesses. The register space takes aligned 32-bit accesses; the RAM window takes 8-bit
accesses anywhere and aligned 16- and 32-bit accesses. -/
def Width.legalAt (w : Width) (off : Nat) : Bool :=
  if off < Config.ramWindow then w == .w32 && off % 4 == 0
  else decide (off < Config.ramWindow + Config.ramSize) && off % w.bytes == 0

/-- A host statement is well formed when its access is legal (R62) and its branch target marks a statement
of the program or its end (R101). -/
def HostStmt.wf (len : Nat) : HostStmt → Bool
  | .write w off _ => w.legalAt off
  | .read w off _ => w.legalAt off
  | .bnz _ target => decide (target ≤ len)
  | .bz _ target => decide (target ≤ len)
  | .halt => true
  | .pin _ => true

/-- A host program all of whose statements are well formed. -/
def hostProgramWf (prog : List HostStmt) : Bool := prog.all (HostStmt.wf prog.length)

end Sys2Proof
end

