-- ==== Sys2Proof/Decode.lean ====
section
/-! DEFINITION. The command word: its fields, the decoder, the encoder, and the assembler spelling
(spec R90 to R100). -/

namespace Sys2Proof

/-! ### Fields (R91) -/

/-- R91: OP, bits 7:0. -/
def opField (c : Word) : Byte := c.extractLsb' 0 8

/-- R91: ALPH, bit 8. -/
def alphField (c : Word) : Bool := c.getLsbD 8

/-- R91: KEYFMT, bit 9. -/
def keyfmtField (c : Word) : Bool := c.getLsbD 9

/-- R91: KS, bits 13:12. -/
def ksField (c : Word) : BitVec 2 := c.extractLsb' 12 2

/-- R91: DIGITS, bits 19:16. -/
def digitsField (c : Word) : BitVec 4 := c.extractLsb' 16 4

/-! ### The opcode map (R95) -/

/-- R95: the OP value of each operation. -/
def Opcode.code : Opcode → Byte
  | .nop => 0x00
  | .b32enc => 0x01
  | .b32dec => 0x02
  | .sha1 => 0x10
  | .hmac => 0x11
  | .hotp => 0x12
  | .totp => 0x13
  | .aesEcbEnc => 0x20
  | .aesEcbDec => 0x21
  | .aesCbcEnc => 0x22
  | .aesCbcDec => 0x23

/-- R95: every assigned operation, in the table's order. -/
def Opcode.all : List Opcode :=
  [.nop, .b32enc, .b32dec, .sha1, .hmac, .hotp, .totp, .aesEcbEnc, .aesEcbDec, .aesCbcEnc, .aesCbcDec]

/-- R95, R97(a): the operation an OP value names, none for a reserved value. -/
def Opcode.ofByte (op : Byte) : Option Opcode := Opcode.all.find? (fun o => o.code == op)

/-- R96: FIELDS[op], the bits besides OP that the operation allows. -/
def Opcode.allowed : Opcode → Word
  | .nop => 0x00000000
  | .b32enc => 0x00000100
  | .b32dec => 0x00000100
  | .sha1 => 0x00000000
  | .hmac => 0x00000300
  | .hotp => 0x000F0300
  | .totp => 0x000F0300
  | .aesEcbEnc => 0x00003000
  | .aesEcbDec => 0x00003000
  | .aesCbcEnc => 0x00003000
  | .aesCbcDec => 0x00003000

/-- R95: the `mask` column of the match/mask table. -/
def Opcode.mask (o : Opcode) : Word := ~~~ o.allowed

/-- R96: HMAC, HOTP and TOTP take the key form. -/
def Opcode.keyed : Opcode → Bool
  | .hmac => true
  | .hotp => true
  | .totp => true
  | _ => false

/-- R96, R272: HOTP and TOTP. -/
def Opcode.isOtp : Opcode → Bool
  | .hotp => true
  | .totp => true
  | _ => false

/-- R96: the four AES operations. -/
def Opcode.isAes : Opcode → Bool
  | .aesEcbEnc => true
  | .aesEcbDec => true
  | .aesCbcEnc => true
  | .aesCbcDec => true
  | _ => false

/-! ### Decoding (R96) -/

/-- R92: ALPH as an alphabet. -/
def Alphabet.ofBit (b : Bool) : Alphabet := if b then .hex else .std

/-- R92: KEYFMT and ALPH as a key form. -/
def KeyForm.ofBits (keyfmt alph : Bool) : KeyForm := if keyfmt then .b32 (Alphabet.ofBit alph) else .raw

/-- R94: KS as a key size; KS = 3 never reaches this function from `decode` and gives 256. -/
def KeySize.ofField (ks : BitVec 2) : KeySize :=
  if ks = 0 then .k128 else if ks = 1 then .k192 else .k256

/-- R96: the operands of a checked word. -/
def Opcode.build (o : Opcode) (c : Word) : Instr :=
  match o with
  | .nop => .nop
  | .b32enc => .b32enc (Alphabet.ofBit (alphField c))
  | .b32dec => .b32dec (Alphabet.ofBit (alphField c))
  | .sha1 => .sha1
  | .hmac => .hmac (KeyForm.ofBits (keyfmtField c) (alphField c))
  | .hotp => .hotp (KeyForm.ofBits (keyfmtField c) (alphField c)) (digitsField c)
  | .totp => .totp (KeyForm.ofBits (keyfmtField c) (alphField c)) (digitsField c)
  | .aesEcbEnc => .aesEcbEnc (KeySize.ofField (ksField c))
  | .aesEcbDec => .aesEcbDec (KeySize.ofField (ksField c))
  | .aesCbcEnc => .aesCbcEnc (KeySize.ofField (ksField c))
  | .aesCbcDec => .aesCbcDec (KeySize.ofField (ksField c))

/-- R96: the decoder. Total: every 32-bit word is one command or one error code, and the first failing
check gives the code. -/
def decode (c : Word) : Except ErrCode Instr :=
  match Opcode.ofByte (opField c) with
  | none => .error .badOpcode
  | some o =>
    if c &&& ~~~ (0x000000FF ||| o.allowed) ≠ 0 then .error .badField
    else if o.keyed && !keyfmtField c && alphField c then .error .badField
    else if o.isAes && ksField c == 3 then .error .badField
    else if o.isOtp && decide (11 ≤ (digitsField c).toNat) then .error .badDigits
    else .ok (o.build c)

/-- R272: whether a command word's OP is HOTP or TOTP, so that an error writes the OTP sentinel. -/
def isOtpWord (c : Word) : Bool :=
  match Opcode.ofByte (opField c) with
  | some o => o.isOtp
  | none => false

/-! ### Encoding (R91, R95) -/

/-- The operation of a command (R95). -/
def Instr.opcode : Instr → Opcode
  | .nop => .nop
  | .b32enc _ => .b32enc
  | .b32dec _ => .b32dec
  | .sha1 => .sha1
  | .hmac _ => .hmac
  | .hotp _ _ => .hotp
  | .totp _ _ => .totp
  | .aesEcbEnc _ => .aesEcbEnc
  | .aesEcbDec _ => .aesEcbDec
  | .aesCbcEnc _ => .aesCbcEnc
  | .aesCbcDec _ => .aesCbcDec

/-- R91: ALPH in bit 8. -/
def Alphabet.bits : Alphabet → Word
  | .std => 0x000
  | .hex => 0x100

/-- R100: the key form bits: KEYFMT in bit 9, ALPH in bit 8. -/
def KeyForm.bits : KeyForm → Word
  | .raw => 0x000
  | .b32 a => 0x200 ||| a.bits

/-- R94: KS in bits 13:12. -/
def KeySize.bits : KeySize → Word
  | .k128 => 0x0000
  | .k192 => 0x1000
  | .k256 => 0x2000

/-- R91: DIGITS in bits 19:16. -/
def digitsBits (d : BitVec 4) : Word := d.setWidth 32 <<< 16

/-- R91, R95: the fields of a command besides OP. -/
def Instr.fieldBits : Instr → Word
  | .nop => 0
  | .b32enc a => a.bits
  | .b32dec a => a.bits
  | .sha1 => 0
  | .hmac k => k.bits
  | .hotp k d => digitsBits d ||| k.bits
  | .totp k d => digitsBits d ||| k.bits
  | .aesEcbEnc ks => ks.bits
  | .aesEcbDec ks => ks.bits
  | .aesCbcEnc ks => ks.bits
  | .aesCbcDec ks => ks.bits

/-- R91, R95: the command word of a command. -/
def encode (i : Instr) : Word := i.opcode.code.setWidth 32 ||| i.fieldBits

/-- The host's form of the decoder: `w` is the whole command word (R90: one 32-bit word, one format). -/
def decodeTableWord (nbits w : Nat) : Option Instr :=
  match decode (BitVec.ofNat 32 (w % 2 ^ nbits)) with
  | .ok i => some i
  | .error _ => none

/-! ### Assembler spelling (R100) -/

/-- R100: the alphabet suffix of the Base32 commands. -/
def Alphabet.spelling : Alphabet → String
  | .std => "std"
  | .hex => "hex"

/-- R100: the key form suffix. -/
def KeyForm.spelling : KeyForm → String
  | .raw => ""
  | .b32 a => ".b32" ++ a.spelling

/-- R100: the key size suffix. -/
def KeySize.spelling : KeySize → String
  | .k128 => "k128"
  | .k192 => "k192"
  | .k256 => "k256"

/-- R100: the digit suffix; DIGITS = 0 has none. -/
def digitsSpelling (d : BitVec 4) : String := if d = 0 then "" else ".d" ++ toString d.toNat

/-- R100: the canonical spelling a disassembler prints. -/
def Instr.spelling : Instr → String
  | .nop => "nop"
  | .b32enc a => "b32enc." ++ a.spelling
  | .b32dec a => "b32dec." ++ a.spelling
  | .sha1 => "sha1"
  | .hmac k => "hmac" ++ k.spelling
  | .hotp k d => "hotp" ++ digitsSpelling d ++ k.spelling
  | .totp k d => "totp" ++ digitsSpelling d ++ k.spelling
  | .aesEcbEnc ks => "aes.ecb.enc." ++ ks.spelling
  | .aesEcbDec ks => "aes.ecb.dec." ++ ks.spelling
  | .aesCbcEnc ks => "aes.cbc.enc." ++ ks.spelling
  | .aesCbcDec ks => "aes.cbc.dec." ++ ks.spelling

/-- The three key forms (R92). -/
def KeyForm.all : List KeyForm := [.raw, .b32 .std, .b32 .hex]

/-- The legal DIGITS fields, 0 to 10 (R93). -/
def legalDigits : List (BitVec 4) := (List.range 11).map (BitVec.ofNat 4)

/-- The legal (key form, DIGITS) pairs of HOTP and TOTP. -/
def otpOperands : List (KeyForm × BitVec 4) :=
  KeyForm.all.flatMap (fun k => legalDigits.map (fun d => (k, d)))

/-- R94: the three key sizes. -/
def KeySize.all : List KeySize := [.k128, .k192, .k256]

/-- Every legal command (R95 to R97). -/
def Instr.all : List Instr :=
  [.nop, .b32enc .std, .b32enc .hex, .b32dec .std, .b32dec .hex, .sha1]
  ++ KeyForm.all.map .hmac
  ++ otpOperands.map (fun p => .hotp p.1 p.2)
  ++ otpOperands.map (fun p => .totp p.1 p.2)
  ++ KeySize.all.map .aesEcbEnc ++ KeySize.all.map .aesEcbDec
  ++ KeySize.all.map .aesCbcEnc ++ KeySize.all.map .aesCbcDec

/-- R100: the assembler: the word of a spelling, none for a text that spells no command. -/
def assemble (s : String) : Option Word := (Instr.all.find? (fun i => i.spelling == s)).map encode

/-- R100: the disassembler: the canonical spelling of a legal word. -/
def disassemble (c : Word) : Option String :=
  match decode c with
  | .ok i => some i.spelling
  | .error _ => none

end Sys2Proof
end

