-- ==== Sys2Proof/Machine/State.lean ====
section
/-! DEFINITION. The machine's state as plain data, its faults and refusals, and the state after power-on reset
(spec R20 to R49, R300, R301). The grouping regs / status / results / ram / latched is R49's. -/

namespace Sys2Proof.Machine

/-- R25: three registers that hold a 12-byte string (OTP_STR0..2). -/
structure Words3 where
  w0 : Word
  w1 : Word
  w2 : Word
  deriving DecidableEq, Repr

/-- R25: four registers that hold a 16-byte string (AES_IV0..3). -/
structure Words4 where
  w0 : Word
  w1 : Word
  w2 : Word
  w3 : Word
  deriving DecidableEq, Repr

/-- R25: five registers that hold a 20-byte string (DIGEST0..4). -/
structure Words5 where
  w0 : Word
  w1 : Word
  w2 : Word
  w3 : Word
  w4 : Word
  deriving DecidableEq, Repr

/-- R25: eight registers that hold a 32-byte string (AES_KEY0..7). -/
structure Words8 where
  w0 : Word
  w1 : Word
  w2 : Word
  w3 : Word
  w4 : Word
  w5 : Word
  w6 : Word
  w7 : Word
  deriving DecidableEq, Repr

/-- R49 `regs`: the RW and WO registers of R23, and CTRL.IE. -/
structure Regs where
  ie      : Bool      -- CTRL.IE (R27)
  cmd     : Word      -- CMD (R29)
  srcAddr : Word      -- SRC_ADDR (R30)
  srcLen  : Word      -- SRC_LEN (R30)
  dstAddr : Word      -- DST_ADDR (R31)
  keyAddr : Word      -- KEY_ADDR (R32)
  keyLen  : Word      -- KEY_LEN (R32)
  timeLo  : Word      -- TIME_LO (R34)
  timeHi  : Word      -- TIME_HI (R34)
  step    : Word      -- STEP (R35)
  cntLo   : Word      -- CNT_LO (R36)
  cntHi   : Word      -- CNT_HI (R36)
  aesKey  : Words8    -- AES_KEY0..7 (R40)
  aesIv   : Words4    -- AES_IV0..3 (R41)
  deriving DecidableEq, Repr

/-- R49 `status`, R28: the STATUS flags and ERRCODE. BUSY is not stored a second time: it equals
`latched.isSome` (R45(b), R49, log 5), see `State.busy`. ERRCODE is `none` for 0x00. -/
structure Status where
  done    : Bool             -- STATUS.DONE
  err     : Bool             -- STATUS.ERR
  step0   : Bool             -- STATUS.STEP0
  wbusy   : Bool             -- STATUS.WBUSY
  errCode : Option ErrCode   -- STATUS.ERRCODE (R271)
  deriving DecidableEq, Repr

/-- R49 `results`: the RO result registers. -/
structure Results where
  resLen  : Word      -- RES_LEN (R33)
  otpCode : Word      -- OTP_CODE (R37)
  otpLen  : Word      -- OTP_LEN (R37)
  otpStr  : Words3    -- OTP_STR0..2 (R38)
  digest  : Words5    -- DIGEST0..4 (R39)
  deriving DecidableEq, Repr

/-- R45(a), R121: the latched copy `L` of the command and its operands, taken at an accepted START. -/
structure Latch where
  cmd     : Word
  srcAddr : Word
  srcLen  : Word
  dstAddr : Word
  keyAddr : Word
  keyLen  : Word
  time    : DWord
  step    : Word
  cnt     : DWord
  aesKey  : Words8
  iv      : Words4
  deriving DecidableEq, Repr

/-- R44, R69: local RAM by RAM offset. An unlisted offset is an UNWRITTEN byte: it holds no value (log 15). -/
abbrev Memory := List Host.Cell

/-- R69, D40: UNWRITTEN_POLICY, an OPEN model argument (log 3). -/
inductive UnwrittenPolicy where
  | fault   -- a read of an unwritten byte is a fault (recommended by R69)
  | draw    -- a read of an unwritten byte returns a free byte
  deriving DecidableEq, Repr

/-- R101: the host agent: its program of bus accesses and branches, its program index, its variables. -/
structure HostAgent where
  prog  : List HostStmt
  index : Nat
  vars  : List (Nat × Int)   -- by variable number, strictly rising; unlisted: not yet assigned
  deriving DecidableEq, Repr

/-- The state. `regs`, `status`, `results`, `ram` and `latched` are the block's (R49) and `rst` is its reset
input (R300); `host` is the host agent (R22, R101). `policy`, `schedule`, `engineDelay` and `draws` are the
MODEL'S OWN (log 1 to 3). -/
structure State where
  regs        : Regs
  status      : Status
  results     : Results
  ram         : Memory
  latched     : Option Latch
  rst         : Bool              -- R300: level of the reset input
  host        : HostAgent
  policy      : UnwrittenPolicy   -- model argument, never changed by a step
  schedule    : List Nat          -- latencies of the coming STARTs; when empty, a free latency (log 2)
  engineDelay : Nat               -- host steps left before the engine step (R312(b))
  draws       : Nat               -- how many free values have been drawn (log 1)
  deriving DecidableEq, Repr

/-- Why a step stops with a fault. -/
inductive Fault where
  /-- Raised by a host statement whose access has an illegal width or alignment (R62, R64, U4: the model
  treats a bus error as a fault of the host program; log 6). SAFE: the block's state does not change. -/
  | busError (w : Width) (off : Nat)
  /-- Raised by a host statement whose offset lies outside the 8 KiB window (R60): the access does not reach
  this block (DESIGN CHOICE, log 6). SAFE. -/
  | outsideWindow (off : Nat)
  /-- Raised by a host read of an unwritten RAM byte under UNWRITTEN_POLICY = fault (R69, U1). SAFE. -/
  | unwrittenHostRead (addr : Nat)
  /-- Raised by a command whose MemRead from `addr` on covers an unwritten RAM byte under UNWRITTEN_POLICY = fault
  (R69, R270(c), U1; log 17). SAFE. -/
  | unwrittenEngineRead (addr : Nat)
  /-- Raised by `exec` in a state with no latched command: the engine has no step there (R120, R123).
  `step` never raises it (log 13). SAFE. -/
  | noCommandLatched
  deriving DecidableEq, Repr

/-- Why an instruction has no meaning. -/
inductive Refusal where
  /-- Raised by an arm of `exec` whose instruction has no meaning yet; no arm raises it now. SAFE. -/
  | notModelled (mnemonic : String)
  deriving DecidableEq, Repr

/-- R48: the registers after either reset: STEP = 30, everything else 0. -/
def Regs.reset : Regs where
  ie := false
  cmd := 0
  srcAddr := 0
  srcLen := 0
  dstAddr := 0
  keyAddr := 0
  keyLen := 0
  timeLo := 0
  timeHi := 0
  step := 30
  cntLo := 0
  cntHi := 0
  aesKey := ⟨0, 0, 0, 0, 0, 0, 0, 0⟩
  aesIv := ⟨0, 0, 0, 0⟩

/-- R48: STATUS after either reset: all fields 0. -/
def Status.reset : Status where
  done := false
  err := false
  step0 := false
  wbusy := false
  errCode := none

/-- R48: the result registers after either reset: 0. -/
def Results.reset : Results where
  resLen := 0
  otpCode := 0
  otpLen := 0
  otpStr := ⟨0, 0, 0⟩
  digest := ⟨0, 0, 0, 0, 0⟩

/-- R48, R300: the machine right after power-on reset: every RAM byte unwritten, no command latched. The host
agent has no program (log 8); UNWRITTEN_POLICY is `fault`, R69's recommendation (log 3). -/
def State.reset : State where
  regs := Regs.reset
  status := Status.reset
  results := Results.reset
  ram := []
  latched := none
  rst := false
  host := ⟨[], 0, []⟩
  policy := .fault
  schedule := []
  engineDelay := 0
  draws := 0

end Sys2Proof.Machine
end

