-- ==== Sys2Proof/Machine/Bytes.lean ====
section
/-! DEFINITION. Byte strings (spec R10) and their places in words and registers (R25, R63, R77). -/

namespace Sys2Proof.Machine

/-- R10: `x ⊕ y`, bytewise exclusive-or. -/
def xorBytes (x y : List Byte) : List Byte := List.zipWith (· ^^^ ·) x y

/-- R10: `b[i..i+n)`. -/
def slice (b : List Byte) (i n : Nat) : List Byte := (b.drop i).take n

/-- R10: `be_N(v)`, the N-byte big-endian encoding of `v mod 2^(8N)`. -/
def beBytes (n v : Nat) : List Byte :=
  (List.range n).map (fun i => BitVec.ofNat 8 (v / 256 ^ (n - 1 - i)))

/-- R10: `be_val(b)`, the unsigned integer whose big-endian encoding is `b`. -/
def beVal (b : List Byte) : Nat := b.foldl (fun acc x => 256 * acc + x.toNat) 0

/-- R25, R63: byte `j` of a little-endian word is bits `[8j+7 : 8j]`. -/
def leWord (b0 b1 b2 b3 : Byte) : Word := b3 ++ b2 ++ b1 ++ b0

/-- R25, R63: byte lane `j` of a word. -/
def lane (w : Word) (j : Nat) : Byte := w.extractLsb' (8 * j) 8

/-- R25: the four bytes of a register, byte 0 first. -/
def wordBytes (w : Word) : List Byte := [lane w 0, lane w 1, lane w 2, lane w 3]

/-- R25: register `k` of a group that holds the byte string `s` (a missing byte is 0). -/
def wordAt (s : List Byte) (k : Nat) : Word :=
  leWord (s.getD (4 * k) 0) (s.getD (4 * k + 1) 0) (s.getD (4 * k + 2) 0) (s.getD (4 * k + 3) 0)

/-- R25: the byte string of a register group. -/
def Words3.bytes (w : Words3) : List Byte := wordBytes w.w0 ++ wordBytes w.w1 ++ wordBytes w.w2

/-- R25: the byte string of a register group. -/
def Words4.bytes (w : Words4) : List Byte :=
  wordBytes w.w0 ++ wordBytes w.w1 ++ wordBytes w.w2 ++ wordBytes w.w3

/-- R25: the byte string of a register group. -/
def Words5.bytes (w : Words5) : List Byte :=
  wordBytes w.w0 ++ wordBytes w.w1 ++ wordBytes w.w2 ++ wordBytes w.w3 ++ wordBytes w.w4

/-- R25: the byte string of a register group. -/
def Words8.bytes (w : Words8) : List Byte :=
  wordBytes w.w0 ++ wordBytes w.w1 ++ wordBytes w.w2 ++ wordBytes w.w3
  ++ wordBytes w.w4 ++ wordBytes w.w5 ++ wordBytes w.w6 ++ wordBytes w.w7

/-- R25: the register group that holds a byte string. -/
def Words3.ofBytes (s : List Byte) : Words3 := ⟨wordAt s 0, wordAt s 1, wordAt s 2⟩

/-- R25: the register group that holds a byte string. -/
def Words4.ofBytes (s : List Byte) : Words4 := ⟨wordAt s 0, wordAt s 1, wordAt s 2, wordAt s 3⟩

/-- R25: the register group that holds a byte string. -/
def Words5.ofBytes (s : List Byte) : Words5 :=
  ⟨wordAt s 0, wordAt s 1, wordAt s 2, wordAt s 3, wordAt s 4⟩

/-- R25: the register group that holds a byte string. -/
def Words8.ofBytes (s : List Byte) : Words8 :=
  ⟨wordAt s 0, wordAt s 1, wordAt s 2, wordAt s 3, wordAt s 4, wordAt s 5, wordAt s 6, wordAt s 7⟩

end Sys2Proof.Machine
end

