-- ==== Sys2Proof/Machine/Flags.lean ====
section
/-! DEFINITION. The STATUS and CTRL words, the error codes' numbers, write-one-to-clear, and the interrupt line
(spec R27, R28, R43, R271, R280). -/

namespace Sys2Proof.Machine

/-- R45(b), R49: STATUS.BUSY = 1 exactly when a command is latched (log 5). -/
def State.busy (s : State) : Bool := s.latched.isSome

/-- R271: the number of each error code. -/
def errByte : ErrCode → Byte
  | .badOpcode => 0x01
  | .badField => 0x02
  | .badDigits => 0x03
  | .badLen => 0x04
  | .range => 0x05
  | .overlap => 0x06
  | .b32Pad => 0x10
  | .b32Char => 0x11
  | .b32Rem => 0x12

/-- R28: the ERRCODE field, 0x00 on success. -/
def errField : Option ErrCode → Byte
  | none => 0x00
  | some c => errByte c

/-- A flag at a bit position of a register (R27, R28). -/
def flagBit (b : Bool) (i : Nat) : Word := if b then 1 <<< i else 0

/-- R28: the STATUS word with a given ERRCODE byte; bits 7:5 and 31:16 read 0. -/
def State.statusWordWith (s : State) (code : Byte) : Word :=
  flagBit s.busy 0 ||| flagBit s.status.done 1 ||| flagBit s.status.err 2 ||| flagBit s.status.step0 3
  ||| flagBit s.status.wbusy 4 ||| (code.setWidth 32 <<< 8)

/-- R28: the STATUS word. -/
def State.statusWord (s : State) : Word := s.statusWordWith (errField s.status.errCode)

/-- R27: the CTRL word: IE in bit 2; START, SRST and the reserved bits read 0. -/
def State.ctrlWord (s : State) : Word := flagBit s.regs.ie 2

/-- R24, R28: a host write to STATUS clears the W1C bits written 1 (DONE, ERR, STEP0, WBUSY) and nothing else. -/
def Status.w1c (st : Status) (v : Word) : Status :=
  { st with
    done := st.done && !v.getLsbD 1
    err := st.err && !v.getLsbD 2
    step0 := st.step0 && !v.getLsbD 3
    wbusy := st.wbusy && !v.getLsbD 4 }

/-- R280: `irq = CTRL.IE AND STATUS.DONE`, active high and level sensitive (log 16). -/
def State.irq (s : State) : Bool := s.regs.ie && s.status.done

end Sys2Proof.Machine
end

