-- ==== Sys2Proof/Machine/Ops.lean ====
section
/-! DEFINITION. The operations every command shares: RAM reads and writes (spec R61, R66, R69), the latch at START
(R121), the engine's completion (R123 to R125), the error completion, which is the block's one exception
(R272), and its acknowledgement (R276). -/

namespace Sys2Proof.Machine

/-! ### Sorted association lists -/

/-- The value a key is listed with. -/
def assocGet {α : Type} (k : Nat) : List (Nat × α) → Option α
  | [] => none
  | c :: l => if c.1 = k then some c.2 else assocGet k l

/-- List a key with a value, keeping the keys strictly rising. -/
def assocSet {α : Type} (k : Nat) (v : α) : List (Nat × α) → List (Nat × α)
  | [] => [(k, v)]
  | c :: l => if k < c.1 then (k, v) :: c :: l else if c.1 = k then (k, v) :: l else c :: assocSet k v l

/-! ### RAM (R44, R61, R66, R69) -/

/-- The canonical form of RAM: offsets strictly rising and below RAM_SIZE. An unlisted byte is unwritten and
holds no value, so no entry can equal what it reads as. -/
abbrev Memory.wf (m : Memory) : Prop :=
  m.Pairwise (fun a b => a.1 < b.1) ∧ ∀ c ∈ m, c.1 < Config.ramSize

/-- R69: a RAM byte, none when it is unwritten. -/
def Memory.byteAt (m : Memory) (a : Nat) : Option Byte := assocGet a m

/-- Write one RAM byte; it is written from then on (R69). -/
def Memory.setByte (m : Memory) (a : Nat) (b : Byte) : Memory := assocSet a b m

/-- R66: `MemWrite(a, n, v)` with `n = len(v)`. -/
def Memory.store (m : Memory) (a : Nat) : List Byte → Memory
  | [] => m
  | b :: bs => (m.setByte a b).store (a + 1) bs

/-- The `n` bytes from `a` on, none when one of them is unwritten. -/
def Memory.bytesAt? (m : Memory) (a : Nat) : Nat → Option (List Byte)
  | 0 => some []
  | n + 1 =>
    match m.byteAt a with
    | none => none
    | some b =>
      match m.bytesAt? (a + 1) n with
      | none => none
      | some bs => some (b :: bs)

/-- R69, `draw`: the `n` bytes from `a` on, an unwritten byte `j` being the free byte number `d + j`. -/
def Memory.bytesDrawn (m : Memory) (a n d : Nat) : List Byte :=
  (List.range n).map (fun j => (m.byteAt (a + j)).getD (Config.freeByte (d + j)))

/-- The `n` free bytes numbered from `d` on. -/
def freeBytes (d n : Nat) : List Byte := (List.range n).map (fun j => Config.freeByte (d + j))

/-! ### What `execute` may end in (R123, R124) -/

/-- Why a command's `execute` does not succeed: `raise Error(code)` (R12, R272), or the model's fault for an
unwritten byte (R69). -/
inductive Stop where
  | code (c : ErrCode)
  | fault (f : Fault)
  deriving DecidableEq, Repr

/-- What `execute(L, ram)` reads besides `L` (R123): RAM, and how unwritten bytes read (R69). -/
structure EngineView where
  ram    : Memory
  policy : UnwrittenPolicy
  draws  : Nat
  deriving DecidableEq, Repr

/-- The OTP registers a successful HOTP or TOTP writes (R200). -/
structure OtpResult where
  code : Word
  len  : Word
  str  : Words3
  deriving DecidableEq, Repr

/-- R124: the full set of RAM bytes and registers a successful command changes. -/
structure Writes where
  ram    : Option (Nat × List Byte) := none   -- MemWrite(addr, bytes)
  resLen : Word := 0                          -- RES_LEN (R33)
  digest : Option Words5 := none              -- DIGEST0..4
  otp    : Option OtpResult := none           -- OTP_CODE, OTP_LEN, OTP_STR0..2
  cnt    : Option DWord := none               -- CNT_HI:CNT_LO
  iv     : Option Words4 := none              -- AES_IV0..3
  step0  : Bool := false                      -- STATUS.STEP0 <- 1
  deriving DecidableEq, Repr

/-- `raise Error(code)` (R12). -/
def raise {α : Type} (c : ErrCode) : Except Stop α := .error (.code c)

/-- R66: the engine's `MemRead(a, n)`; its unwritten byte `j` is the free byte `v.draws + d + j` under `draw`. -/
def EngineView.memRead (v : EngineView) (a n d : Nat) : Except Stop (List Byte) :=
  match v.policy with
  | .draw => .ok (v.ram.bytesDrawn a n (v.draws + d))
  | .fault =>
    match v.ram.bytesAt? a n with
    | some bs => .ok bs
    | none => .error (.fault (.unwrittenEngineRead a))

/-- The engine's view of a state. -/
def State.engineView (s : State) : EngineView := ⟨s.ram, s.policy, s.draws⟩

/-! ### The latch and the accepted START (R121) -/

/-- R34: TIME = TIME_HI:TIME_LO. -/
def Regs.time (r : Regs) : DWord := r.timeHi ++ r.timeLo

/-- R36: CNT = CNT_HI:CNT_LO. -/
def Regs.cnt (r : Regs) : DWord := r.cntHi ++ r.cntLo

/-- R121: the latched copy of the values the registers now hold. -/
def Regs.latch (r : Regs) : Latch where
  cmd := r.cmd
  srcAddr := r.srcAddr
  srcLen := r.srcLen
  dstAddr := r.dstAddr
  keyAddr := r.keyAddr
  keyLen := r.keyLen
  time := r.time
  step := r.step
  cnt := r.cnt
  aesKey := r.aesKey
  iv := r.aesIv

/-- R121: STATUS at an accepted START: DONE, ERR and ERRCODE cleared, STEP0 and WBUSY kept. -/
def Status.started (st : Status) : Status := { st with done := false, err := false, errCode := none }

/-- R121: the accepted START, without its write of IE. The engine step comes after `delay` host steps
(R312(b)). -/
def State.latchCommand (s : State) (delay : Nat) : State :=
  { s with latched := some s.regs.latch, status := s.status.started, engineDelay := delay }

/-- R312(b): the latency of the next START: the schedule's next entry, or a free one (log 2). -/
def State.nextLatency (s : State) : Nat :=
  match s.schedule with
  | n :: _ => n
  | [] => Config.engineLatency s.draws

/-- R121: an accepted START, whose CTRL write carried `ie`. -/
def State.acceptStart (s : State) (ie : Bool) : State :=
  { ({ s with regs := { s.regs with ie := ie } }).latchCommand s.nextLatency with
    schedule := s.schedule.tail
    draws := s.draws + 1 }

/-! ### Completion (R123, R125) -/

/-- R123: STATUS at a successful completion. -/
def Status.succeeded (st : Status) (step0 : Bool) : Status :=
  { st with done := true, err := false, errCode := none, step0 := st.step0 || step0 }

/-- R131: the registers a successful command changes: CNT (TOTP) and AES_IV (CBC). -/
def Regs.applyWrites (r : Regs) (w : Writes) : Regs :=
  { r with
    cntLo := match w.cnt with | some c => c.extractLsb' 0 32 | none => r.cntLo
    cntHi := match w.cnt with | some c => c.extractLsb' 32 32 | none => r.cntHi
    aesIv := w.iv.getD r.aesIv }

/-- R131: the result registers a successful command changes. -/
def Results.applyWrites (r : Results) (w : Writes) : Results where
  resLen := w.resLen
  otpCode := match w.otp with | some o => o.code | none => r.otpCode
  otpLen := match w.otp with | some o => o.len | none => r.otpLen
  otpStr := match w.otp with | some o => o.str | none => r.otpStr
  digest := w.digest.getD r.digest

/-- R66, R131: the RAM bytes a successful command changes. -/
def Memory.applyWrites (m : Memory) (w : Writes) : Memory :=
  match w.ram with
  | some p => m.store p.1 p.2
  | none => m

/-- R123, `Ok(writes)`: every write applied as one update, DONE set, BUSY cleared, `L` dropped. -/
def State.complete (s : State) (w : Writes) : State :=
  { s with
    regs := s.regs.applyWrites w
    status := s.status.succeeded w.step0
    results := s.results.applyWrites w
    ram := s.ram.applyWrites w
    latched := none }

/-! ### The error completion: the block's only exception (R270(a), R272) -/

/-- R272: STATUS at an error completion. -/
def Status.failed (st : Status) (c : ErrCode) : Status := { st with done := true, err := true, errCode := some c }

/-- R272, R199: RES_LEN is 0, and for HOTP and TOTP the OTP registers hold the sentinel. -/
def Results.failed (r : Results) (otp : Bool) : Results :=
  if otp then { r with resLen := 0, otpCode := 0, otpLen := 0, otpStr := ⟨0, 0, 0⟩ } else { r with resLen := 0 }

/-- R272: `errorCompletion(op, code)`, with `otp` saying whether `op` is HOTP or TOTP. Nothing else changes. -/
def State.errorCompletion (s : State) (otp : Bool) (c : ErrCode) : State :=
  { s with status := s.status.failed c, results := s.results.failed otp, latched := none }

/-- R96, R272: the error completion of a latched word that does not decode. -/
def State.badCommand (s : State) (L : Latch) (c : ErrCode) : State := s.errorCompletion (isOtpWord L.cmd) c

/-- R276 Exit: the host acknowledges a completion by `w32 STATUS, 0x02`, which drops `irq` (the other way out
is the next accepted START). -/
def State.acknowledge (s : State) : State := { s with status := s.status.w1c 0x02 }

/-! ### Running one command (R123, R124) -/

/-- The free bytes a command may have read are used up (log 1): source and key. -/
def State.consume (s : State) (L : Latch) : State := { s with draws := s.draws + (L.srcLen.toNat + L.keyLen.toNat) }

/-- R123: the engine step of one command: `execute` on `L` and RAM, then its outcome as one atomic update. `otp`
says whether the command is HOTP or TOTP (R272). -/
def runCommand (otp : Bool) (body : Latch → EngineView → Except Stop Writes) (s : State) :
    Host.Outcome State Fault Refusal :=
  match s.latched with
  | none => .fault .noCommandLatched
  | some L =>
    match body L s.engineView with
    | .ok w => .next ((s.consume L).complete w)
    | .error (.code c) => .next ((s.consume L).errorCompletion otp c)
    | .error (.fault f) => .fault f

end Sys2Proof.Machine
end

