-- ==== Sys2Proof/Machine/Operands.lean ====
section
/-! DEFINITION. The operand forms of the commands: RAM ranges and their checks (spec R128, R129), the digit count
(R93), the AES key sizes (R94, R231). -/

namespace Sys2Proof.Machine

/-- R128: `inRange(a, n)`: the mathematical sum fits in RAM. -/
def inRange (a n : Nat) : Bool := decide (a + n ≤ Config.ramSize)

/-- R128: `checkRange(a, n)`. -/
def checkRange (a n : Nat) : Except Stop Unit := if inRange a n then .ok () else raise .range

/-- R129: `overlaps(a, n, b, m)`. -/
def overlaps (a n b m : Nat) : Bool := decide (0 < n ∧ 0 < m ∧ a < b + m ∧ b < a + n)

/-- R129: `checkOverlap(a, n, b, m, inPlaceAllowed)`. -/
def checkOverlap (a n b m : Nat) (inPlace : Bool) : Except Stop Unit :=
  if overlaps a n b m && !(inPlace && a == b && n == m) then raise .overlap else .ok ()

/-- R30, R128: the source range check. -/
def checkSource (L : Latch) : Except Stop Unit := checkRange L.srcAddr.toNat L.srcLen.toNat

/-- R30, R66: MemRead of the source. Its free bytes are the first of a command (log 1). -/
def fetchSource (L : Latch) (v : EngineView) : Except Stop (List Byte) :=
  v.memRead L.srcAddr.toNat L.srcLen.toNat 0

/-- R32, R188: the key range check, then MemRead of the key. Its free bytes follow the source's (log 1). -/
def fetchKey (L : Latch) (v : EngineView) : Except Stop (List Byte) := do
  checkRange L.keyAddr.toNat L.keyLen.toNat
  v.memRead L.keyAddr.toNat L.keyLen.toNat L.srcLen.toNat

/-- R31: the DST operand: where a command writes its output of `bytes`. -/
def writeDest (L : Latch) (bytes : List Byte) : Writes where
  ram := some (L.dstAddr.toNat, bytes)
  resLen := BitVec.ofNat 32 bytes.length

/-- R93: the digit count D of a DIGITS field. -/
def digitCount (d : BitVec 4) : Nat := if d = 0 then 6 else d.toNat

/-- R93: `raise Error(BAD_DIGITS) if c[19:16] >= 11`. The decoder has already made this check (R96). -/
def checkDigits (d : BitVec 4) : Except Stop Unit := if 11 ≤ d.toNat then raise .badDigits else .ok ()

/-- R94: Nk, the key length in words. -/
def keyWords : KeySize → Nat
  | .k128 => 4
  | .k192 => 6
  | .k256 => 8

/-- R94: Nr, the round count. -/
def roundCount : KeySize → Nat
  | .k128 => 10
  | .k192 => 12
  | .k256 => 14

/-- R231: the key of an AES command: the first 4·Nk bytes of the latched key store. -/
def aesKeyBytes (L : Latch) (ks : KeySize) : List Byte := L.aesKey.bytes.take (4 * keyWords ks)

end Sys2Proof.Machine
end

