-- ==== Sys2Proof/Machine/Aes.lean ====
section
/-! DEFINITION. The AES block cipher, its ECB and CBC modes, and the four AES commands (spec R230 to R249). -/

namespace Sys2Proof.Machine

/-! ### The state array (R232) -/

/-- R232: one column of the state, or one round-key word: rows 0 to 3. -/
structure Column where
  r0 : Byte
  r1 : Byte
  r2 : Byte
  r3 : Byte
  deriving DecidableEq, Repr

/-- R232: the 4x4 byte array, column by column: `s[r][c]` is row `r` of column `c`. -/
structure AesState where
  c0 : Column
  c1 : Column
  c2 : Column
  c3 : Column
  deriving DecidableEq, Repr

/-- R232: column `c` of a 16-byte input: `s[r][c] = in[r + 4c]`. -/
def loadColumn (input : List Byte) (c : Nat) : Column :=
  ⟨input.getD (4 * c) 0, input.getD (4 * c + 1) 0, input.getD (4 * c + 2) 0, input.getD (4 * c + 3) 0⟩

/-- R232: load a 16-byte input. -/
def loadState (input : List Byte) : AesState :=
  ⟨loadColumn input 0, loadColumn input 1, loadColumn input 2, loadColumn input 3⟩

/-- The bytes of a column, row 0 first. -/
def Column.bytes (c : Column) : List Byte := [c.r0, c.r1, c.r2, c.r3]

/-- R232: `out[r + 4c] = s[r][c]`. -/
def storeState (s : AesState) : List Byte := s.c0.bytes ++ s.c1.bytes ++ s.c2.bytes ++ s.c3.bytes

/-- Apply a function to every byte of a column. -/
def Column.map (f : Byte → Byte) (c : Column) : Column := ⟨f c.r0, f c.r1, f c.r2, f c.r3⟩

/-- Bytewise exclusive-or of two columns. -/
def Column.xor (a b : Column) : Column := ⟨a.r0 ^^^ b.r0, a.r1 ^^^ b.r1, a.r2 ^^^ b.r2, a.r3 ^^^ b.r3⟩

/-- Apply a function to every column. -/
def AesState.mapColumns (f : Column → Column) (s : AesState) : AesState := ⟨f s.c0, f s.c1, f s.c2, f s.c3⟩

/-! ### The S-boxes (R233, R234) -/

/-- R233: SBOX, row by row. -/
def sboxTable : List Byte :=
  [0x63, 0x7c, 0x77, 0x7b, 0xf2, 0x6b, 0x6f, 0xc5, 0x30, 0x01, 0x67, 0x2b, 0xfe, 0xd7, 0xab, 0x76]
  ++ [0xca, 0x82, 0xc9, 0x7d, 0xfa, 0x59, 0x47, 0xf0, 0xad, 0xd4, 0xa2, 0xaf, 0x9c, 0xa4, 0x72, 0xc0]
  ++ [0xb7, 0xfd, 0x93, 0x26, 0x36, 0x3f, 0xf7, 0xcc, 0x34, 0xa5, 0xe5, 0xf1, 0x71, 0xd8, 0x31, 0x15]
  ++ [0x04, 0xc7, 0x23, 0xc3, 0x18, 0x96, 0x05, 0x9a, 0x07, 0x12, 0x80, 0xe2, 0xeb, 0x27, 0xb2, 0x75]
  ++ [0x09, 0x83, 0x2c, 0x1a, 0x1b, 0x6e, 0x5a, 0xa0, 0x52, 0x3b, 0xd6, 0xb3, 0x29, 0xe3, 0x2f, 0x84]
  ++ [0x53, 0xd1, 0x00, 0xed, 0x20, 0xfc, 0xb1, 0x5b, 0x6a, 0xcb, 0xbe, 0x39, 0x4a, 0x4c, 0x58, 0xcf]
  ++ [0xd0, 0xef, 0xaa, 0xfb, 0x43, 0x4d, 0x33, 0x85, 0x45, 0xf9, 0x02, 0x7f, 0x50, 0x3c, 0x9f, 0xa8]
  ++ [0x51, 0xa3, 0x40, 0x8f, 0x92, 0x9d, 0x38, 0xf5, 0xbc, 0xb6, 0xda, 0x21, 0x10, 0xff, 0xf3, 0xd2]
  ++ [0xcd, 0x0c, 0x13, 0xec, 0x5f, 0x97, 0x44, 0x17, 0xc4, 0xa7, 0x7e, 0x3d, 0x64, 0x5d, 0x19, 0x73]
  ++ [0x60, 0x81, 0x4f, 0xdc, 0x22, 0x2a, 0x90, 0x88, 0x46, 0xee, 0xb8, 0x14, 0xde, 0x5e, 0x0b, 0xdb]
  ++ [0xe0, 0x32, 0x3a, 0x0a, 0x49, 0x06, 0x24, 0x5c, 0xc2, 0xd3, 0xac, 0x62, 0x91, 0x95, 0xe4, 0x79]
  ++ [0xe7, 0xc8, 0x37, 0x6d, 0x8d, 0xd5, 0x4e, 0xa9, 0x6c, 0x56, 0xf4, 0xea, 0x65, 0x7a, 0xae, 0x08]
  ++ [0xba, 0x78, 0x25, 0x2e, 0x1c, 0xa6, 0xb4, 0xc6, 0xe8, 0xdd, 0x74, 0x1f, 0x4b, 0xbd, 0x8b, 0x8a]
  ++ [0x70, 0x3e, 0xb5, 0x66, 0x48, 0x03, 0xf6, 0x0e, 0x61, 0x35, 0x57, 0xb9, 0x86, 0xc1, 0x1d, 0x9e]
  ++ [0xe1, 0xf8, 0x98, 0x11, 0x69, 0xd9, 0x8e, 0x94, 0x9b, 0x1e, 0x87, 0xe9, 0xce, 0x55, 0x28, 0xdf]
  ++ [0x8c, 0xa1, 0x89, 0x0d, 0xbf, 0xe6, 0x42, 0x68, 0x41, 0x99, 0x2d, 0x0f, 0xb0, 0x54, 0xbb, 0x16]

/-- R234: ISBOX, row by row. -/
def invSboxTable : List Byte :=
  [0x52, 0x09, 0x6a, 0xd5, 0x30, 0x36, 0xa5, 0x38, 0xbf, 0x40, 0xa3, 0x9e, 0x81, 0xf3, 0xd7, 0xfb]
  ++ [0x7c, 0xe3, 0x39, 0x82, 0x9b, 0x2f, 0xff, 0x87, 0x34, 0x8e, 0x43, 0x44, 0xc4, 0xde, 0xe9, 0xcb]
  ++ [0x54, 0x7b, 0x94, 0x32, 0xa6, 0xc2, 0x23, 0x3d, 0xee, 0x4c, 0x95, 0x0b, 0x42, 0xfa, 0xc3, 0x4e]
  ++ [0x08, 0x2e, 0xa1, 0x66, 0x28, 0xd9, 0x24, 0xb2, 0x76, 0x5b, 0xa2, 0x49, 0x6d, 0x8b, 0xd1, 0x25]
  ++ [0x72, 0xf8, 0xf6, 0x64, 0x86, 0x68, 0x98, 0x16, 0xd4, 0xa4, 0x5c, 0xcc, 0x5d, 0x65, 0xb6, 0x92]
  ++ [0x6c, 0x70, 0x48, 0x50, 0xfd, 0xed, 0xb9, 0xda, 0x5e, 0x15, 0x46, 0x57, 0xa7, 0x8d, 0x9d, 0x84]
  ++ [0x90, 0xd8, 0xab, 0x00, 0x8c, 0xbc, 0xd3, 0x0a, 0xf7, 0xe4, 0x58, 0x05, 0xb8, 0xb3, 0x45, 0x06]
  ++ [0xd0, 0x2c, 0x1e, 0x8f, 0xca, 0x3f, 0x0f, 0x02, 0xc1, 0xaf, 0xbd, 0x03, 0x01, 0x13, 0x8a, 0x6b]
  ++ [0x3a, 0x91, 0x11, 0x41, 0x4f, 0x67, 0xdc, 0xea, 0x97, 0xf2, 0xcf, 0xce, 0xf0, 0xb4, 0xe6, 0x73]
  ++ [0x96, 0xac, 0x74, 0x22, 0xe7, 0xad, 0x35, 0x85, 0xe2, 0xf9, 0x37, 0xe8, 0x1c, 0x75, 0xdf, 0x6e]
  ++ [0x47, 0xf1, 0x1a, 0x71, 0x1d, 0x29, 0xc5, 0x89, 0x6f, 0xb7, 0x62, 0x0e, 0xaa, 0x18, 0xbe, 0x1b]
  ++ [0xfc, 0x56, 0x3e, 0x4b, 0xc6, 0xd2, 0x79, 0x20, 0x9a, 0xdb, 0xc0, 0xfe, 0x78, 0xcd, 0x5a, 0xf4]
  ++ [0x1f, 0xdd, 0xa8, 0x33, 0x88, 0x07, 0xc7, 0x31, 0xb1, 0x12, 0x10, 0x59, 0x27, 0x80, 0xec, 0x5f]
  ++ [0x60, 0x51, 0x7f, 0xa9, 0x19, 0xb5, 0x4a, 0x0d, 0x2d, 0xe5, 0x7a, 0x9f, 0x93, 0xc9, 0x9c, 0xef]
  ++ [0xa0, 0xe0, 0x3b, 0x4d, 0xae, 0x2a, 0xf5, 0xb0, 0xc8, 0xeb, 0xbb, 0x3c, 0x83, 0x53, 0x99, 0x61]
  ++ [0x17, 0x2b, 0x04, 0x7e, 0xba, 0x77, 0xd6, 0x26, 0xe1, 0x69, 0x14, 0x63, 0x55, 0x21, 0x0c, 0x7d]

/-- R233: `SBOX[x]`. -/
def sbox (x : Byte) : Byte := sboxTable.getD x.toNat 0

/-- R234: `ISBOX[x]`. -/
def invSbox (x : Byte) : Byte := invSboxTable.getD x.toNat 0

/-! ### The transformations (R235, R236) -/

/-- R235: SubBytes. -/
def subBytes (s : AesState) : AesState := s.mapColumns (Column.map sbox)

/-- R235: InvSubBytes. -/
def invSubBytes (s : AesState) : AesState := s.mapColumns (Column.map invSbox)

/-- R235: ShiftRows: row `r` rotates left by `r`. -/
def shiftRows (s : AesState) : AesState where
  c0 := ⟨s.c0.r0, s.c1.r1, s.c2.r2, s.c3.r3⟩
  c1 := ⟨s.c1.r0, s.c2.r1, s.c3.r2, s.c0.r3⟩
  c2 := ⟨s.c2.r0, s.c3.r1, s.c0.r2, s.c1.r3⟩
  c3 := ⟨s.c3.r0, s.c0.r1, s.c1.r2, s.c2.r3⟩

/-- R235: InvShiftRows: row `r` rotates right by `r`. -/
def invShiftRows (s : AesState) : AesState where
  c0 := ⟨s.c0.r0, s.c3.r1, s.c2.r2, s.c1.r3⟩
  c1 := ⟨s.c1.r0, s.c0.r1, s.c3.r2, s.c2.r3⟩
  c2 := ⟨s.c2.r0, s.c1.r1, s.c0.r2, s.c3.r3⟩
  c3 := ⟨s.c3.r0, s.c2.r1, s.c1.r2, s.c0.r3⟩

/-- R235: AddRoundKey, with the round key's four words as a state array. -/
def addRoundKey (k s : AesState) : AesState :=
  ⟨s.c0.xor k.c0, s.c1.xor k.c1, s.c2.xor k.c2, s.c3.xor k.c3⟩

/-- R236: multiplication by x in GF(2^8) modulo 0x11B. -/
def xtime (a : Byte) : Byte := (a <<< 1) ^^^ (if a.getLsbD 7 then 0x1B else 0x00)

/-- R236: `3•a`. -/
def mul3 (a : Byte) : Byte := xtime a ^^^ a

/-- R236: `9•a`. -/
def mul9 (a : Byte) : Byte := xtime (xtime (xtime a)) ^^^ a

/-- R236: `11•a`. -/
def mul11 (a : Byte) : Byte := xtime (xtime (xtime a)) ^^^ xtime a ^^^ a

/-- R236: `13•a`. -/
def mul13 (a : Byte) : Byte := xtime (xtime (xtime a)) ^^^ xtime (xtime a) ^^^ a

/-- R236: `14•a`. -/
def mul14 (a : Byte) : Byte := xtime (xtime (xtime a)) ^^^ xtime (xtime a) ^^^ xtime a

/-- R236: MixColumns on one column. -/
def mixColumn (a : Column) : Column where
  r0 := xtime a.r0 ^^^ mul3 a.r1 ^^^ a.r2 ^^^ a.r3
  r1 := a.r0 ^^^ xtime a.r1 ^^^ mul3 a.r2 ^^^ a.r3
  r2 := a.r0 ^^^ a.r1 ^^^ xtime a.r2 ^^^ mul3 a.r3
  r3 := mul3 a.r0 ^^^ a.r1 ^^^ a.r2 ^^^ xtime a.r3

/-- R236: InvMixColumns on one column. -/
def invMixColumn (a : Column) : Column where
  r0 := mul14 a.r0 ^^^ mul11 a.r1 ^^^ mul13 a.r2 ^^^ mul9 a.r3
  r1 := mul9 a.r0 ^^^ mul14 a.r1 ^^^ mul11 a.r2 ^^^ mul13 a.r3
  r2 := mul13 a.r0 ^^^ mul9 a.r1 ^^^ mul14 a.r2 ^^^ mul11 a.r3
  r3 := mul11 a.r0 ^^^ mul13 a.r1 ^^^ mul9 a.r2 ^^^ mul14 a.r3

/-! ### Key expansion (R237) -/

/-- R237: RotWord. -/
def rotWord (a : Column) : Column := ⟨a.r1, a.r2, a.r3, a.r0⟩

/-- R237: SubWord. -/
def subWord (a : Column) : Column := a.map sbox

/-- R237: Rcon[1..10], from index 1. -/
def rcon (i : Nat) : Byte :=
  ([0x00, 0x01, 0x02, 0x04, 0x08, 0x10, 0x20, 0x40, 0x80, 0x1b, 0x36] : List Byte).getD i 0

/-- The word past the end of a list of round-key words (never used). -/
def zeroColumn : Column := ⟨0, 0, 0, 0⟩

/-- R237: what `w[i-1]` becomes before it is combined with `w[i-Nk]`. -/
def keyScheduleCore (nk i : Nat) (t : Column) : Column :=
  if i % nk = 0 then (subWord (rotWord t)).xor ⟨rcon (i / nk), 0, 0, 0⟩
  else if nk = 8 ∧ i % nk = 4 then subWord t
  else t

/-- R237: `n` more round-key words from index `i` on; `w` holds the words so far, newest first. -/
def keyExtend (nk : Nat) : Nat → Nat → List Column → List Column
  | 0, _, w => w
  | n + 1, i, w =>
    keyExtend nk n (i + 1)
      ((w.getD (nk - 1) zeroColumn).xor (keyScheduleCore nk i (w.getD 0 zeroColumn)) :: w)

/-- R237: the words `w[0 .. 4(Nr+1))` of a key. -/
def expandKey (ks : KeySize) (key : List Byte) : List Column :=
  (keyExtend (keyWords ks) (4 * (roundCount ks + 1) - keyWords ks) (keyWords ks)
    ((List.range (keyWords ks)).map (loadColumn key)).reverse).reverse

/-- R235: the round key of round `j`: the words `w[4j] .. w[4j+3]`. -/
def roundKey (w : List Column) (j : Nat) : AesState :=
  ⟨w.getD (4 * j) zeroColumn, w.getD (4 * j + 1) zeroColumn, w.getD (4 * j + 2) zeroColumn,
    w.getD (4 * j + 3) zeroColumn⟩

/-! ### The cipher and its inverse (R238, R239) -/

/-- R238: one middle round. -/
def aesRound (k s : AesState) : AesState := addRoundKey k ((shiftRows (subBytes s)).mapColumns mixColumn)

/-- R239: one middle round of the inverse cipher. -/
def aesInvRound (k s : AesState) : AesState :=
  (addRoundKey k (invSubBytes (invShiftRows s))).mapColumns invMixColumn

/-- R238: the forward cipher on the state array, with `nr` rounds and the words `w`. -/
def cipherState (nr : Nat) (w : List Column) (s : AesState) : AesState :=
  addRoundKey (roundKey w nr) (shiftRows (subBytes
    ((List.range (nr - 1)).foldl (fun st j => aesRound (roundKey w (j + 1)) st) (addRoundKey (roundKey w 0) s))))

/-- R239: the inverse cipher on the state array; the middle rounds run from `nr - 1` down to 1. -/
def invCipherState (nr : Nat) (w : List Column) (s : AesState) : AesState :=
  addRoundKey (roundKey w 0) (invSubBytes (invShiftRows
    ((List.range (nr - 1)).foldr (fun j st => aesInvRound (roundKey w (j + 1)) st) (addRoundKey (roundKey w nr) s))))

/-- R238: `E_K(in)`. -/
def aesEncrypt (ks : KeySize) (key input : List Byte) : List Byte :=
  storeState (cipherState (roundCount ks) (expandKey ks key) (loadState input))

/-- R239: `D_K(in)`. -/
def aesDecrypt (ks : KeySize) (key input : List Byte) : List Byte :=
  storeState (invCipherState (roundCount ks) (expandKey ks key) (loadState input))

/-! ### Modes (R240, R241, R246) -/

/-- The `n` 16-byte blocks of a byte string. -/
def blocks16 (b : List Byte) : Nat → List (List Byte)
  | 0 => []
  | n + 1 => b.take 16 :: blocks16 (b.drop 16) n

/-- R240: ECB encryption of blocks. -/
def ecbEncrypt (ks : KeySize) (key : List Byte) (bs : List (List Byte)) : List (List Byte) :=
  bs.map (aesEncrypt ks key)

/-- R241: ECB decryption of blocks. -/
def ecbDecrypt (ks : KeySize) (key : List Byte) (bs : List (List Byte)) : List (List Byte) :=
  bs.map (aesDecrypt ks key)

/-- R246: CBC encryption: `C_i = E_K(P_i XOR C_(i-1))`, with `C_(-1)` the given chaining value. -/
def cbcEncrypt (ks : KeySize) (key : List Byte) : List Byte → List (List Byte) → List (List Byte)
  | _, [] => []
  | prev, p :: ps =>
    aesEncrypt ks key (xorBytes p prev) :: cbcEncrypt ks key (aesEncrypt ks key (xorBytes p prev)) ps

/-- R246: CBC decryption: `P_i = D_K(C_i) XOR C_(i-1)`. -/
def cbcDecrypt (ks : KeySize) (key : List Byte) : List Byte → List (List Byte) → List (List Byte)
  | _, [] => []
  | prev, c :: cs => xorBytes (aesDecrypt ks key c) prev :: cbcDecrypt ks key c cs

/-- R247: AES_IV after a CBC command: the last ciphertext block, unchanged when there is none. -/
def chainedIv (cipherBlocks : List (List Byte)) : Option Words4 := cipherBlocks.getLast?.map Words4.ofBytes

/-! ### The commands -/

/-- R242: `aesChecks(L)`; its value is the block count N. -/
def aesChecks (L : Latch) : Except Stop Nat := do
  if L.srcLen.toNat % 16 ≠ 0 then raise .badLen else .ok ()
  checkRange L.srcAddr.toNat L.srcLen.toNat
  checkRange L.dstAddr.toNat L.srcLen.toNat
  checkOverlap L.srcAddr.toNat L.srcLen.toNat L.dstAddr.toNat L.srcLen.toNat true
  return L.srcLen.toNat / 16

/-- R242, R66: the checks, then the input blocks. -/
def aesInput (L : Latch) (v : EngineView) : Except Stop (List (List Byte)) := do
  let n ← aesChecks L
  let bytes ← fetchSource L v
  return blocks16 bytes n

/-- R240: `AES_ECB_ENC(L, KS)`. -/
def aesEcbEncBody (ks : KeySize) (L : Latch) (v : EngineView) : Except Stop Writes := do
  let p ← aesInput L v
  return writeDest L (ecbEncrypt ks (aesKeyBytes L ks) p).flatten

/-- R241: `AES_ECB_DEC(L, KS)`. -/
def aesEcbDecBody (ks : KeySize) (L : Latch) (v : EngineView) : Except Stop Writes := do
  let c ← aesInput L v
  return writeDest L (ecbDecrypt ks (aesKeyBytes L ks) c).flatten

/-- R244: `AES_CBC_ENC(L, KS)`. -/
def aesCbcEncBody (ks : KeySize) (L : Latch) (v : EngineView) : Except Stop Writes := do
  let p ← aesInput L v
  let c := cbcEncrypt ks (aesKeyBytes L ks) L.iv.bytes p
  return { writeDest L c.flatten with iv := chainedIv c }

/-- R245: `AES_CBC_DEC(L, KS)`. -/
def aesCbcDecBody (ks : KeySize) (L : Latch) (v : EngineView) : Except Stop Writes := do
  let c ← aesInput L v
  return { writeDest L (cbcDecrypt ks (aesKeyBytes L ks) L.iv.bytes c).flatten with iv := chainedIv c }

/-- R240: the meaning of AES_ECB_ENC. -/
def execAesEcbEnc (ks : KeySize) (s : State) : Host.Outcome State Fault Refusal :=
  runCommand false (aesEcbEncBody ks) s

/-- R241: the meaning of AES_ECB_DEC. -/
def execAesEcbDec (ks : KeySize) (s : State) : Host.Outcome State Fault Refusal :=
  runCommand false (aesEcbDecBody ks) s

/-- R244: the meaning of AES_CBC_ENC. -/
def execAesCbcEnc (ks : KeySize) (s : State) : Host.Outcome State Fault Refusal :=
  runCommand false (aesCbcEncBody ks) s

/-- R245: the meaning of AES_CBC_DEC. -/
def execAesCbcDec (ks : KeySize) (s : State) : Host.Outcome State Fault Refusal :=
  runCommand false (aesCbcDecBody ks) s

end Sys2Proof.Machine
end

