-- ==== Sys2Proof/Machine/Base32.lean ====
section
/-! DEFINITION. The Base32 codec and its commands B32ENC and B32DEC (spec 41_base32.md, R150 to R164). -/

namespace Sys2Proof.Machine

/-! ### Tables (R150, R152) -/

/-- R150: the pad character '='. -/
def padChar : Byte := 0x3D

/-- R150: the encode table of an alphabet, indexed by the 5-bit value. -/
def encodeTable : Alphabet → List Byte
  | .std =>
    ['A', 'B', 'C', 'D', 'E', 'F', 'G', 'H', 'I', 'J', 'K', 'L', 'M', 'N', 'O', 'P', 'Q', 'R', 'S', 'T', 'U',
      'V', 'W', 'X', 'Y', 'Z', '2', '3', '4', '5', '6', '7'].map (fun ch => BitVec.ofNat 8 ch.toNat)
  | .hex =>
    ['0', '1', '2', '3', '4', '5', '6', '7', '8', '9', 'A', 'B', 'C', 'D', 'E', 'F', 'G', 'H', 'I', 'J', 'K',
      'L', 'M', 'N', 'O', 'P', 'Q', 'R', 'S', 'T', 'U', 'V'].map (fun ch => BitVec.ofNat 8 ch.toNat)

/-- R150: the character of a symbol value (0 to 31). -/
def encodeChar (alph : Alphabet) (v : Byte) : Byte := (encodeTable alph).getD v.toNat padChar

/-- R152: the sentinel of the decode tables. -/
def invalidSymbol : Byte := 0xFF

/-- R152: the decode table of an alphabet, indexed by the character code; the sentinel 0xFF for a character
outside the alphabet. -/
def decodeChar (alph : Alphabet) (c : Byte) : Byte :=
  match alph with
  | .std =>
    if 0x41 ≤ c ∧ c ≤ 0x5A then c - 0x41
    else if 0x61 ≤ c ∧ c ≤ 0x7A then c - 0x61
    else if 0x32 ≤ c ∧ c ≤ 0x37 then c - 0x32 + 26
    else invalidSymbol
  | .hex =>
    if 0x30 ≤ c ∧ c ≤ 0x39 then c - 0x30
    else if 0x41 ≤ c ∧ c ≤ 0x56 then c - 0x41 + 10
    else invalidSymbol

/-! ### Encoding (R153 to R155) -/

/-- R153: S(r), the symbols of a final group of `r` bytes; a full group has 8. -/
def symbolCount : Nat → Nat
  | 0 => 0
  | 1 => 2
  | 2 => 4
  | 3 => 5
  | 4 => 7
  | _ => 8

/-- R153: the length of the encoding of `n` bytes. -/
def encodedLength (n : Nat) : Nat := 8 * ((n + 4) / 5)

/-- R154: the eight symbols of a group of five bytes. -/
def groupSymbols (b0 b1 b2 b3 b4 : Byte) : List Byte :=
  [ b0 >>> 3,
    ((b0 &&& 0x07) <<< 2) ||| (b1 >>> 6),
    (b1 >>> 1) &&& 0x1F,
    ((b1 &&& 0x01) <<< 4) ||| (b2 >>> 4),
    ((b2 &&& 0x0F) <<< 1) ||| (b3 >>> 7),
    (b3 >>> 2) &&& 0x1F,
    ((b3 &&& 0x03) <<< 3) ||| (b4 >>> 5),
    b4 &&& 0x1F ]

/-- R155: a final group of `r` bytes (zero-filled to five): its S(r) symbols, then the pads. -/
def encodeFinal (alph : Alphabet) (r : Nat) (b0 b1 b2 b3 : Byte) : List Byte :=
  ((groupSymbols b0 b1 b2 b3 0).take (symbolCount r)).map (encodeChar alph)
  ++ List.replicate (8 - symbolCount r) padChar

/-- R155: `b32encode(b, alph)`. -/
def b32encode (alph : Alphabet) : List Byte → List Byte
  | [] => []
  | [b0] => encodeFinal alph 1 b0 0 0 0
  | [b0, b1] => encodeFinal alph 2 b0 b1 0 0
  | [b0, b1, b2] => encodeFinal alph 3 b0 b1 b2 0
  | [b0, b1, b2, b3] => encodeFinal alph 4 b0 b1 b2 b3
  | b0 :: b1 :: b2 :: b3 :: b4 :: rest =>
    (groupSymbols b0 b1 b2 b3 b4).map (encodeChar alph) ++ b32encode alph rest

/-! ### Decoding (R157 to R160) -/

/-- R157: the length of the padding run: the longest suffix made only of '='. -/
def padRun (t : List Byte) : Nat := (t.reverse.takeWhile (fun c => c == padChar)).length

/-- R158(1): the supported padding runs. -/
def padRunOk (p : Nat) : Bool := p == 0 || p == 1 || p == 3 || p == 4 || p == 6

/-- R158(3): the supported remainders. -/
def remainderOk (r : Nat) : Bool := r == 0 || r == 2 || r == 4 || r == 5 || r == 7

/-- R159: B(R), the bytes of a group of `R` symbols; B(8) = 5. -/
def byteCount : Nat → Nat
  | 2 => 1
  | 4 => 2
  | 5 => 3
  | 7 => 4
  | 8 => 5
  | _ => 0

/-- R159: the five bytes of a group of eight symbol values. -/
def groupBytes (v0 v1 v2 v3 v4 v5 v6 v7 : Byte) : List Byte :=
  [ (v0 <<< 3) ||| (v1 >>> 2),
    ((v1 &&& 0x03) <<< 6) ||| (v2 <<< 1) ||| (v3 >>> 4),
    ((v3 &&& 0x0F) <<< 4) ||| (v4 >>> 1),
    ((v4 &&& 0x01) <<< 7) ||| (v5 <<< 2) ||| (v6 >>> 3),
    ((v6 &&& 0x07) <<< 5) ||| v7 ]

/-- R159, R160: a final group of fewer than eight symbols, zero-filled: its first B(R) bytes. -/
def decodeFinal (v : List Byte) : List Byte :=
  (groupBytes (v.getD 0 0) (v.getD 1 0) (v.getD 2 0) (v.getD 3 0) (v.getD 4 0) (v.getD 5 0) (v.getD 6 0)
    (v.getD 7 0)).take (byteCount v.length)

/-- R160: the output of the decoding loop over the symbol values. -/
def decodeGroups : List Byte → List Byte
  | v0 :: v1 :: v2 :: v3 :: v4 :: v5 :: v6 :: v7 :: rest =>
    groupBytes v0 v1 v2 v3 v4 v5 v6 v7 ++ decodeGroups rest
  | v => decodeFinal v

/-- R157: the text without its padding run. -/
def dataChars (t : List Byte) : List Byte := t.take (t.length - padRun t)

/-- R160: `b32decode(t, alph)`, its three checks in the order of R158. -/
def b32decode (alph : Alphabet) (t : List Byte) : Except ErrCode (List Byte) :=
  if !padRunOk (padRun t) then .error .b32Pad
  else if (dataChars t).any (fun c => decide (31 < (decodeChar alph c).toNat)) then .error .b32Char
  else if !remainderOk ((dataChars t).length % 8) then .error .b32Rem
  else .ok (decodeGroups ((dataChars t).map (decodeChar alph)))

/-- A Base32 decoding error is the command's error (R160, R188). -/
def b32decodeCmd (alph : Alphabet) (t : List Byte) : Except Stop (List Byte) :=
  match b32decode alph t with
  | .ok b => .ok b
  | .error c => raise c

/-! ### The commands -/

/-- R156: `B32ENC(L, alph)`. -/
def b32encBody (alph : Alphabet) (L : Latch) (v : EngineView) : Except Stop Writes := do
  checkSource L
  checkRange L.dstAddr.toNat (encodedLength L.srcLen.toNat)
  checkOverlap L.srcAddr.toNat L.srcLen.toNat L.dstAddr.toNat (encodedLength L.srcLen.toNat) false
  let bytes ← fetchSource L v
  return writeDest L (b32encode alph bytes)

/-- R160: `B32DEC(L, alph)`: the destination is checked only after a successful decode. -/
def b32decBody (alph : Alphabet) (L : Latch) (v : EngineView) : Except Stop Writes := do
  checkSource L
  let text ← fetchSource L v
  let bytes ← b32decodeCmd alph text
  checkRange L.dstAddr.toNat bytes.length
  checkOverlap L.srcAddr.toNat L.srcLen.toNat L.dstAddr.toNat bytes.length false
  return writeDest L bytes

/-- R156: the meaning of B32ENC. -/
def execB32enc (alph : Alphabet) (s : State) : Host.Outcome State Fault Refusal :=
  runCommand false (b32encBody alph) s

/-- R160: the meaning of B32DEC. -/
def execB32dec (alph : Alphabet) (s : State) : Host.Outcome State Fault Refusal :=
  runCommand false (b32decBody alph) s

end Sys2Proof.Machine
end

