-- ==== Sys2Proof/Machine/Control.lean ====
section
/-! DEFINITION. NOP (spec R135). -/

namespace Sys2Proof.Machine

/-- R135: NOP reads nothing and writes RES_LEN = 0. -/
def nopBody (_L : Latch) (_v : EngineView) : Except Stop Writes := .ok { resLen := 0 }

/-- R135: the meaning of NOP. -/
def execNop (s : State) : Host.Outcome State Fault Refusal := runCommand false nopBody s

end Sys2Proof.Machine
end

