-- ==== Sys2Proof/Machine/Hash.lean ====
section
/-! DEFINITION. SHA-1, HMAC-SHA-1 and the commands SHA1 and HMAC (spec R180 to R192). -/

namespace Sys2Proof.Machine

/-! ### SHA-1 (R180 to R185) -/

/-- R11: `rotl32`. -/
def rotl32 (w : Word) (n : Nat) : Word := w.rotateLeft n

/-- The five 32-bit words of the hash value, and of the working variables a to e (R182, R184). -/
structure HashState where
  a : Word
  b : Word
  c : Word
  d : Word
  e : Word
  deriving DecidableEq, Repr

/-- R182: the initial hash value. -/
def sha1Init : HashState := ⟨0x67452301, 0xEFCDAB89, 0x98BADCFE, 0x10325476, 0xC3D2E1F0⟩

/-- R181: the number of zero bytes of the padding of a message of `n` bytes. -/
def sha1ZeroPad (n : Nat) : Nat := (64 - (n + 9) % 64) % 64

/-- R181: the padded message. -/
def sha1Pad (m : List Byte) : List Byte :=
  m ++ [0x80] ++ List.replicate (sha1ZeroPad m.length) 0x00 ++ beBytes 8 (8 * m.length)

/-- R181: block `i` of a padded message as sixteen big-endian words. -/
def sha1BlockWords (p : List Byte) (i : Nat) : List Word :=
  (List.range 16).map (fun j => BitVec.ofNat 32 (beVal (slice p (64 * i + 4 * j) 4)))

/-- R183: f_t. -/
def sha1F (t : Nat) (b c d : Word) : Word :=
  if t < 20 then (b &&& c) ^^^ (~~~ b &&& d)
  else if t < 40 then b ^^^ c ^^^ d
  else if t < 60 then (b &&& c) ^^^ (b &&& d) ^^^ (c &&& d)
  else b ^^^ c ^^^ d

/-- R183: K_t. -/
def sha1K (t : Nat) : Word :=
  if t < 20 then 0x5A827999 else if t < 40 then 0x6ED9EBA1 else if t < 60 then 0x8F1BBCDC else 0xCA62C1D6

/-- R184: `n` more words of the message schedule; `w` holds the words so far, newest first, so that W_(t-3) is
the third of them. -/
def sha1Extend : Nat → List Word → List Word
  | 0, w => w
  | n + 1, w =>
    sha1Extend n (rotl32 (w.getD 2 0 ^^^ w.getD 7 0 ^^^ w.getD 13 0 ^^^ w.getD 15 0) 1 :: w)

/-- R184: the message schedule W_0 to W_79. -/
def sha1Schedule (block : List Word) : List Word := (sha1Extend 64 block.reverse).reverse

/-- R184: round `t`. -/
def sha1Round (h : HashState) (t : Nat) (w : Word) : HashState where
  a := rotl32 h.a 5 + sha1F t h.b h.c h.d + h.e + sha1K t + w
  b := h.a
  c := rotl32 h.b 30
  d := h.c
  e := h.d

/-- R184: the rounds from `t` on, one for each schedule word. -/
def sha1Rounds : HashState → Nat → List Word → HashState
  | h, _, [] => h
  | h, t, w :: ws => sha1Rounds (sha1Round h t w) (t + 1) ws

/-- R184: the hash value after one block. -/
def sha1Block (h : HashState) (block : List Word) : HashState :=
  let r := sha1Rounds h 0 (sha1Schedule block)
  ⟨h.a + r.a, h.b + r.b, h.c + r.c, h.d + r.d, h.e + r.e⟩

/-- R184: the hash value after the whole padded message. -/
def sha1Hash (p : List Byte) : HashState :=
  (List.range (p.length / 64)).foldl (fun h i => sha1Block h (sha1BlockWords p i)) sha1Init

/-- R185: the 20-byte digest of a hash value. -/
def HashState.digest (h : HashState) : List Byte :=
  beBytes 4 h.a.toNat ++ beBytes 4 h.b.toNat ++ beBytes 4 h.c.toNat ++ beBytes 4 h.d.toNat ++ beBytes 4 h.e.toNat

/-- R185: `SHA1(M)`. -/
def sha1 (m : List Byte) : List Byte := (sha1Hash (sha1Pad m)).digest

/-! ### HMAC-SHA-1 (R186 to R188) -/

/-- R186: `K0(K)`, the 64-byte key block. -/
def hmacKeyBlock (k : List Byte) : List Byte :=
  if k.length ≤ 64 then k ++ List.replicate (64 - k.length) 0x00 else sha1 k ++ List.replicate 44 0x00

/-- R187: `HMAC_SHA1(K, m)`. -/
def hmacSha1 (k m : List Byte) : List Byte :=
  sha1 (xorBytes (hmacKeyBlock k) (List.replicate 64 0x5C)
    ++ sha1 (xorBytes (hmacKeyBlock k) (List.replicate 64 0x36) ++ m))

/-- R188: `keyBytes(L, keyfmt, alph)`. -/
def keyBytes (key : KeyForm) (L : Latch) (v : EngineView) : Except Stop (List Byte) := do
  let text ← fetchKey L v
  match key with
  | .raw => return text
  | .b32 alph => b32decodeCmd alph text

/-! ### The commands -/

/-- R190: `SHA1cmd(L)`. -/
def sha1Body (L : Latch) (v : EngineView) : Except Stop Writes := do
  checkSource L
  let m ← fetchSource L v
  return { digest := some (Words5.ofBytes (sha1 m)), resLen := 0 }

/-- R192: `HMACcmd(L, keyfmt, alph)`. -/
def hmacBody (key : KeyForm) (L : Latch) (v : EngineView) : Except Stop Writes := do
  checkSource L
  let k ← keyBytes key L v
  let m ← fetchSource L v
  return { digest := some (Words5.ofBytes (hmacSha1 k m)), resLen := 0 }

/-- R190: the meaning of SHA1. -/
def execSha1 (s : State) : Host.Outcome State Fault Refusal := runCommand false sha1Body s

/-- R192: the meaning of HMAC. -/
def execHmac (key : KeyForm) (s : State) : Host.Outcome State Fault Refusal := runCommand false (hmacBody key) s

end Sys2Proof.Machine
end

