-- ==== Sys2Proof/Machine/Otp.lean ====
section
/-! DEFINITION. One-time passwords and the commands HOTP and TOTP (spec R193 to R212). -/

namespace Sys2Proof.Machine

/-- R196: dynamic truncation of the 20-byte digest. -/
def dynamicTruncate (d : List Byte) : Nat :=
  let o := ((d.getD 19 0) &&& 0x0F).toNat
  beVal [d.getD o 0 &&& 0x7F, d.getD (o + 1) 0, d.getD (o + 2) 0, d.getD (o + 3) 0]

/-- R197: the reduction modulo 10^D. -/
def otpCode (bin digits : Nat) : Nat := bin % 10 ^ digits

/-- R198: the decimal digits of `code`, `digits` characters, zero-padded on the left. -/
def decimalString (code digits : Nat) : List Byte :=
  (List.range digits).map (fun i => BitVec.ofNat 8 (0x30 + code / 10 ^ (digits - 1 - i) % 10))

/-- R38, R198: what OTP_STR0..2 hold for a code. -/
def otpString (code digits : Nat) : Words3 :=
  Words3.ofBytes (decimalString code digits ++ List.replicate (12 - digits) 0x00)

/-- R193, R194: the HOTP digest of a key and a counter. -/
def hotpDigest (k : List Byte) (counter : Nat) : List Byte := hmacSha1 k (beBytes 8 counter)

/-- R197, R200: the code of a digest. -/
def hotpCode (d : List Byte) (digits : Nat) : Nat := otpCode (dynamicTruncate d) digits

/-- R200: the registers a successful HOTP writes for a key, a counter and a digit count. -/
def otpWrites (k : List Byte) (counter digits : Nat) : Writes :=
  let d := hotpDigest k counter
  let code := hotpCode d digits
  { digest := some (Words5.ofBytes d)
    otp := some ⟨BitVec.ofNat 32 code, BitVec.ofNat 32 digits, otpString code digits⟩
    resLen := 0 }

/-- R205, R206: the counter of TOTP; STEP = 0 is the one-second step. -/
def totpCounter (time step : Nat) : Nat := time / (if 0 < step then step else 1)

/-- R200: `HOTPcmd(L, D, keyfmt, alph)`. -/
def hotpBody (key : KeyForm) (digits : BitVec 4) (L : Latch) (v : EngineView) : Except Stop Writes := do
  checkDigits digits
  let k ← keyBytes key L v
  return otpWrites k L.cnt.toNat (digitCount digits)

/-- R208: `TOTPcmd(L, D, keyfmt, alph)`: HOTP's writes for the derived counter, which CNT receives (R210); STEP0 is
set when L.STEP = 0 (R209). -/
def totpBody (key : KeyForm) (digits : BitVec 4) (L : Latch) (v : EngineView) : Except Stop Writes := do
  checkDigits digits
  let k ← keyBytes key L v
  let counter := totpCounter L.time.toNat L.step.toNat
  return { otpWrites k counter (digitCount digits) with
    cnt := some (BitVec.ofNat 64 counter)
    step0 := L.step == 0 }

/-- R200: the meaning of HOTP. -/
def execHotp (key : KeyForm) (digits : BitVec 4) (s : State) : Host.Outcome State Fault Refusal :=
  runCommand true (hotpBody key digits) s

/-- R208: the meaning of TOTP. -/
def execTotp (key : KeyForm) (digits : BitVec 4) (s : State) : Host.Outcome State Fault Refusal :=
  runCommand true (totpBody key digits) s

end Sys2Proof.Machine
end

