-- ==== Sys2Proof/Machine/Dispatch.lean ====
section
/-! DEFINITION. `exec`: the engine step of each command (spec R124), one arm per constructor of `Instr`. -/

namespace Sys2Proof.Machine

def exec (i : Instr) (s : State) : Host.Outcome State Fault Refusal :=
  match i with
  | .nop => Sys2Proof.Machine.execNop s
  | .b32enc alph => Sys2Proof.Machine.execB32enc alph s
  | .b32dec alph => Sys2Proof.Machine.execB32dec alph s
  | .sha1 => Sys2Proof.Machine.execSha1 s
  | .hmac key => Sys2Proof.Machine.execHmac key s
  | .hotp key digits => Sys2Proof.Machine.execHotp key digits s
  | .totp key digits => Sys2Proof.Machine.execTotp key digits s
  | .aesEcbEnc ks => Sys2Proof.Machine.execAesEcbEnc ks s
  | .aesEcbDec ks => Sys2Proof.Machine.execAesEcbDec ks s
  | .aesCbcEnc ks => Sys2Proof.Machine.execAesCbcEnc ks s
  | .aesCbcDec ks => Sys2Proof.Machine.execAesCbcDec ks s

end Sys2Proof.Machine
end

