-- ==== Sys2Proof/Machine/Reset.lean ====
section
/-! DEFINITION. Power-on reset, soft reset, and the destination range a command in flight may write
(spec R47, R48, R300 to R303). -/

namespace Sys2Proof.Machine

/-- R302: the output length of a latched B32DEC. A decode that fails, or a source that does not fit, has none;
a source with an unwritten byte has an unknown length, taken as `unknown`. -/
def decodeLength (m : Memory) (alph : Alphabet) (L : Latch) (unknown : Nat) : Nat :=
  if inRange L.srcAddr.toNat L.srcLen.toNat then
    match m.bytesAt? L.srcAddr.toNat L.srcLen.toNat with
    | none => unknown
    | some t =>
      match b32decode alph t with
      | .ok b => b.length
      | .error _ => 0
  else 0

/-- R302: the length the latched command would write, by its OP; 0 for a command that writes no RAM; `unknown` for a
B32DEC whose length is not known. -/
def destLength (m : Memory) (L : Latch) (unknown : Nat) : Nat :=
  match Opcode.ofByte (opField L.cmd) with
  | some .b32enc => encodedLength L.srcLen.toNat
  | some .b32dec => decodeLength m (Alphabet.ofBit (alphField L.cmd)) L unknown
  | some .aesEcbEnc => L.srcLen.toNat
  | some .aesEcbDec => L.srcLen.toNat
  | some .aesCbcEnc => L.srcLen.toNat
  | some .aesCbcDec => L.srcLen.toNat
  | some .nop => 0
  | some .sha1 => 0
  | some .hmac => 0
  | some .hotp => 0
  | some .totp => 0
  | none => 0

/-- R302: how many RAM bytes from L.DST_ADDR on a soft reset clobbers: the destination range the latched operands
name, as far as it lies in RAM. An unknown length is taken as the whole of RAM (U19, log 4). -/
def destSpan (m : Memory) (L : Latch) : Nat :=
  min (destLength m L Config.ramSize) (Config.ramSize - L.dstAddr.toNat)

/-- R47, R159: how many RAM bytes from L.DST_ADDR on the latched command may still write. An unknown length is at most
the bytes of SRC_LEN whole symbols of five bits (log 4). -/
def writeSpan (m : Memory) (L : Latch) : Nat :=
  min (destLength m L (5 * L.srcLen.toNat / 8)) (Config.ramSize - L.dstAddr.toNat)

/-- R129, R132, R242: the latched command is an AES command exactly in place that passes its checks: the only command
that writes source bytes. -/
def Latch.aesInPlace (L : Latch) : Bool :=
  match decode L.cmd with
  | .ok i => i.opcode.isAes && L.dstAddr == L.srcAddr && L.srcLen.toNat % 16 == 0 && inRange L.srcAddr.toNat L.srcLen.toNat
  | .error _ => false

/-- R30: a RAM byte lies in the source range. -/
def Latch.inSource (L : Latch) (a : Nat) : Bool :=
  decide (L.srcAddr.toNat ≤ a ∧ a < L.srcAddr.toNat + L.srcLen.toNat)

/-- R47: the command in flight may write this RAM byte: it lies in the destination range, and it is no source byte
unless the command works in place. Source bytes read their current content. -/
def State.inFlightDest (s : State) (a : Nat) : Bool :=
  match s.latched with
  | none => false
  | some L =>
    decide (L.dstAddr.toNat ≤ a ∧ a < L.dstAddr.toNat + writeSpan s.ram L) && (!L.inSource a || L.aesInPlace)

/-- How many bytes a soft reset clobbers (R302). -/
def State.clobberCount (s : State) : Nat :=
  match s.latched with
  | none => 0
  | some L => destSpan s.ram L

/-- R302: RAM after a soft reset: the destination range of an aborted command holds free bytes, then written. -/
def State.clobberedRam (s : State) : Memory :=
  match s.latched with
  | none => s.ram
  | some L => s.ram.store L.dstAddr.toNat (freeBytes s.draws s.clobberCount)

/-- R302: soft reset, as one atomic step. -/
def State.softReset (s : State) : State :=
  { s with
    regs := Regs.reset
    status := Status.reset
    results := Results.reset
    ram := s.clobberedRam
    latched := none
    engineDelay := 0
    draws := s.draws + s.clobberCount }

/-- R300: power-on reset, as one atomic event. The host agent and the model's own fields stay. -/
def State.powerOn (s : State) : State :=
  { s with
    regs := Regs.reset
    status := Status.reset
    results := Results.reset
    ram := []
    latched := none
    engineDelay := 0 }

/-- R300: the platform drives the reset input: asserting it resets the block; releasing it lets the next access be
served. `pin` is the model's own statement (log 9). -/
def State.drivePin (s : State) (level : Bool) : State :=
  if level then { s.powerOn with rst := true } else { s with rst := false }

end Sys2Proof.Machine
end

