-- ==== Sys2Proof/Machine/Bus.lean ====
section
/-! DEFINITION. The host bus: the register map and its access kinds (spec R23 to R42), legal accesses and bus errors
(R60 to R64), and host accesses while a command runs (R47, R122, R126). -/

namespace Sys2Proof.Machine

/-! ### The register map (R23) -/

/-- R23: the registers. -/
inductive Reg where
  | id | version | ctrl | status | cmd | srcAddr | srcLen | dstAddr | keyAddr | keyLen | resLen
  | timeLo | timeHi | step | cntLo | cntHi | otpCode | otpLen
  | otpStr (i : Fin 3)
  | digest (i : Fin 5)
  | aesKey (i : Fin 8)
  | aesIv (i : Fin 4)
  deriving DecidableEq, Repr

/-- R23: the offset of each register. -/
def Reg.offset : Reg → Nat
  | .id => 0x000
  | .version => 0x004
  | .ctrl => 0x008
  | .status => 0x00C
  | .cmd => 0x010
  | .srcAddr => 0x014
  | .srcLen => 0x018
  | .dstAddr => 0x01C
  | .keyAddr => 0x020
  | .keyLen => 0x024
  | .resLen => 0x028
  | .timeLo => 0x030
  | .timeHi => 0x034
  | .step => 0x038
  | .cntLo => 0x03C
  | .cntHi => 0x040
  | .otpCode => 0x044
  | .otpLen => 0x048
  | .otpStr i => 0x04C + 4 * i.val
  | .digest i => 0x060 + 4 * i.val
  | .aesKey i => 0x080 + 4 * i.val
  | .aesIv i => 0x0A0 + 4 * i.val

/-- R23: every register, in the map's order. -/
def Reg.all : List Reg :=
  [.id, .version, .ctrl, .status, .cmd, .srcAddr, .srcLen, .dstAddr, .keyAddr, .keyLen, .resLen, .timeLo, .timeHi,
    .step, .cntLo, .cntHi, .otpCode, .otpLen]
  ++ [.otpStr 0, .otpStr 1, .otpStr 2]
  ++ [.digest 0, .digest 1, .digest 2, .digest 3, .digest 4]
  ++ [.aesKey 0, .aesKey 1, .aesKey 2, .aesKey 3, .aesKey 4, .aesKey 5, .aesKey 6, .aesKey 7]
  ++ [.aesIv 0, .aesIv 1, .aesIv 2, .aesIv 3]

/-- R23, R42: the register at an offset, none for a reserved offset. -/
def Reg.ofOffset (off : Nat) : Option Reg := Reg.all.find? (fun r => r.offset == off)

/-- Register `i` of a group (R25). -/
def Words3.get (w : Words3) : Nat → Word
  | 0 => w.w0
  | 1 => w.w1
  | _ => w.w2

/-- Register `i` of a group (R25). -/
def Words4.get (w : Words4) : Nat → Word
  | 0 => w.w0
  | 1 => w.w1
  | 2 => w.w2
  | _ => w.w3

/-- Register `i` of a group (R25). -/
def Words5.get (w : Words5) : Nat → Word
  | 0 => w.w0
  | 1 => w.w1
  | 2 => w.w2
  | 3 => w.w3
  | _ => w.w4

/-- Register `i` of a group with a new value (R25). -/
def Words4.set (w : Words4) (i : Nat) (v : Word) : Words4 :=
  match i with
  | 0 => { w with w0 := v }
  | 1 => { w with w1 := v }
  | 2 => { w with w2 := v }
  | _ => { w with w3 := v }

/-- Register `i` of a group with a new value (R25). -/
def Words8.set (w : Words8) (i : Nat) (v : Word) : Words8 :=
  match i with
  | 0 => { w with w0 := v }
  | 1 => { w with w1 := v }
  | 2 => { w with w2 := v }
  | 3 => { w with w3 := v }
  | 4 => { w with w4 := v }
  | 5 => { w with w5 := v }
  | 6 => { w with w6 := v }
  | _ => { w with w7 := v }

/-- R26: the identity value. -/
def idValue : Word := 0x544F5450

/-- R26: the interface version value. -/
def versionValue : Word := 0x00010000

/-- R24 to R41: what a register holds for a host read while no command runs. AES_KEY is write-only and reads 0. -/
def State.readReg (s : State) : Reg → Word
  | .id => idValue
  | .version => versionValue
  | .ctrl => s.ctrlWord
  | .status => s.statusWord
  | .cmd => s.regs.cmd
  | .srcAddr => s.regs.srcAddr
  | .srcLen => s.regs.srcLen
  | .dstAddr => s.regs.dstAddr
  | .keyAddr => s.regs.keyAddr
  | .keyLen => s.regs.keyLen
  | .resLen => s.results.resLen
  | .timeLo => s.regs.timeLo
  | .timeHi => s.regs.timeHi
  | .step => s.regs.step
  | .cntLo => s.regs.cntLo
  | .cntHi => s.regs.cntHi
  | .otpCode => s.results.otpCode
  | .otpLen => s.results.otpLen
  | .otpStr i => s.results.otpStr.get i.val
  | .digest i => s.results.digest.get i.val
  | .aesKey _ => 0
  | .aesIv i => s.regs.aesIv.get i.val

/-- R47: the registers whose host reads are draws while BUSY = 1. -/
def Reg.isResult : Reg → Bool
  | .resLen => true
  | .otpCode => true
  | .otpLen => true
  | .otpStr _ => true
  | .digest _ => true
  | .cntLo => true
  | .cntHi => true
  | .aesIv _ => true
  | _ => false

/-- R47: a host read of a register; while BUSY = 1 a result register and STATUS.ERRCODE read as free values. -/
def State.hostReadReg (s : State) (r : Reg) : Word :=
  if s.busy then
    if r.isResult then Config.freeWord s.draws
    else if r = .status then s.statusWordWith (Config.freeByte s.draws)
    else s.readReg r
  else s.readReg r

/-- R24: the effect of a host write of a register other than CTRL and STATUS while no command runs: RW and WO
registers store every bit, RO registers ignore the write. -/
def Regs.write (g : Regs) (r : Reg) (v : Word) : Regs :=
  match r with
  | .id => g
  | .version => g
  | .ctrl => g
  | .status => g
  | .cmd => { g with cmd := v }
  | .srcAddr => { g with srcAddr := v }
  | .srcLen => { g with srcLen := v }
  | .dstAddr => { g with dstAddr := v }
  | .keyAddr => { g with keyAddr := v }
  | .keyLen => { g with keyLen := v }
  | .resLen => g
  | .timeLo => { g with timeLo := v }
  | .timeHi => { g with timeHi := v }
  | .step => { g with step := v }
  | .cntLo => { g with cntLo := v }
  | .cntHi => { g with cntHi := v }
  | .otpCode => g
  | .otpLen => g
  | .otpStr _ => g
  | .digest _ => g
  | .aesKey i => { g with aesKey := g.aesKey.set i.val v }
  | .aesIv i => { g with aesIv := g.aesIv.set i.val v }

/-! ### Writes (R27, R121, R122, R126) -/

/-- R126(c): a host write dropped because BUSY = 1. -/
def State.dropWrite (s : State) : State := { s with status := { s.status with wbusy := true } }

/-- R122: a START while BUSY = 1 is ignored: WBUSY is set and IE updated. -/
def State.ignoreStart (s : State) (ie : Bool) : State := { s.dropWrite with regs := { s.regs with ie := ie } }

/-- R27, R121, R122, R302: a host write to CTRL: SRST (bit 1) before START (bit 0), IE in bit 2. -/
def State.writeCtrl (s : State) (v : Word) : State :=
  if v.getLsbD 1 then s.softReset
  else if v.getLsbD 0 then
    if s.busy then s.ignoreStart (v.getLsbD 2) else s.acceptStart (v.getLsbD 2)
  else { s with regs := { s.regs with ie := v.getLsbD 2 } }

/-- R28, R126(b): a host write to STATUS. -/
def State.writeStatus (s : State) (v : Word) : State := { s with status := s.status.w1c v }

/-- R24, R42, R126: a host write at a register-space offset. -/
def State.hostWriteReg (s : State) (off : Nat) (v : Word) : State :=
  match Reg.ofOffset off with
  | some .ctrl => s.writeCtrl v
  | some .status => s.writeStatus v
  | some r => if s.busy then s.dropWrite else { s with regs := s.regs.write r v }
  | none => if s.busy then s.dropWrite else s

/-- R63, R126(c): a host write of RAM bytes. -/
def State.hostWriteRam (s : State) (a : Nat) (bytes : List Byte) : State :=
  if s.busy then s.dropWrite else { s with ram := s.ram.store a bytes }

/-! ### RAM reads (R47, R63, R69) -/

/-- R47, R69: lane `j` of a host read of RAM byte `a`: a free byte in the destination range of a command in flight,
the byte's content where it is written, else as UNWRITTEN_POLICY says. -/
def State.hostReadByte (s : State) (a j : Nat) : Except Fault Byte :=
  if s.inFlightDest a then .ok (Config.freeByte (s.draws + j))
  else
    match s.ram.byteAt a with
    | some b => .ok b
    | none =>
      match s.policy with
      | .draw => .ok (Config.freeByte (s.draws + j))
      | .fault => .error (.unwrittenHostRead a)

/-- R62: `n` consecutive RAM bytes from `a` on, as a host read of lanes `j`, `j + 1`, … -/
def State.hostReadBytes (s : State) (a j : Nat) : Nat → Except Fault (List Byte)
  | 0 => .ok []
  | n + 1 => do
    let b ← s.hostReadByte a j
    let bs ← s.hostReadBytes (a + 1) (j + 1) n
    return b :: bs

/-! ### Accesses (R60 to R64) -/

/-- Where a legal access goes. -/
inductive BusTarget where
  | reg (off : Nat)
  | ram (a : Nat)
  deriving DecidableEq, Repr

/-- R60, R61, R62: the target of an access: a bus error where the width or alignment is illegal, and no access to this
block outside its window. -/
def busTarget (w : Width) (off : Nat) : Except Fault BusTarget :=
  if Config.windowSize ≤ off then .error (.outsideWindow off)
  else if !w.legalAt off then .error (.busError w off)
  else if off < Config.ramWindow then .ok (.reg off)
  else .ok (.ram (off - Config.ramWindow))

/-- R24, R42: a host read at a register-space offset; a reserved offset reads 0. -/
def State.hostReadOffset (s : State) (off : Nat) : Word :=
  match Reg.ofOffset off with
  | some r => s.hostReadReg r
  | none => 0

/-- R62, R64, R300: the value a host read returns; 0 while `rst` is asserted. -/
def State.busRead (s : State) (w : Width) (off : Nat) : Except Fault Word :=
  match busTarget w off with
  | .error f => .error f
  | .ok t =>
    if s.rst then .ok 0
    else
      match t with
      | .reg o => .ok (s.hostReadOffset o)
      | .ram a =>
        match s.hostReadBytes a 0 w.bytes with
        | .ok bs => .ok (wordAt bs 0)
        | .error f => .error f

/-- R62, R63, R64, R300: the effect of a host write; none while `rst` is asserted. -/
def State.busWrite (s : State) (w : Width) (off : Nat) (v : Word) : Except Fault State :=
  match busTarget w off with
  | .error f => .error f
  | .ok t =>
    if s.rst then .ok s
    else
      match t with
      | .reg o => .ok (s.hostWriteReg o v)
      | .ram a => .ok (s.hostWriteRam a ((wordBytes v).take w.bytes))

/-- R64: the value on the bus of a read that takes a bus error is 0, beside its error response. -/
def busErrorValue : Word := 0

/-! ### Physical addresses (R60, R68) -/

/-- R60: the physical address of a block offset. -/
def busAddress (off : Nat) : Nat := Config.base + off

/-- R60: the block offset a physical address reaches, none outside the window. -/
def offsetOfAddress (addr : Nat) : Option Nat :=
  if Config.base ≤ addr ∧ addr < Config.base + Config.windowSize then some (addr - Config.base) else none

end Sys2Proof.Machine
end

