-- ==== Sys2Proof/Machine/Host.lean ====
section
/-! DEFINITION. The host agent: it runs a program of bus accesses and branches in the host notation, one statement a
step (spec R22, R101, R102, R312). -/

namespace Sys2Proof.Machine

/-! ### Expressions (R101): unbounded integers -/

/-- R101 AND, on unbounded integers in two's complement (DESIGN CHOICE for negative ones, log 18). -/
def intAnd : Int → Int → Int
  | .ofNat a, .ofNat b => .ofNat (a &&& b)
  | .ofNat a, .negSucc b => .ofNat (a - (a &&& b))
  | .negSucc a, .ofNat b => .ofNat (b - (a &&& b))
  | .negSucc a, .negSucc b => .negSucc (a ||| b)

/-- R101 OR, on unbounded integers in two's complement (DESIGN CHOICE for negative ones, log 18). -/
def intOr : Int → Int → Int
  | .ofNat a, .ofNat b => .ofNat (a ||| b)
  | .ofNat a, .negSucc b => .negSucc (b - (a &&& b))
  | .negSucc a, .ofNat b => .negSucc (a - (a &&& b))
  | .negSucc a, .negSucc b => .negSucc (a &&& b)

/-- R101 `<<`; by a negative amount the result is a free value (log 11). -/
def intShl : Int → Int → Int
  | x, .ofNat k => x * 2 ^ k
  | x, .negSucc k => Config.freeShift x (.negSucc k)

/-- R101: a comparison gives 1 or 0. -/
def intBool (b : Bool) : Int := if b then 1 else 0

/-- A host variable; before its first assignment it holds a free value (log 10). -/
def hostVar (vars : List (Nat × Int)) (x : Nat) : Int := (assocGet x vars).getD (Config.freeHostVar x)

/-- R101: the value of an expression. -/
def evalExpr (vars : List (Nat × Int)) : HostExpr → Int
  | .lit n => n
  | .var x => hostVar vars x
  | .add a b => evalExpr vars a + evalExpr vars b
  | .sub a b => evalExpr vars a - evalExpr vars b
  | .and a b => intAnd (evalExpr vars a) (evalExpr vars b)
  | .or a b => intOr (evalExpr vars a) (evalExpr vars b)
  | .shl a b => intShl (evalExpr vars a) (evalExpr vars b)
  | .eq a b => intBool (evalExpr vars a == evalExpr vars b)
  | .ne a b => intBool (evalExpr vars a != evalExpr vars b)

/-! ### One host step -/

/-- R101: the next statement. -/
def HostAgent.advance (h : HostAgent) : HostAgent := { h with index := h.index + 1 }

/-- R101: a branch to a statement. -/
def HostAgent.jump (h : HostAgent) (taken : Bool) (target : Nat) : HostAgent :=
  if taken then { h with index := target } else h.advance

/-- R101: assign a host variable and go on. -/
def HostAgent.assign (h : HostAgent) (x : Nat) (v : Int) : HostAgent :=
  { h.advance with vars := assocSet x v h.vars }

/-- The statement the host is at, none when it has halted by running past its program. -/
def HostAgent.current (h : HostAgent) : Option HostStmt := h.prog[h.index]?

/-- The host has no access left to make. -/
def HostAgent.halted (h : HostAgent) : Bool :=
  match h.current with
  | none => true
  | some .halt => true
  | some _ => false

/-- The host agent moves; the block is untouched. -/
def State.withHost (s : State) (h : HostAgent) : State := { s with host := h }

/-- The free values of one host read are used up (log 1). -/
def State.consumeRead (s : State) : State := { s with draws := s.draws + 4 }

/-- R62, R101: `r OFF -> $x`. -/
def hostRead (w : Width) (off x : Nat) (s : State) : Host.Outcome State Fault Refusal :=
  match s.busRead w off with
  | .ok v => .next (s.consumeRead.withHost (s.host.assign x (Int.ofNat v.toNat)))
  | .error f => .fault f

/-- R62, R101: `w OFF, V`; the written value is taken modulo 2^width. -/
def hostWrite (w : Width) (off : Nat) (e : HostExpr) (s : State) : Host.Outcome State Fault Refusal :=
  match s.busWrite w off (BitVec.ofInt 32 (evalExpr s.host.vars e)) with
  | .ok t => .next (t.withHost s.host.advance)
  | .error f => .fault f

/-- R101: one statement of the host notation. -/
def runStmt (st : HostStmt) (s : State) : Host.Outcome State Fault Refusal :=
  match st with
  | .write w off e => hostWrite w off e s
  | .read w off x => hostRead w off x s
  | .bnz e target => .next (s.withHost (s.host.jump (evalExpr s.host.vars e != 0) target))
  | .bz e target => .next (s.withHost (s.host.jump (evalExpr s.host.vars e == 0) target))
  | .halt => .next s
  | .pin level => .next ((s.drivePin level).withHost s.host.advance)

/-- R22, R312(a): the host's step: its current statement; nothing when it has none (R290: the block keeps its
state; log 14). -/
def hostStep (s : State) : Host.Outcome State Fault Refusal :=
  match s.host.current with
  | none => .next s
  | some st => runStmt st s

/-! ### Whose turn it is (R71, R312) -/

/-- R312(b): the engine moves when a command is latched and no host step is left before it. -/
def State.engineTurn (s : State) : Bool := s.busy && s.engineDelay == 0

/-- R312(b): a host step taken while a command is latched is one of the finitely many before the engine step. -/
def State.countHostStep (s : State) : State :=
  if s.busy then { s with engineDelay := s.engineDelay - 1 } else s

/-! ### A command placed to run next (the host's interface) -/

/-- The state after an accepted START of the command word `c` (R121), with no host step before the engine step:
`rst` is released, CMD holds the word and the latch is taken; IE, the operand registers and RAM stay. -/
def State.startWord (s : State) (c : Word) : State :=
  ({ s with regs := { s.regs with cmd := c }, rst := false }).latchCommand 0

/-! ### Pseudo-instructions (R102) -/

/-- R102: the register offset of a `w32` to a register. -/
def writeRegStmt (r : Reg) (e : HostExpr) : HostStmt := .write .w32 r.offset e

/-- R102 `start CMDWORD`. -/
def pseudoStart (c : Word) (ie : Bool) : List HostStmt :=
  [writeRegStmt .cmd (.lit (Int.ofNat c.toNat)),
    writeRegStmt .ctrl (.or (.lit 1) (.shl (.lit (intBool ie)) (.lit 2)))]

/-- R102 `wait`, at statement index `at`, with the host variable `x` for `$s`. -/
def pseudoWait (at' x : Nat) : List HostStmt :=
  [.read .w32 Reg.status.offset x, .bnz (.and (.var x) (.lit 1)) at']

/-- R102 `run CMDWORD`, at statement index `at`. -/
def pseudoRun (at' x : Nat) (c : Word) (ie : Bool) : List HostStmt :=
  pseudoStart c ie ++ pseudoWait (at' + 2) x

/-- R102 `wbytes RAM+n, "b0 b1 ..."`: one `w8` per byte. -/
def pseudoWbytes (n : Nat) : List Byte → List HostStmt
  | [] => []
  | b :: bs => .write .w8 (Config.ramWindow + n) (.lit (Int.ofNat b.toNat)) :: pseudoWbytes (n + 1) bs

/-- R102: one `w32` per word of a byte string, to the registers from `off` on, in the lanes of R25. -/
def pseudoWords (off : Nat) (k : List Byte) : List HostStmt :=
  (List.range ((k.length + 3) / 4)).map
    (fun i => .write .w32 (off + 4 * i) (.lit (Int.ofNat (wordAt k i).toNat)))

/-- R102 `wkey k`. -/
def pseudoWkey (k : List Byte) : List HostStmt := pseudoWords (Reg.aesKey 0).offset k

/-- R102 `wiv v`. -/
def pseudoWiv (v : List Byte) : List HostStmt := pseudoWords (Reg.aesIv 0).offset v

/-- R102 `clear`. -/
def pseudoClear : List HostStmt := [writeRegStmt .status (.lit 0x1E)]

end Sys2Proof.Machine
end

