-- ==== Sys2Proof/Machine/Step.lean ====
section
/-! DEFINITION. One step of the machine: the engine's command step or one host statement (spec R71, R123, R312). -/

namespace Sys2Proof.Machine

/-- R123, R124: the engine step: decode the latched word, then run the command, or complete with the decoder's
error. -/
def engineStep (s : State) : Host.Outcome State Fault Refusal :=
  match s.latched with
  | none => .fault .noCommandLatched
  | some L =>
    match decode L.cmd with
    | .ok i => exec i s
    | .error c => .next (s.badCommand L c)

/-- R71, R312: one step of the interleaving of host and engine. -/
def step (s : State) : Host.Outcome State Fault Refusal :=
  if s.engineTurn then engineStep s else hostStep s.countHostStep

/-- The host's interface: `s` right after the accepted START of the command word `w` (log 8). -/
def State.withFetchWord (s : State) (nbits w : Nat) : State := s.startWord (BitVec.ofNat 32 (w % 2 ^ nbits))

end Sys2Proof.Machine
end

