-- ==== Sys2Proof/Safety.lean ====
section
/-! DEFINITION. The terms in which claims about the machine are stated: what a safe step is, what RAM holds, the two
kinds of completion, frames, and the machine's invariant. -/

namespace Sys2Proof.Machine

/-- A step is safe when it neither faults nor is refused. -/
def SafeStep (s : State) : Prop := ∃ t, step s = .next t

/-- R69: RAM holds the written bytes `bs` from offset `a` on. -/
def Memory.holds (m : Memory) (a : Nat) (bs : List Byte) : Prop :=
  ∀ j, j < bs.length → m.byteAt (a + j) = bs[j]?

/-- R30, R32: the range operand `(addr, len)` names the written RAM bytes `bs`, all of them inside RAM. -/
def operandHolds (m : Memory) (addr len : Word) (bs : List Byte) : Prop :=
  bs.length = len.toNat ∧ addr.toNat + len.toNat ≤ Config.ramSize ∧ m.holds addr.toNat bs

/-- R188: the key operand yields the key bytes `k`: as they stand (KEYFMT = 0), or Base32-decoded (KEYFMT = 1). -/
def keyOperandIs (m : Memory) (L : Latch) (key : KeyForm) (k : List Byte) : Prop :=
  match key with
  | .raw => operandHolds m L.keyAddr L.keyLen k
  | .b32 alph => ∃ text, operandHolds m L.keyAddr L.keyLen text ∧ b32decode alph text = .ok k

/-- R66, R132: every RAM byte outside `[a, a+n)` reads in `t` as it read in `s`, unwritten bytes included. -/
def ramSameOutside (s t : State) (a n : Nat) : Prop :=
  ∀ x, (x < a ∨ a + n ≤ x) → t.ram.byteAt x = s.ram.byteAt x

/-- R123: the part of every successful completion that all commands share: DONE set, ERR and ERRCODE 0, BUSY cleared;
WBUSY kept, and STEP0 set where `step0`, else kept. -/
def completedOk (s t : State) (step0 : Bool) : Prop :=
  t.status = ⟨true, false, s.status.step0 || step0, s.status.wbusy, none⟩ ∧ t.latched = none

/-- R272: `errorCompletion(op, code)` took `s` to `t`: the status, RES_LEN = 0, for HOTP and TOTP the OTP sentinel,
`L` dropped; RAM, DIGEST, CNT, AES_IV, STEP0, WBUSY, every operand register and AES_KEY unchanged. -/
def completedErr (s t : State) (otp : Bool) (c : ErrCode) : Prop :=
  t.status = ⟨true, true, s.status.step0, s.status.wbusy, some c⟩ ∧ t.latched = none
  ∧ t.results.resLen = 0 ∧ t.results.digest = s.results.digest
  ∧ (otp = true → t.results.otpCode = 0 ∧ t.results.otpLen = 0 ∧ t.results.otpStr = ⟨0, 0, 0⟩)
  ∧ (otp = false → t.results.otpCode = s.results.otpCode ∧ t.results.otpLen = s.results.otpLen
      ∧ t.results.otpStr = s.results.otpStr)
  ∧ t.ram = s.ram ∧ t.regs = s.regs

/-- The fields that belong to no command: the reset input, the host agent, the model's arguments and schedule. -/
def environmentSame (s t : State) : Prop :=
  t.rst = s.rst ∧ t.host = s.host ∧ t.policy = s.policy ∧ t.schedule = s.schedule

/-- R37, R38: OTP_CODE, OTP_LEN and OTP_STR agree: at most ten digits, a code below 10^OTP_LEN, and its zero-padded
decimal string. The sentinel and the reset values are the case OTP_LEN = 0. -/
def Results.otpConsistent (r : Results) : Prop :=
  r.otpLen.toNat ≤ 10 ∧ r.otpCode.toNat < 10 ^ r.otpLen.toNat
  ∧ r.otpStr = otpString r.otpCode.toNat r.otpLen.toNat

/-! ### The spec's own formulations, written apart from the model's definitions -/

/-- R91, R95: whether bit `n` (8 to 31) of the command word is a field bit the operation allows: ALPH is bit 8, KEYFMT
bit 9, KS bits 13:12, DIGITS bits 19:16. -/
def fieldBitAllowed (o : Opcode) (n : Nat) : Bool :=
  match o with
  | .nop => false
  | .b32enc => n == 8
  | .b32dec => n == 8
  | .sha1 => false
  | .hmac => n == 8 || n == 9
  | .hotp => n == 8 || n == 9 || (decide (16 ≤ n) && decide (n ≤ 19))
  | .totp => n == 8 || n == 9 || (decide (16 ≤ n) && decide (n ≤ 19))
  | .aesEcbEnc => n == 12 || n == 13
  | .aesEcbDec => n == 12 || n == 13
  | .aesCbcEnc => n == 12 || n == 13
  | .aesCbcDec => n == 12 || n == 13

/-- R157: `p` is the length of the padding run of `t`: its last `p` characters are '=', and the one before them, if
there is one, is not. -/
def isPadRun (t : List Byte) (p : Nat) : Prop :=
  p ≤ t.length ∧ (∀ i, t.length - p ≤ i → i < t.length → t[i]? = some 0x3D)
  ∧ (p < t.length → t[t.length - p - 1]? ≠ some 0x3D)

/-- R153: S(r). -/
def symbolsOf (r : Nat) : Nat := if r = 0 then 0 else if r = 1 then 2 else if r = 2 then 4 else if r = 3 then 5 else 7

/-- R153: P(r). -/
def padsOf (r : Nat) : Nat := if r = 0 then 0 else if r = 1 then 6 else if r = 2 then 4 else if r = 3 then 3 else 1

/-- R198: the number a string of decimal digits spells, most significant digit first. -/
def decimalValue (s : List Byte) : Nat := s.foldl (fun acc c => 10 * acc + (c.toNat - 0x30)) 0

/-- R30, R47: the command latched in `L` cannot write RAM byte `x`: it lies outside the destination range that OP,
SRC_LEN and DST_ADDR name (a B32DEC writes at most five bits a source character), or it is a source byte of a command
that is no AES command in place. -/
def cannotWrite (L : Latch) (x : Nat) : Prop :=
  let op := (L.cmd.extractLsb' 0 8).toNat
  let n := L.srcLen.toNat
  let out :=
    if op = 0x01 then 8 * ((n + 4) / 5) else if op = 0x02 then 5 * n / 8 else if 0x20 ≤ op ∧ op ≤ 0x23 then n else 0
  x < L.dstAddr.toNat ∨ L.dstAddr.toNat + out ≤ x
  ∨ (L.srcAddr.toNat ≤ x ∧ x < L.srcAddr.toNat + n ∧ ¬ (0x20 ≤ op ∧ op ≤ 0x23 ∧ L.dstAddr = L.srcAddr))

/-- R47: host reads of RAM byte `x` give its current content: no command runs, or the one that runs cannot write it. -/
def readsCurrent (s : State) (x : Nat) : Prop := ∀ L, s.latched = some L → cannotWrite L x

/-- R271: the number of every error code, and 0x00 for success. -/
def statedErrCode : Option ErrCode → Byte
  | none => 0x00
  | some .badOpcode => 0x01
  | some .badField => 0x02
  | some .badDigits => 0x03
  | some .badLen => 0x04
  | some .range => 0x05
  | some .overlap => 0x06
  | some .b32Pad => 0x10
  | some .b32Char => 0x11
  | some .b32Rem => 0x12

/-- R152: DT[ALPH][c] for a character code `c`. -/
def statedSymbol : Alphabet → Nat → Nat
  | .std, c =>
    if 65 ≤ c ∧ c ≤ 90 then c - 65 else if 97 ≤ c ∧ c ≤ 122 then c - 97 else if 50 ≤ c ∧ c ≤ 55 then 26 + (c - 50)
    else 255
  | .hex, c => if 48 ≤ c ∧ c ≤ 57 then c - 48 else if 65 ≤ c ∧ c ≤ 86 then 10 + (c - 65) else 255

/-- R10: be_4 of a word. -/
def bigEndian4 (w : Word) : List Byte :=
  [w.extractLsb' 24 8, w.extractLsb' 16 8, w.extractLsb' 8 8, w.extractLsb' 0 8]

/-- R10: be_8 of a 64-bit value. -/
def bigEndian8 (v : DWord) : List Byte := bigEndian4 (v.extractLsb' 32 32) ++ bigEndian4 (v.extractLsb' 0 32)

/-- R183, R184: round `t` with schedule word `w`, from the working variables `x` to `y`. -/
def sha1StatedRound (t : Nat) (w : Word) (x y : HashState) : Prop :=
  let f :=
    if t ≤ 19 then (x.b &&& x.c) ^^^ (~~~x.b &&& x.d)
    else if t ≤ 39 then x.b ^^^ x.c ^^^ x.d
    else if t ≤ 59 then (x.b &&& x.c) ^^^ (x.b &&& x.d) ^^^ (x.c &&& x.d)
    else x.b ^^^ x.c ^^^ x.d
  let k : Word :=
    if t ≤ 19 then 0x5A827999 else if t ≤ 39 then 0x6ED9EBA1 else if t ≤ 59 then 0x8F1BBCDC else 0xCA62C1D6
  y.a = x.a.rotateLeft 5 + f + x.e + k + w ∧ y.b = x.a ∧ y.c = x.b.rotateLeft 30 ∧ y.d = x.c ∧ y.e = x.d

/-- R184: one block, whose big-endian words are the first sixteen of `W`, takes the hash value from `h` to `h'`. -/
def sha1StatedBlock (block : List Byte) (h h' : HashState) : Prop :=
  ∃ (W : Nat → Word) (x : Nat → HashState),
    (∀ j, j < 16 → bigEndian4 (W j) = (block.drop (4 * j)).take 4)
    ∧ (∀ t, 16 ≤ t → t < 80 → W t = (W (t - 3) ^^^ W (t - 8) ^^^ W (t - 14) ^^^ W (t - 16)).rotateLeft 1)
    ∧ x 0 = h ∧ (∀ t, t < 80 → sha1StatedRound t (W t) (x t) (x (t + 1)))
    ∧ h' = ⟨h.a + (x 80).a, h.b + (x 80).b, h.c + (x 80).c, h.d + (x 80).d, h.e + (x 80).e⟩

/-- R236: multiplication in GF(2^8) modulo x^8+x^4+x^3+x+1: the carry-less product, then its reduction. -/
def gfMul (a b : Byte) : Byte :=
  let p : BitVec 16 :=
    (List.range 8).foldl (fun acc i => if b.getLsbD i then acc ^^^ (a.setWidth 16 <<< i) else acc) 0
  let r : BitVec 16 :=
    (List.range 7).foldl (fun acc j => if acc.getLsbD (14 - j) then acc ^^^ ((0x11B : BitVec 16) <<< (6 - j)) else acc) p
  r.setWidth 8

/-- R233: the affine map of the S-box. -/
def sboxAffine (b : Byte) : Byte :=
  b ^^^ b.rotateLeft 1 ^^^ b.rotateLeft 2 ^^^ b.rotateLeft 3 ^^^ b.rotateLeft 4 ^^^ 0x63

/-- R94: the key length in words. -/
def statedNk : KeySize → Nat
  | .k128 => 4
  | .k192 => 6
  | .k256 => 8

/-- R94: the round count. -/
def statedNr : KeySize → Nat
  | .k128 => 10
  | .k192 => 12
  | .k256 => 14

/-- R237: `w i r` is byte `r` of word `i` of the key expansion of `key`. -/
def aesStatedSchedule (ks : KeySize) (key : List Byte) (w : Nat → Nat → Byte) : Prop :=
  let nk := statedNk ks
  let rcon : List Byte := [0x01, 0x02, 0x04, 0x08, 0x10, 0x20, 0x40, 0x80, 0x1b, 0x36]
  (∀ i r, i < nk → r < 4 → key[4 * i + r]? = some (w i r))
  ∧ ∀ i r, nk ≤ i → i < 4 * (statedNr ks + 1) → r < 4 →
      w i r = w (i - nk) r ^^^
        (if i % nk = 0 then sbox (w (i - 1) ((r + 1) % 4)) ^^^ (if r = 0 then rcon.getD (i / nk - 1) 0 else 0)
          else if ks = .k256 ∧ i % nk = 4 then sbox (w (i - 1) r)
          else w (i - 1) r)

/-- R232, R235, R236, R238: the forward cipher of `input` is `output` under the words `w`. `x j r c` is row `r`, column `c`
of the state after round `j`; SubBytes and ShiftRows together take row `r`, column `c` from column `(c + r) mod 4`; row
`r` of the matrix of MixColumns is 2, 3, 1, 1 from the diagonal on. -/
def aesStatedCipher (ks : KeySize) (w : Nat → Nat → Byte) (input output : List Byte) : Prop :=
  let nr := statedNr ks
  ∃ x : Nat → Nat → Nat → Byte,
    let y : Nat → Nat → Nat → Byte := fun j r c => sbox (x j r ((c + r) % 4))
    (∀ r c, r < 4 → c < 4 → ∃ b, input[r + 4 * c]? = some b ∧ x 0 r c = b ^^^ w c r)
    ∧ (∀ j r c, j + 1 < nr → r < 4 → c < 4 →
        x (j + 1) r c = gfMul (y j r c) 2 ^^^ gfMul (y j ((r + 1) % 4) c) 3 ^^^ y j ((r + 2) % 4) c
          ^^^ y j ((r + 3) % 4) c ^^^ w (4 * (j + 1) + c) r)
    ∧ ∀ r c, r < 4 → c < 4 → output[r + 4 * c]? = some (y (nr - 1) r c ^^^ w (4 * nr + c) r)

/-- R246: `C_(i-1)` of the ciphertext blocks `cs`, with `C_(-1) = iv`. -/
def cipherBefore (iv : List Byte) (cs : List (List Byte)) (i : Nat) : List Byte :=
  if i = 0 then iv else cs.getD (i - 1) []

/-- R246: `C_i = E_K(P_i XOR C_(i-1))` for every block `P_i` of `ps` and `C_i` of `cs`. -/
def cbcStatedEncrypt (ks : KeySize) (key iv : List Byte) (ps cs : List (List Byte)) : Prop :=
  cs.length = ps.length
  ∧ ∀ i p, ps[i]? = some p → cs[i]? = some (aesEncrypt ks key (List.zipWith (· ^^^ ·) p (cipherBefore iv cs i)))

/-- R246: `P_i = D_K(C_i) XOR C_(i-1)` for every block `C_i` of `cs` and `P_i` of `ps`. -/
def cbcStatedDecrypt (ks : KeySize) (key iv : List Byte) (cs ps : List (List Byte)) : Prop :=
  ps.length = cs.length
  ∧ ∀ i c, cs[i]? = some c → ps[i]? = some (List.zipWith (· ^^^ ·) (aesDecrypt ks key c) (cipherBefore iv cs i))

/-- R151: bit `i` of a byte string, each byte most significant bit first; 0 past its end (R154). -/
def bitOf (b : List Byte) (i : Nat) : Bool := (b.getD (i / 8) 0).getLsbD (7 - i % 8)

/-- R151: symbol value `k` of a byte string: its bits `5k` to `5k + 4`, most significant first. -/
def symbolValue (b : List Byte) (k : Nat) : Nat :=
  16 * (bitOf b (5 * k)).toNat + 8 * (bitOf b (5 * k + 1)).toNat + 4 * (bitOf b (5 * k + 2)).toNat
    + 2 * (bitOf b (5 * k + 3)).toNat + (bitOf b (5 * k + 4)).toNat

/-- R23, R47: the registers that a command in flight cannot change, each offset with what it holds. -/
def statedOperandRegisters (s : State) : List (Nat × Word) :=
  [(0x010, s.regs.cmd), (0x014, s.regs.srcAddr), (0x018, s.regs.srcLen), (0x01C, s.regs.dstAddr),
    (0x020, s.regs.keyAddr), (0x024, s.regs.keyLen), (0x030, s.regs.timeLo), (0x034, s.regs.timeHi),
    (0x038, s.regs.step)]

/-- R23: the registers of one word that a command may write. -/
def statedResultRegisters (s : State) : List (Nat × Word) :=
  [(0x028, s.results.resLen), (0x03C, s.regs.cntLo), (0x040, s.regs.cntHi), (0x044, s.results.otpCode),
    (0x048, s.results.otpLen)]

/-- R23, R25: the readable registers that hold a byte string: the first offset, the length, and the string. -/
def statedStringRegisters (s : State) : List (Nat × Nat × List Byte) :=
  [(0x04C, 12, s.results.otpStr.bytes), (0x060, 20, s.results.digest.bytes), (0x0A0, 16, s.regs.aesIv.bytes)]

/-- R69: the range operand `(addr, len)` lies in RAM and holds an unwritten byte. -/
def holdsUnwritten (m : Memory) (addr len : Word) : Prop :=
  addr.toNat + len.toNat ≤ Config.ramSize ∧ ∃ j, j < len.toNat ∧ m.byteAt (addr.toNat + j) = none

/-- R130, SRC column: the commands that read their source. -/
def readsSource : Instr → Prop
  | .nop => False
  | .b32enc _ => True
  | .b32dec _ => True
  | .sha1 => True
  | .hmac _ => True
  | .hotp _ _ => False
  | .totp _ _ => False
  | .aesEcbEnc _ => True
  | .aesEcbDec _ => True
  | .aesCbcEnc _ => True
  | .aesCbcDec _ => True

/-- R130, KEY column: the commands that read a key from RAM. -/
def readsKey : Instr → Prop
  | .nop => False
  | .b32enc _ => False
  | .b32dec _ => False
  | .sha1 => False
  | .hmac _ => True
  | .hotp _ _ => True
  | .totp _ _ => True
  | .aesEcbEnc _ => False
  | .aesEcbDec _ => False
  | .aesCbcEnc _ => False
  | .aesCbcDec _ => False

/-- R121, R242: in `s` a CBC command is latched whose source reads as `bs`, which passes the checks of R242, and whose
latched chaining value AES_IV still holds. -/
def cbcReady (s : State) (L : Latch) (bs : List Byte) : Prop :=
  s.latched = some L ∧ s.regs.aesIv = L.iv ∧ operandHolds s.ram L.srcAddr L.srcLen bs ∧ L.srcLen.toNat % 16 = 0
  ∧ L.dstAddr.toNat + L.srcLen.toNat ≤ Config.ramSize
  ∧ (L.dstAddr = L.srcAddr ∨ L.srcLen.toNat = 0 ∨ L.srcAddr.toNat + L.srcLen.toNat ≤ L.dstAddr.toNat
      ∨ L.dstAddr.toNat + L.srcLen.toNat ≤ L.srcAddr.toNat)

/-- R129: the ranges `[a, a+n)` and `[b, b+m)` share no byte (the negation of R129's overlap). -/
def disjointRanges (a n b m : Nat) : Prop := n = 0 ∨ m = 0 ∨ a + n ≤ b ∨ b + m ≤ a

/-- The machine's invariant. -/
structure Inv (s : State) : Prop where
  /-- RAM is in canonical form, inside RAM_SIZE. -/
  ram_wf : s.ram.wf
  /-- The host's variables are listed in rising order. -/
  vars_sorted : s.host.vars.Pairwise (fun a b => a.1 < b.1)
  /-- R121: while BUSY = 1, DONE = 0, ERR = 0 and ERRCODE = 0x00. -/
  busy_status : s.busy = true → s.status.done = false ∧ s.status.err = false ∧ s.status.errCode = none
  /-- R121, R126, R306: while BUSY = 1 the registers still hold what was latched. -/
  latched_regs : ∀ L, s.latched = some L → L = s.regs.latch
  /-- R272: ERR = 1 only beside a nonzero ERRCODE. -/
  err_code : s.status.err = true → s.status.errCode.isSome = true
  /-- R37, R38. -/
  otp : s.results.otpConsistent
  /-- R300: while `rst` is asserted every piece of state has its power-on value. -/
  in_reset : s.rst = true → s.regs = Regs.reset ∧ s.status = Status.reset ∧ s.results = Results.reset
    ∧ s.ram = [] ∧ s.latched = none

end Sys2Proof.Machine
end

