-- ==== Sys2Proof/Certificates/Slice0/Obligations.lean ====
section
/-! DEFINITION. The statements for the provers. Each docstring says which rules of spec/ it formalises. -/

open Sys2Proof Sys2Proof.Machine

/-! ### Encoding -/

/-- R91, R95, R96: every well-formed command decodes from its own word. -/
def Obligations.DecodeEncodeRoundTrip : Prop :=
  ∀ i : Instr, i.wf = true → decode (encode i) = .ok i

/-- R96, R99: a word that decodes is the word of the command it decodes to, so distinct legal words are distinct
commands. -/
def Obligations.EncodeDecodeRoundTrip : Prop :=
  ∀ (c : Word) (i : Instr), decode c = .ok i → i.wf = true ∧ encode i = c

/-- R96, R97(a) to (e): which words are refused, with which code, and that every other word decodes. -/
def Obligations.DecodeRefusesExactlyIllegalWords : Prop :=
  ∀ c : Word,
    ((∀ o : Opcode, o.code ≠ c.extractLsb' 0 8) → decode c = .error .badOpcode)
    ∧ ∀ o : Opcode, o.code = c.extractLsb' 0 8 →
        let badField :=
          (∃ n, 8 ≤ n ∧ n < 32 ∧ c.getLsbD n = true ∧ fieldBitAllowed o n = false)
          ∨ ((o = .hmac ∨ o = .hotp ∨ o = .totp) ∧ c.getLsbD 9 = false ∧ c.getLsbD 8 = true)
          ∨ ((o = .aesEcbEnc ∨ o = .aesEcbDec ∨ o = .aesCbcEnc ∨ o = .aesCbcDec) ∧ c.extractLsb' 12 2 = 3)
        let badDigits := (o = .hotp ∨ o = .totp) ∧ 11 ≤ (c.extractLsb' 16 4).toNat
        (badField → decode c = .error .badField)
        ∧ (¬ badField → badDigits → decode c = .error .badDigits)
        ∧ (¬ badField → ¬ badDigits → ∃ i, decode c = .ok i ∧ i.opcode = o)

/-- R100: the assembler emits a spelling's word, and the disassembler prints a word's canonical spelling. -/
def Obligations.AssemblerRoundTrip : Prop :=
  ∀ i : Instr, i.wf = true → assemble i.spelling = some (encode i) ∧ disassemble (encode i) = some i.spelling

/-- R95, R100: sample words of every family, written out from the spec's encoding table. -/
def Obligations.SampleWordsDecode : Prop :=
  decode 0b00000000000000000000000000000000 = .ok .nop
  ∧ decode 0b00000000000000000000000100000001 = .ok (.b32enc .hex)
  ∧ decode 0b00000000000000000000000000000010 = .ok (.b32dec .std)
  ∧ decode 0b00000000000000000000000000010000 = .ok .sha1
  ∧ decode 0b00000000000000000000001000010001 = .ok (.hmac (.b32 .std))
  ∧ decode 0b00000000000010000000001000010011 = .ok (.totp (.b32 .std) 8)
  ∧ decode 0b00000000000000000010000000100011 = .ok (.aesCbcDec .k256)

/-! ### Steps and the command lifecycle -/

/-- R123, R124, R312: with a command latched and no host step left before it, a step is `exec` of the decoded command;
otherwise it is the host's. How many host steps come before it is the model's schedule (DESIGN CHOICE, log 2). -/
def Obligations.StepRunsDecodedCommand : Prop :=
  (∀ (s : State) (L : Latch) (i : Instr), s.latched = some L → s.engineDelay = 0 → decode L.cmd = .ok i →
    step s = exec i s)
  ∧ ∀ s : State, (s.latched = none ∨ s.engineDelay ≠ 0) → step s = hostStep s.countHostStep

/-- R272: the error completion, of a word that does not decode and of a command that raises an error. -/
def Obligations.ErrorCompletionWritesOnlyErrorState : Prop :=
  ∀ (s : State) (L : Latch), s.latched = some L →
    (∀ c, s.engineDelay = 0 → decode L.cmd = .error c →
      ∃ t, step s = .next t ∧ completedErr s t (decide (L.cmd.extractLsb' 0 8 = 0x12 ∨ L.cmd.extractLsb' 0 8 = 0x13)) c)
    ∧ ∀ i t, exec i s = .next t → t.status.err = true →
        ∃ c, completedErr s t (decide (i.opcode = .hotp ∨ i.opcode = .totp)) c

/-- R120, R123, R276, R280: every engine step completes the command: BUSY falls, DONE is set, `irq` rises exactly when
CTRL.IE = 1, and the environment is untouched. -/
def Obligations.EngineStepCompletesCommand : Prop :=
  ∀ s t : State, s.engineTurn = true → step s = .next t →
    t.busy = false ∧ t.status.done = true ∧ t.irq = s.regs.ie ∧ t.status.wbusy = s.status.wbusy
    ∧ environmentSame s t

/-- R121: the accepted START. -/
def Obligations.AcceptedStartLatchesOperands : Prop :=
  ∀ (s : State) (v : Word), s.rst = false → s.latched = none → v.getLsbD 0 = true → v.getLsbD 1 = false →
    ∃ t, s.busWrite .w32 0x008 v = .ok t
      ∧ t.regs = { s.regs with ie := v.getLsbD 2 }
      ∧ t.latched = some
          { cmd := s.regs.cmd, srcAddr := s.regs.srcAddr, srcLen := s.regs.srcLen, dstAddr := s.regs.dstAddr,
            keyAddr := s.regs.keyAddr, keyLen := s.regs.keyLen, time := s.regs.timeHi ++ s.regs.timeLo,
            step := s.regs.step, cnt := s.regs.cntHi ++ s.regs.cntLo, aesKey := s.regs.aesKey, iv := s.regs.aesIv }
      ∧ t.status = ⟨false, false, s.status.step0, s.status.wbusy, none⟩
      ∧ t.results = s.results ∧ t.ram = s.ram

/-- R122: an ignored START, and a write with bit 1 = 1 being a soft reset whatever bit 0 holds. -/
def Obligations.StartWhileBusyIsIgnored : Prop :=
  ∀ (s : State) (v : Word), s.rst = false → s.latched ≠ none →
    (v.getLsbD 0 = true → v.getLsbD 1 = false →
      s.busWrite .w32 0x008 v =
        .ok { s with regs := { s.regs with ie := v.getLsbD 2 }, status := { s.status with wbusy := true } })
    ∧ (v.getLsbD 1 = true →
      ∃ t, s.busWrite .w32 0x008 v = .ok t ∧ t.latched = none ∧ t.regs = Regs.reset ∧ t.status = Status.reset
        ∧ t.results = Results.reset)

/-- R126(b), (c), R306: while BUSY = 1 a write anywhere but CTRL and STATUS is dropped and sets WBUSY, and a write to
STATUS clears its W1C bits. -/
def Obligations.WritesWhileBusyAreDropped : Prop :=
  ∀ (s : State) (w : Width) (off : Nat) (v : Word), s.rst = false → s.latched ≠ none → w.legalAt off = true →
    (off ≠ 0x008 → off ≠ 0x00C →
      s.busWrite w off v = .ok { s with status := { s.status with wbusy := true } })
    ∧ (off = 0x00C →
      s.busWrite w off v = .ok { s with status :=
        ⟨s.status.done && !v.getLsbD 1, s.status.err && !v.getLsbD 2, s.status.step0 && !v.getLsbD 3,
          s.status.wbusy && !v.getLsbD 4, s.status.errCode⟩ })

/-- R120, R126, R72(b), R312: a host step taken before the engine step leaves the latched command, RAM, the results and
every register but CTRL.IE alone and uses up one of the host steps before it (the model's schedule, DESIGN CHOICE,
log 2), unless it resets the block. -/
def Obligations.RunningCommandIsProtected : Prop :=
  ∀ s t : State, s.latched ≠ none → s.engineTurn = false → step s = .next t →
    (t.latched = s.latched ∧ t.ram = s.ram ∧ t.results = s.results ∧ { t.regs with ie := s.regs.ie } = s.regs
      ∧ t.engineDelay + 1 = s.engineDelay)
    ∨ (t.latched = none ∧ t.regs = Regs.reset ∧ t.status = Status.reset ∧ t.results = Results.reset)

/-- R120: only an accepted START makes the block busy; only the engine step or a reset makes it idle. -/
def Obligations.OnlyStartMakesBusyOnlyEngineOrResetMakesIdle : Prop :=
  ∀ s t : State, step s = .next t →
    (s.busy = false → t.busy = true →
      ∃ e, s.host.current = some (.write .w32 0x008 e)
        ∧ (BitVec.ofInt 32 (evalExpr s.host.vars e)).getLsbD 0 = true
        ∧ (BitVec.ofInt 32 (evalExpr s.host.vars e)).getLsbD 1 = false ∧ s.rst = false)
    ∧ (s.busy = true → t.busy = false →
      s.engineTurn = true
      ∨ (∃ e, s.host.current = some (.write .w32 0x008 e)
          ∧ (BitVec.ofInt 32 (evalExpr s.host.vars e)).getLsbD 1 = true)
      ∨ s.host.current = some (.pin true))

/-- R312(b), (c): a latched command is finished, or aborted by a reset, after finitely many steps: at most one more
than the host steps left before the engine step (that number is the model's schedule, DESIGN CHOICE, log 2). -/
def Obligations.LatchedCommandFinishes : Prop :=
  ∀ s u : State, s.busy = true → Host.Core.run Sys2Proof.core (s.engineDelay + 1) s = .next u →
    ∃ k, k ≤ s.engineDelay + 1 ∧ ∃ t : State, Host.Core.run Sys2Proof.core k s = .next t ∧ t.busy = false

/-- R123, R127, R131, R134: every write of a command, on success and on error, depends only on `L` and RAM, not on any
register, flag or result: RAM, STATUS, RES_LEN, and the DIGEST, OTP registers, CNT and AES_IV of the commands that write
them. What stands beside `L` and RAM are the model's arguments for unwritten bytes: the policy (DESIGN CHOICE, log 3) and
the count of free values (DESIGN CHOICE, log 1). -/
def Obligations.OutcomeDependsOnlyOnLatchAndRam : Prop :=
  ∀ (i : Instr) (s s' t : State) (L : Latch), s.latched = some L → s'.latched = s.latched → s'.ram = s.ram →
    s'.policy = s.policy → s'.draws = s.draws → exec i s = .next t →
    ∃ t', exec i s' = .next t' ∧ t'.ram = t.ram ∧ t'.status.err = t.status.err ∧ t'.status.errCode = t.status.errCode
      ∧ t'.status.done = t.status.done ∧ t'.busy = t.busy ∧ t'.results.resLen = t.results.resLen
      ∧ (∃ b, t.status.step0 = (s.status.step0 || b) ∧ t'.status.step0 = (s'.status.step0 || b))
      ∧ (((∃ k d, i = .hotp k d) ∨ ∃ k d, i = .totp k d) →
          t'.results.otpCode = t.results.otpCode ∧ t'.results.otpLen = t.results.otpLen
          ∧ t'.results.otpStr = t.results.otpStr)
      ∧ (t.status.err = false →
          ((i = .sha1 ∨ (∃ k, i = .hmac k) ∨ (∃ k d, i = .hotp k d) ∨ ∃ k d, i = .totp k d) →
            t'.results.digest = t.results.digest)
          ∧ ((∃ k d, i = .totp k d) → t'.regs.cntLo = t.regs.cntLo ∧ t'.regs.cntHi = t.regs.cntHi)
          ∧ ((∃ ks, i = .aesCbcEnc ks ∨ i = .aesCbcDec ks) → L.srcLen ≠ 0 → t'.regs.aesIv = t.regs.aesIv))

/-- R69, R270(c): when a command faults, exactly. It faults only in a state with no latched command (the model's reading
of R120, DEDUCED, log 13), or, under UNWRITTEN_POLICY = fault (the model's argument, log 3), on an unwritten byte of a
source or key range that it reads and that lies in RAM; it is never refused; under the policy `draw`, and where no such
byte is unwritten, it completes. Where it passes the checks before that read it does fault, naming the first offset of the
range (DEDUCED, log 17). -/
def Obligations.CommandsStopOnlyOnUnwrittenBytes : Prop :=
  (∀ (i : Instr) (s : State),
    (∀ f, exec i s = .fault f →
      (s.latched = none ∧ f = .noCommandLatched)
      ∨ ∃ L, s.latched = some L ∧ s.policy = .fault
        ∧ ((f = .unwrittenEngineRead L.srcAddr.toNat ∧ readsSource i ∧ holdsUnwritten s.ram L.srcAddr L.srcLen)
          ∨ (f = .unwrittenEngineRead L.keyAddr.toNat ∧ readsKey i ∧ holdsUnwritten s.ram L.keyAddr L.keyLen)))
    ∧ (∀ r, exec i s ≠ .refused r)
    ∧ ∀ L, s.latched = some L →
        (s.policy = .draw ∨ ((readsSource i → ¬ holdsUnwritten s.ram L.srcAddr L.srcLen)
          ∧ (readsKey i → ¬ holdsUnwritten s.ram L.keyAddr L.keyLen))) →
        ∃ t, exec i s = .next t)
  ∧ ∀ (s : State) (L : Latch), s.latched = some L → s.policy = .fault →
      (holdsUnwritten s.ram L.srcAddr L.srcLen →
        exec .sha1 s = .fault (.unwrittenEngineRead L.srcAddr.toNat)
        ∧ (∀ a, exec (.b32dec a) s = .fault (.unwrittenEngineRead L.srcAddr.toNat))
        ∧ (∀ a, L.dstAddr.toNat + 8 * ((L.srcLen.toNat + 4) / 5) ≤ Config.ramSize →
          disjointRanges L.srcAddr.toNat L.srcLen.toNat L.dstAddr.toNat (8 * ((L.srcLen.toNat + 4) / 5)) →
          exec (.b32enc a) s = .fault (.unwrittenEngineRead L.srcAddr.toNat))
        ∧ (∀ i ks, i = .aesEcbEnc ks ∨ i = .aesEcbDec ks ∨ i = .aesCbcEnc ks ∨ i = .aesCbcDec ks →
          L.srcLen.toNat % 16 = 0 → L.dstAddr.toNat + L.srcLen.toNat ≤ Config.ramSize →
          (L.dstAddr = L.srcAddr ∨ disjointRanges L.srcAddr.toNat L.srcLen.toNat L.dstAddr.toNat L.srcLen.toNat) →
          exec i s = .fault (.unwrittenEngineRead L.srcAddr.toNat))
        ∧ ∀ key k, keyOperandIs s.ram L key k →
          exec (.hmac key) s = .fault (.unwrittenEngineRead L.srcAddr.toNat))
      ∧ (holdsUnwritten s.ram L.keyAddr L.keyLen → ∀ (key : KeyForm) (d : BitVec 4),
        (L.srcAddr.toNat + L.srcLen.toNat ≤ Config.ramSize →
          exec (.hmac key) s = .fault (.unwrittenEngineRead L.keyAddr.toNat))
        ∧ (d.toNat ≤ 10 → exec (.hotp key d) s = .fault (.unwrittenEngineRead L.keyAddr.toNat)
          ∧ exec (.totp key d) s = .fault (.unwrittenEngineRead L.keyAddr.toNat)))

/-! ### The invariant -/

/-- The invariant `Inv` (R36 to R38, R44, R121, R126, R272, R300; the canonical forms of RAM and of the host's variables
are the model's own) is kept by every step from every state. -/
def Obligations.StepKeepsInvariant : Prop :=
  ∀ s t : State, Inv s → step s = .next t → Inv t

/-- The invariant holds right after power-on reset. -/
def Obligations.ResetSatisfiesInvariant : Prop := Inv State.reset

/-! ### The bus -/

/-- R62, R64: exactly the accesses R62 calls bus errors fault, with no effect; the legal writes never fault. That an
illegal access faults while `rst` is asserted too is the model's choice (DESIGN CHOICE, log 6). -/
def Obligations.IllegalAccessesFault : Prop :=
  ∀ (s : State) (w : Width) (off : Nat) (v : Word), off < 0x2000 →
    let illegal :=
      (off < 0x1000 ∧ (w ≠ .w32 ∨ off % 4 ≠ 0))
      ∨ (0x1000 ≤ off ∧ ((w = .w16 ∧ off % 2 ≠ 0) ∨ (w = .w32 ∧ off % 4 ≠ 0)))
    (illegal → s.busRead w off = .error (.busError w off) ∧ s.busWrite w off v = .error (.busError w off))
    ∧ (¬ illegal → ∃ t, s.busWrite w off v = .ok t)

/-- R63, R69, R47: a legal RAM access to the block. A write to an idle block stores the little-endian lanes of the value
and nothing else. A read, idle or busy, answers where every byte is written or the policy is `draw`; each lane of a byte
that the command in flight cannot write is the byte's current content; an unwritten one faults under the policy `fault`
and is a free value under `draw`; and the bytes that a B32ENC or AES command in flight may write are free values (the form
of a free value is DESIGN CHOICE, log 1; the policy is log 3; the extent of the destination range is DESIGN CHOICE, log 4). -/
def Obligations.RamAccessesAreLittleEndian : Prop :=
  ∀ (s : State) (w : Width) (a : Nat) (v : Word), s.rst = false → w.legalAt (0x1000 + a) = true →
    (s.latched = none → ∃ t, s.busWrite w (0x1000 + a) v = .ok t
      ∧ (∀ j, j < w.bytes → t.ram.byteAt (a + j) = some (v.extractLsb' (8 * j) 8))
      ∧ ramSameOutside s t a w.bytes
      ∧ t.regs = s.regs ∧ t.status = s.status ∧ t.results = s.results ∧ t.latched = none)
    ∧ ((s.policy = .draw ∨ ∀ j, j < w.bytes → (s.ram.byteAt (a + j)).isSome = true) →
        ∃ x, s.busRead w (0x1000 + a) = .ok x ∧ x.toNat < 2 ^ (8 * w.bytes))
    ∧ ∀ j, j < w.bytes →
        (∀ b x, readsCurrent s (a + j) → s.ram.byteAt (a + j) = some b → s.busRead w (0x1000 + a) = .ok x →
          x.extractLsb' (8 * j) 8 = b)
        ∧ (readsCurrent s (a + j) → s.ram.byteAt (a + j) = none → s.policy = .fault →
          ∃ k, k ≤ j ∧ s.ram.byteAt (a + k) = none ∧ s.busRead w (0x1000 + a) = .error (.unwrittenHostRead (a + k)))
        ∧ (∀ x, readsCurrent s (a + j) → s.ram.byteAt (a + j) = none → s.busRead w (0x1000 + a) = .ok x →
          x.extractLsb' (8 * j) 8 = Config.freeByte (s.draws + j))
        ∧ ∀ L x, s.latched = some L → s.busRead w (0x1000 + a) = .ok x → L.dstAddr.toNat ≤ a + j →
          (a + j < L.srcAddr.toNat ∨ L.srcAddr.toNat + L.srcLen.toNat ≤ a + j) →
          ((L.cmd.extractLsb' 0 8 = 0x01 ∧ a + j < L.dstAddr.toNat + 8 * ((L.srcLen.toNat + 4) / 5))
            ∨ ((L.cmd.extractLsb' 0 8 = 0x20 ∨ L.cmd.extractLsb' 0 8 = 0x21 ∨ L.cmd.extractLsb' 0 8 = 0x22
                ∨ L.cmd.extractLsb' 0 8 = 0x23) ∧ a + j < L.dstAddr.toNat + L.srcLen.toNat)) →
          x.extractLsb' (8 * j) 8 = Config.freeByte (s.draws + j)

/-- R23 to R25, R47, R67: what a host reads at the offset of each register: an operand register's value, idle or busy; while
no command runs the value of a result register, and byte `k` of a string register in lane `k mod 4` of its word `k div 4`
(R25). A write to an idle block's register: an RW register reads back every bit last written, and the write changes no other
RW register, no flag, no result and no RAM byte; a write to an RO register is ignored; a write to a WO register stores every
bit in its word, little-endian in the key store (R25, R40), reads back 0, and changes nothing else. -/
def Obligations.RegistersFollowMapAndAccessType : Prop :=
  let rw : List Nat :=
    [0x010, 0x014, 0x018, 0x01C, 0x020, 0x024, 0x030, 0x034, 0x038, 0x03C, 0x040, 0x0A0, 0x0A4, 0x0A8, 0x0AC]
  let ro : List Nat :=
    [0x000, 0x004, 0x028, 0x044, 0x048, 0x04C, 0x050, 0x054, 0x060, 0x064, 0x068, 0x06C, 0x070]
  (∀ s : State, s.rst = false →
    (∀ r ∈ statedOperandRegisters s, s.busRead .w32 r.1 = .ok r.2)
    ∧ (s.latched = none →
      (∀ r ∈ statedResultRegisters s, s.busRead .w32 r.1 = .ok r.2)
      ∧ ∀ r ∈ statedStringRegisters s, ∀ k, k < r.2.1 →
          ∃ x, s.busRead .w32 (r.1 + 4 * (k / 4)) = .ok x ∧ r.2.2[k]? = some (x.extractLsb' (8 * (k % 4)) 8)))
  ∧ ∀ (s : State) (v : Word) (off : Nat), s.rst = false → s.latched = none →
    (off ∈ rw → ∃ t, s.busWrite .w32 off v = .ok t ∧ t.busRead .w32 off = .ok v
      ∧ (∀ o ∈ rw, o ≠ off → t.busRead .w32 o = s.busRead .w32 o)
      ∧ t.regs.aesKey = s.regs.aesKey ∧ t.regs.ie = s.regs.ie
      ∧ t.status = s.status ∧ t.results = s.results ∧ t.ram = s.ram ∧ t.latched = none ∧ environmentSame s t)
    ∧ (off ∈ ro → s.busWrite .w32 off v = .ok s)
    ∧ ∀ i, i < 8 → off = 0x080 + 4 * i → ∃ t, s.busWrite .w32 off v = .ok t ∧ t.busRead .w32 off = .ok 0
        ∧ (∀ j, j < 32 → t.regs.aesKey.bytes[j]?
            = if j / 4 = i then some (v.extractLsb' (8 * (j % 4)) 8) else s.regs.aesKey.bytes[j]?)
        ∧ t = { s with regs := { s.regs with aesKey := t.regs.aesKey } }

/-- R24, R28, R47, R271: a write to STATUS clears the W1C bits written 1 and changes nothing else, in every state the bus
serves. The STATUS word a host reads, bit by bit: BUSY, DONE, ERR, STEP0 and WBUSY are exact whether or not a command
runs; ERRCODE holds its number while none runs (while one runs it is any value). -/
def Obligations.StatusLayoutAndWriteOneToClear : Prop :=
  ∀ s : State, s.rst = false →
    (∀ v : Word, s.busWrite .w32 0x00C v = .ok { s with status :=
      ⟨s.status.done && !v.getLsbD 1, s.status.err && !v.getLsbD 2, s.status.step0 && !v.getLsbD 3,
        s.status.wbusy && !v.getLsbD 4, s.status.errCode⟩ })
    ∧ ∃ x, s.busRead .w32 0x00C = .ok x
      ∧ x.getLsbD 0 = s.latched.isSome ∧ x.getLsbD 1 = s.status.done ∧ x.getLsbD 2 = s.status.err
      ∧ x.getLsbD 3 = s.status.step0 ∧ x.getLsbD 4 = s.status.wbusy
      ∧ x.extractLsb' 5 3 = 0 ∧ (s.latched = none → x.extractLsb' 8 8 = statedErrCode s.status.errCode)
      ∧ x.extractLsb' 16 16 = 0

/-- R42, R126(c): reserved offsets, and the reserved bits of CTRL and STATUS, read as zero and ignore writes (a write to a
reserved offset while BUSY = 1 is recorded in WBUSY). -/
def Obligations.ReservedSpaceReadsZeroIgnoresWrites : Prop :=
  ∀ (s : State) (v : Word), s.rst = false →
    (∀ off, off % 4 = 0 →
      (off = 0x02C ∨ off = 0x058 ∨ off = 0x05C ∨ (0x074 ≤ off ∧ off ≤ 0x07C) ∨ (0x0B0 ≤ off ∧ off ≤ 0xFFF)) →
      s.busRead .w32 off = .ok 0 ∧ (s.latched = none → s.busWrite .w32 off v = .ok s)
        ∧ (s.latched ≠ none → s.busWrite .w32 off v = .ok { s with status := { s.status with wbusy := true } }))
    ∧ (∃ x, s.busRead .w32 0x008 = .ok x ∧ x &&& 0xFFFFFFF8 = 0)
    ∧ (∃ x, s.busRead .w32 0x00C = .ok x ∧ x &&& 0xFFFF00E0 = 0)
    ∧ s.busWrite .w32 0x008 v = s.busWrite .w32 0x008 (v &&& 0x7)
    ∧ s.busWrite .w32 0x00C v = s.busWrite .w32 0x00C (v &&& 0x1E)

/-- R26: ID and VERSION read the same in every state. -/
def Obligations.IdentityRegistersAreConstant : Prop :=
  ∀ s : State, s.rst = false →
    s.busRead .w32 0x000 = .ok 0x544F5450 ∧ s.busRead .w32 0x004 = .ok 0x00010000

/-- R40, R282: no host read and not `irq` tells two keys apart, in the key store and in the latch of a running command,
whatever the state. -/
def Obligations.AesKeyIsUnreadable : Prop :=
  ∀ (s : State) (k l : Words8) (w : Width) (off : Nat),
    let s' : State := { s with
      regs := { s.regs with aesKey := k }, latched := s.latched.map (fun L => { L with aesKey := l }) }
    s'.busRead w off = s.busRead w off ∧ s'.irq = s.irq

/-- R47, R307: while BUSY = 1, host reads of the register space carry nothing of the result registers, CNT, AES_IV or
ERRCODE: they are any value. That the value read does not depend on the registers is the model's free value (DESIGN
CHOICE, log 1). -/
def Obligations.BusyReadsCarryNoResult : Prop :=
  ∀ (s : State) (r : Results) (lo hi : Word) (iv : Words4) (c : Option ErrCode) (w : Width) (off : Nat),
    s.latched ≠ none →
    ({ s with
        results := r
        regs := { s.regs with cntLo := lo, cntHi := hi, aesIv := iv }
        status := { s.status with errCode := c } } : State).busRead w off = s.busRead w off

/-- R60: BASE is 8 KiB aligned, and the window's physical addresses are exactly BASE + offset. -/
def Obligations.WindowAddresses : Prop :=
  Config.base % 8192 = 0
  ∧ ∀ addr off : Nat, offsetOfAddress addr = some off ↔ off < 0x2000 ∧ addr = Config.base + off

/-! ### Resets and the interrupt -/

/-- R48, R300: what the host reads of every register right after power-on reset; no command, no `irq`, every RAM byte
unwritten. -/
def Obligations.PowerOnResetValues : Prop :=
  (∀ r : Reg, State.reset.busRead .w32 r.offset =
    .ok (match r with | .id => 0x544F5450 | .version => 0x00010000 | .step => 30 | _ => 0))
  ∧ State.reset.regs.aesKey = ⟨0, 0, 0, 0, 0, 0, 0, 0⟩
  ∧ State.reset.latched = none ∧ State.reset.irq = false ∧ ∀ a, State.reset.ram.byteAt a = none

/-- R300: a step in which the platform asserts `rst` (the statement `pin` is the model's own, DESIGN CHOICE, log 9) gives
every piece of the block's state its power-on value, idle or while a command waits for its engine step; a step that
releases it changes nothing else. While it is asserted legal accesses have no effect and reads return 0 (that an illegal
access still faults is the model's choice, log 6). -/
def Obligations.ResetInputResetsAndBlocksAccesses : Prop :=
  (∀ s : State, (s.latched = none ∨ s.engineDelay ≠ 0) →
    (s.host.current = some (.pin true) → ∃ t, step s = .next t
      ∧ t.rst = true ∧ t.regs = State.reset.regs ∧ t.status = State.reset.status ∧ t.results = State.reset.results
      ∧ t.latched = none ∧ t.irq = false ∧ (∀ a, t.ram.byteAt a = none)
      ∧ t.host = { s.host with index := s.host.index + 1 } ∧ t.policy = s.policy ∧ t.schedule = s.schedule)
    ∧ (s.host.current = some (.pin false) → step s = .next { s with
        rst := false
        engineDelay := if s.latched = none then s.engineDelay else s.engineDelay - 1
        host := { s.host with index := s.host.index + 1 } }))
  ∧ ∀ (s : State) (w : Width) (off : Nat) (v : Word), s.rst = true → w.legalAt off = true →
      s.busWrite w off v = .ok s ∧ s.busRead w off = .ok 0

/-- R302, R317: a soft reset resets every register, drops `irq` and the latched command, keeps RAM when idle, and when
busy changes RAM at most in the destination span (the model's reading of R302, log 4), whose bytes are written
afterwards. -/
def Obligations.SoftResetClearsRegistersKeepsRam : Prop :=
  ∀ (s : State) (v : Word), s.rst = false → v.getLsbD 1 = true →
    ∃ t, s.busWrite .w32 0x008 v = .ok t
      ∧ t.regs = State.reset.regs ∧ t.status = State.reset.status ∧ t.results = State.reset.results
      ∧ t.latched = none ∧ t.irq = false
      ∧ (s.latched = none → t.ram = s.ram)
      ∧ ∀ L, s.latched = some L →
          ramSameOutside s t L.dstAddr.toNat (destSpan s.ram L)
          ∧ ∀ x, L.dstAddr.toNat ≤ x → x < L.dstAddr.toNat + destSpan s.ram L → (t.ram.byteAt x).isSome = true

/-- R302: the destination span of an aborted command whose output fits in RAM: exactly the output range for B32ENC and
the AES commands and for a B32DEC that decodes; empty for the commands that write no RAM. That OP alone decides, so that
a B32ENC or AES command that would fail (field bits, source range, length, overlap) has a span too, is the model's choice
(DESIGN CHOICE, log 4). -/
def Obligations.AbortedDestinationSpan : Prop :=
  ∀ (m : Memory) (L : Latch),
    (L.cmd.extractLsb' 0 8 = 0x01 → L.dstAddr.toNat + 8 * ((L.srcLen.toNat + 4) / 5) ≤ Config.ramSize →
      destSpan m L = 8 * ((L.srcLen.toNat + 4) / 5))
    ∧ (∀ text out, L.cmd.extractLsb' 0 8 = 0x02 → operandHolds m L.srcAddr L.srcLen text →
        b32decode (if L.cmd.getLsbD 8 then .hex else .std) text = .ok out →
        L.dstAddr.toNat + out.length ≤ Config.ramSize → destSpan m L = out.length)
    ∧ (∀ text c, L.cmd.extractLsb' 0 8 = 0x02 → operandHolds m L.srcAddr L.srcLen text →
        b32decode (if L.cmd.getLsbD 8 then .hex else .std) text = .error c → destSpan m L = 0)
    ∧ ((L.cmd.extractLsb' 0 8 = 0x20 ∨ L.cmd.extractLsb' 0 8 = 0x21 ∨ L.cmd.extractLsb' 0 8 = 0x22
          ∨ L.cmd.extractLsb' 0 8 = 0x23) →
        L.dstAddr.toNat + L.srcLen.toNat ≤ Config.ramSize → destSpan m L = L.srcLen.toNat)
    ∧ ((L.cmd.extractLsb' 0 8 = 0x00 ∨ L.cmd.extractLsb' 0 8 = 0x10 ∨ L.cmd.extractLsb' 0 8 = 0x11
          ∨ L.cmd.extractLsb' 0 8 = 0x12 ∨ L.cmd.extractLsb' 0 8 = 0x13) → destSpan m L = 0)

/-- R27, R126(a), R276, R280: `irq` is CTRL.IE and DONE together. CTRL reads IE in bit 2 and 0 elsewhere; a write with
bits 1:0 = 0 sets IE to bit 2 and changes nothing else, idle or busy. The two ways out of a completion: the host's
`w32 STATUS, 0x02` drops `irq` and clears DONE and nothing else; the next accepted START drops it too. -/
def Obligations.CompletionIsAcknowledged : Prop :=
  ∀ s : State, s.rst = false →
    (s.irq = true ↔ s.regs.ie = true ∧ s.status.done = true)
    ∧ s.busRead .w32 0x008 = .ok (if s.regs.ie then 4 else 0)
    ∧ (∀ v : Word, v.getLsbD 0 = false → v.getLsbD 1 = false →
        s.busWrite .w32 0x008 v = .ok { s with regs := { s.regs with ie := v.getLsbD 2 } })
    ∧ (∃ t, s.busWrite .w32 0x00C 0x02 = .ok t ∧ t.irq = false ∧ t.status = { s.status with done := false }
        ∧ t.regs = s.regs ∧ t.results = s.results ∧ t.ram = s.ram ∧ t.latched = s.latched)
    ∧ ∀ v : Word, s.latched = none → v.getLsbD 0 = true → v.getLsbD 1 = false →
        ∃ t, s.busWrite .w32 0x008 v = .ok t ∧ t.irq = false

/-! ### Base32 -/

/-- R153: the symbols and pads of an encoding; R150, R151, R154: symbol `k` is the upper-case character of its alphabet
whose value is bits `5k` to `5k + 4` of the input, most significant first, zero-filled. -/
def Obligations.EncodingHasStatedSymbolsAndPads : Prop :=
  ∀ (a : Alphabet) (b : List Byte),
    (∃ syms : List Byte, b32encode a b = syms ++ List.replicate (padsOf (b.length % 5)) 0x3D
      ∧ syms.length = 8 * (b.length / 5) + symbolsOf (b.length % 5)
      ∧ ∀ k c, syms[k]? = some c → statedSymbol a c.toNat = symbolValue b k
        ∧ (a = .std → (0x41 ≤ c.toNat ∧ c.toNat ≤ 0x5A) ∨ (0x32 ≤ c.toNat ∧ c.toNat ≤ 0x37))
        ∧ (a = .hex → (0x30 ≤ c.toNat ∧ c.toNat ≤ 0x39) ∨ (0x41 ≤ c.toNat ∧ c.toNat ≤ 0x56)))
    ∧ (b32encode a b).length = 8 * ((b.length + 4) / 5)

/-- R152, R163: the decode tables, for every character. R158: the three checks of a decode, in their order; a text that
passes them decodes. R151, R159: bit `i` of the output, most significant first, is bit `i mod 5` of the value of
character `i div 5`, most significant first. -/
def Obligations.DecodeChecksInOrder : Prop :=
  (∀ (a : Alphabet) (c : Byte), (decodeChar a c).toNat = statedSymbol a c.toNat)
  ∧ ∀ (a : Alphabet) (t : List Byte) (p : Nat), isPadRun t p →
    let padOk := p = 0 ∨ p = 1 ∨ p = 3 ∨ p = 4 ∨ p = 6
    let charsOk := ∀ i c, i < t.length - p → t[i]? = some c → (decodeChar a c).toNat ≤ 31
    let q := t.length - p
    let remOk := q % 8 = 0 ∨ q % 8 = 2 ∨ q % 8 = 4 ∨ q % 8 = 5 ∨ q % 8 = 7
    (¬ padOk → b32decode a t = .error .b32Pad)
    ∧ (padOk → ¬ charsOk → b32decode a t = .error .b32Char)
    ∧ (padOk → charsOk → ¬ remOk → b32decode a t = .error .b32Rem)
    ∧ (padOk → charsOk → remOk → ∃ out, b32decode a t = .ok out
        ∧ out.length = q / 8 * 5 + (if q % 8 = 2 then 1 else if q % 8 = 4 then 2 else if q % 8 = 5 then 3
            else if q % 8 = 7 then 4 else 0)
        ∧ ∀ i, i < 8 * out.length → ∃ c, t[i / 5]? = some c ∧ i / 5 < q
            ∧ bitOf out i = (decodeChar a c).getLsbD (4 - i % 5))

/-- R164, first sentence: decoding an encoding gives the bytes back, for every byte string and both alphabets. -/
def Obligations.Base32RoundTrip : Prop :=
  ∀ (a : Alphabet) (b : List Byte), b32decode a (b32encode a b) = .ok b

/-- R156: B32ENC completes and writes the encoding of the source bytes at the destination, and nothing else. -/
def Obligations.B32EncWritesEncoding : Prop :=
  ∀ (s : State) (L : Latch) (a : Alphabet) (bs : List Byte), s.latched = some L →
    operandHolds s.ram L.srcAddr L.srcLen bs →
    L.dstAddr.toNat + 8 * ((L.srcLen.toNat + 4) / 5) ≤ Config.ramSize →
    disjointRanges L.srcAddr.toNat L.srcLen.toNat L.dstAddr.toNat (8 * ((L.srcLen.toNat + 4) / 5)) →
    ∃ t, exec (.b32enc a) s = .next t ∧ completedOk s t false
      ∧ t.ram.holds L.dstAddr.toNat (b32encode a bs)
      ∧ ramSameOutside s t L.dstAddr.toNat (8 * ((L.srcLen.toNat + 4) / 5))
      ∧ t.results = { s.results with resLen := BitVec.ofNat 32 (8 * ((L.srcLen.toNat + 4) / 5)) }
      ∧ t.regs = s.regs ∧ environmentSame s t

/-- R160: B32DEC completes and writes the decoded bytes at the destination, and nothing else. -/
def Obligations.B32DecWritesDecoding : Prop :=
  ∀ (s : State) (L : Latch) (a : Alphabet) (text out : List Byte), s.latched = some L →
    operandHolds s.ram L.srcAddr L.srcLen text → b32decode a text = .ok out →
    L.dstAddr.toNat + out.length ≤ Config.ramSize →
    disjointRanges L.srcAddr.toNat L.srcLen.toNat L.dstAddr.toNat out.length →
    ∃ t, exec (.b32dec a) s = .next t ∧ completedOk s t false
      ∧ t.ram.holds L.dstAddr.toNat out ∧ ramSameOutside s t L.dstAddr.toNat out.length
      ∧ t.results = { s.results with resLen := BitVec.ofNat 32 out.length }
      ∧ t.regs = s.regs ∧ environmentSame s t

/-- R128, R129, R156, R160, R274: the errors of the Base32 commands, in the order of R274. -/
def Obligations.Base32CommandErrors : Prop :=
  ∀ (s : State) (L : Latch) (a : Alphabet), s.latched = some L →
    let n := L.srcLen.toNat
    let m := 8 * ((n + 4) / 5)
    (Config.ramSize < L.srcAddr.toNat + n →
      (∃ t, exec (.b32enc a) s = .next t ∧ completedErr s t false .range)
      ∧ ∃ t, exec (.b32dec a) s = .next t ∧ completedErr s t false .range)
    ∧ (L.srcAddr.toNat + n ≤ Config.ramSize → Config.ramSize < L.dstAddr.toNat + m →
      ∃ t, exec (.b32enc a) s = .next t ∧ completedErr s t false .range)
    ∧ (L.srcAddr.toNat + n ≤ Config.ramSize → L.dstAddr.toNat + m ≤ Config.ramSize →
        ¬ disjointRanges L.srcAddr.toNat n L.dstAddr.toNat m →
      ∃ t, exec (.b32enc a) s = .next t ∧ completedErr s t false .overlap)
    ∧ (∀ text, operandHolds s.ram L.srcAddr L.srcLen text →
        (∀ c, b32decode a text = .error c → ∃ t, exec (.b32dec a) s = .next t ∧ completedErr s t false c)
        ∧ ∀ out, b32decode a text = .ok out →
          (Config.ramSize < L.dstAddr.toNat + out.length →
            ∃ t, exec (.b32dec a) s = .next t ∧ completedErr s t false .range)
          ∧ (L.dstAddr.toNat + out.length ≤ Config.ramSize →
              ¬ disjointRanges L.srcAddr.toNat n L.dstAddr.toNat out.length →
            ∃ t, exec (.b32dec a) s = .next t ∧ completedErr s t false .overlap))

/-! ### SHA-1, HMAC and one-time passwords -/

/-- R181 to R185: the padded message is a whole number of 64-byte blocks, with the least number of zero bytes; the digest
is the big-endian hash value that the blocks, in order, give from the initial one. -/
def Obligations.Sha1PadsAndCompresses : Prop :=
  ∀ m : List Byte,
    (∃ z : Nat, sha1Pad m = m ++ [0x80] ++ List.replicate z 0x00 ++ bigEndian8 (BitVec.ofNat 64 (8 * m.length))
      ∧ (sha1Pad m).length % 64 = 0 ∧ ∀ y, y < z → (m.length + 1 + y + 8) % 64 ≠ 0)
    ∧ ∃ h : Nat → HashState,
        h 0 = ⟨0x67452301, 0xEFCDAB89, 0x98BADCFE, 0x10325476, 0xC3D2E1F0⟩
        ∧ (∀ i, i < (sha1Pad m).length / 64 →
            sha1StatedBlock (((sha1Pad m).drop (64 * i)).take 64) (h i) (h (i + 1)))
        ∧ sha1 m = bigEndian4 (h ((sha1Pad m).length / 64)).a ++ bigEndian4 (h ((sha1Pad m).length / 64)).b
            ++ bigEndian4 (h ((sha1Pad m).length / 64)).c ++ bigEndian4 (h ((sha1Pad m).length / 64)).d
            ++ bigEndian4 (h ((sha1Pad m).length / 64)).e

/-- R135: NOP completes, with RES_LEN = 0 and nothing else changed. -/
def Obligations.NopOnlyCompletes : Prop :=
  ∀ (s : State) (L : Latch), s.latched = some L →
    ∃ t, exec .nop s = .next t ∧ completedOk s t false ∧ t.results = { s.results with resLen := 0 }
      ∧ t.ram = s.ram ∧ t.regs = s.regs ∧ environmentSame s t

/-- R39, R190: SHA1 completes; DIGEST holds the digest of the source bytes; nothing else changes but RES_LEN = 0. A
source range that does not fit is RANGE. -/
def Obligations.Sha1WritesDigest : Prop :=
  ∀ (s : State) (L : Latch), s.latched = some L →
    (∀ bs, operandHolds s.ram L.srcAddr L.srcLen bs →
      ∃ t, exec .sha1 s = .next t ∧ completedOk s t false ∧ t.results.digest.bytes = sha1 bs
        ∧ { t.results with digest := s.results.digest } = { s.results with resLen := 0 }
        ∧ t.ram = s.ram ∧ t.regs = s.regs ∧ environmentSame s t)
    ∧ (Config.ramSize < L.srcAddr.toNat + L.srcLen.toNat →
      ∃ t, exec .sha1 s = .next t ∧ completedErr s t false .range)

/-- R186, R187, R188, R192: HMAC completes; DIGEST holds the HMAC of the message under the key, raw or Base32 text: the
two nested hashes over the key padded to 64 bytes, a longer key hashed first. -/
def Obligations.HmacWritesDigest : Prop :=
  ∀ (s : State) (L : Latch) (key : KeyForm) (k bs : List Byte), s.latched = some L →
    operandHolds s.ram L.srcAddr L.srcLen bs → keyOperandIs s.ram L key k →
    let k0 := if k.length ≤ 64 then k ++ List.replicate (64 - k.length) 0x00 else sha1 k ++ List.replicate 44 0x00
    k0.length = 64
    ∧ ∃ t, exec (.hmac key) s = .next t ∧ completedOk s t false
      ∧ t.results.digest.bytes = sha1 (k0.map (· ^^^ 0x5C) ++ sha1 (k0.map (· ^^^ 0x36) ++ bs))
      ∧ { t.results with digest := s.results.digest } = { s.results with resLen := 0 }
      ∧ t.ram = s.ram ∧ t.regs = s.regs ∧ environmentSame s t

/-- R193 to R200: HOTP completes for every legal DIGITS; DIGEST, OTP_CODE, OTP_LEN and OTP_STR hold the values of the
key, the latched counter and the digit count; CNT and everything else stay (R201). -/
def Obligations.HotpWritesCode : Prop :=
  ∀ (s : State) (L : Latch) (key : KeyForm) (d : BitVec 4) (k : List Byte), s.latched = some L →
    keyOperandIs s.ram L key k → d.toNat ≤ 10 →
    let D := if d = 0 then 6 else d.toNat
    let digest := hmacSha1 k (beBytes 8 L.cnt.toNat)
    let code := dynamicTruncate digest % 10 ^ D
    ∃ t, exec (.hotp key d) s = .next t ∧ completedOk s t false
      ∧ t.results.digest.bytes = digest ∧ t.results.otpCode.toNat = code ∧ t.results.otpLen.toNat = D
      ∧ t.results.otpStr.bytes = decimalString code D ++ List.replicate (12 - D) 0x00 ∧ t.results.resLen = 0
      ∧ t.ram = s.ram ∧ t.regs = s.regs ∧ environmentSame s t

/-- R205 to R210: TOTP completes for every legal DIGITS, writes HOTP's values for C = TIME div max(STEP, 1), writes C to
CNT, and sets STEP0 exactly when L.STEP = 0, else keeps it. -/
def Obligations.TotpWritesCodeAndCounter : Prop :=
  ∀ (s : State) (L : Latch) (key : KeyForm) (d : BitVec 4) (k : List Byte), s.latched = some L →
    keyOperandIs s.ram L key k → d.toNat ≤ 10 →
    let D := if d = 0 then 6 else d.toNat
    let C := L.time.toNat / (max L.step.toNat 1)
    let digest := hmacSha1 k (beBytes 8 C)
    let code := dynamicTruncate digest % 10 ^ D
    ∃ t, exec (.totp key d) s = .next t ∧ completedOk s t (decide (L.step = 0))
      ∧ t.results.digest.bytes = digest ∧ t.results.otpCode.toNat = code ∧ t.results.otpLen.toNat = D
      ∧ t.results.otpStr.bytes = decimalString code D ++ List.replicate (12 - D) 0x00 ∧ t.results.resLen = 0
      ∧ t.regs.cntHi.toNat * 2 ^ 32 + t.regs.cntLo.toNat = C
      ∧ { t.regs with cntLo := s.regs.cntLo, cntHi := s.regs.cntHi } = s.regs
      ∧ t.ram = s.ram ∧ environmentSame s t

/-- R93, R188, R199, R274: the errors of HMAC, HOTP and TOTP in the order of R274, with the OTP sentinel for the last
two. -/
def Obligations.KeyedCommandErrors : Prop :=
  ∀ (s : State) (L : Latch) (key : KeyForm) (d : BitVec 4), s.latched = some L →
    (11 ≤ d.toNat →
      (∃ t, exec (.hotp key d) s = .next t ∧ completedErr s t true .badDigits)
      ∧ ∃ t, exec (.totp key d) s = .next t ∧ completedErr s t true .badDigits)
    ∧ (Config.ramSize < L.srcAddr.toNat + L.srcLen.toNat →
      ∃ t, exec (.hmac key) s = .next t ∧ completedErr s t false .range)
    ∧ (Config.ramSize < L.keyAddr.toNat + L.keyLen.toNat → d.toNat ≤ 10 →
      (L.srcAddr.toNat + L.srcLen.toNat ≤ Config.ramSize →
        ∃ t, exec (.hmac key) s = .next t ∧ completedErr s t false .range)
      ∧ (∃ t, exec (.hotp key d) s = .next t ∧ completedErr s t true .range)
      ∧ ∃ t, exec (.totp key d) s = .next t ∧ completedErr s t true .range)
    ∧ (∀ alph text c, operandHolds s.ram L.keyAddr L.keyLen text → b32decode alph text = .error c → d.toNat ≤ 10 →
      (L.srcAddr.toNat + L.srcLen.toNat ≤ Config.ramSize →
        ∃ t, exec (.hmac (.b32 alph)) s = .next t ∧ completedErr s t false c)
      ∧ (∃ t, exec (.hotp (.b32 alph) d) s = .next t ∧ completedErr s t true c)
      ∧ ∃ t, exec (.totp (.b32 alph) d) s = .next t ∧ completedErr s t true c)

/-- R186, R187: the keyed hash that HOTP and TOTP use. R193, R194, R196 to R198: the counter is hashed as its eight
big-endian bytes; the truncated value of a 20-byte digest is its four bytes at the offset in the low 4 bits of the last one,
big-endian, without the top bit, so it has 31 bits; the string of a code is its `D` decimal digits. -/
def Obligations.OtpCodeFormat : Prop :=
  (∀ k m : List Byte,
    let k0 := if k.length ≤ 64 then k ++ List.replicate (64 - k.length) 0x00 else sha1 k ++ List.replicate 44 0x00
    hmacSha1 k m = sha1 (k0.map (· ^^^ 0x5C) ++ sha1 (k0.map (· ^^^ 0x36) ++ m)))
  ∧ (∀ c : DWord, beBytes 8 c.toNat = bigEndian8 c)
  ∧ (∀ d : List Byte, d.length = 20 → ∃ b19 b0 b1 b2 b3 : Byte,
      let o := (b19 &&& 0x0F).toNat
      d[19]? = some b19 ∧ d[o]? = some b0 ∧ d[o + 1]? = some b1 ∧ d[o + 2]? = some b2 ∧ d[o + 3]? = some b3
      ∧ dynamicTruncate d = b0.toNat % 128 * 2 ^ 24 + b1.toNat * 2 ^ 16 + b2.toNat * 2 ^ 8 + b3.toNat
      ∧ dynamicTruncate d < 2 ^ 31)
  ∧ ∀ code D : Nat, code < 10 ^ D →
      (decimalString code D).length = D ∧ decimalValue (decimalString code D) = code
      ∧ ∀ c ∈ decimalString code D, 0x30 ≤ c.toNat ∧ c.toNat ≤ 0x39

/-- R211: TOTP gives the same DIGEST, code and counter for every TIME in one window of the step. -/
def Obligations.TotpIsConstantInWindow : Prop :=
  ∀ (s t : State) (L : Latch) (key : KeyForm) (d : BitVec 4) (time : DWord), s.latched = some L →
    exec (.totp key d) s = .next t → time.toNat / (max L.step.toNat 1) = L.time.toNat / (max L.step.toNat 1) →
    exec (.totp key d) { s with latched := some { L with time := time } } = .next t

/-- R210: a successful TOTP writes the counter it derived to CNT, so a following HOTP with the same key and digits
reproduces DIGEST, OTP_CODE, OTP_LEN and OTP_STR. -/
def Obligations.HotpReproducesTotp : Prop :=
  ∀ (s t u : State) (L M : Latch) (key : KeyForm) (d : BitVec 4) (k : List Byte), s.latched = some L →
    keyOperandIs s.ram L key k → exec (.totp key d) s = .next t → t.status.err = false →
    u.latched = some M → M.cnt = t.regs.cntHi ++ t.regs.cntLo → keyOperandIs u.ram M key k →
    (t.regs.cntHi ++ t.regs.cntLo).toNat = L.time.toNat / (max L.step.toNat 1)
    ∧ ∃ t', exec (.hotp key d) u = .next t' ∧ t'.status.err = false
      ∧ t'.results.digest = t.results.digest ∧ t'.results.otpCode = t.results.otpCode
      ∧ t'.results.otpLen = t.results.otpLen ∧ t'.results.otpStr = t.results.otpStr

/-- R130 to R132, R201: the frame of the commands that store nothing, whatever their outcome. -/
def Obligations.HashCommandsStoreNothing : Prop :=
  ∀ (i : Instr) (s t : State),
    (i = .nop ∨ i = .sha1 ∨ (∃ k, i = .hmac k) ∨ (∃ k d, i = .hotp k d) ∨ ∃ k d, i = .totp k d) →
    exec i s = .next t →
    (∀ x, t.ram.byteAt x = s.ram.byteAt x)
    ∧ { t.regs with cntLo := s.regs.cntLo, cntHi := s.regs.cntHi } = s.regs
    ∧ ((∀ k d, i ≠ .totp k d) → t.regs = s.regs ∧ t.status.step0 = s.status.step0)
    ∧ (i = .nop → t.results.digest = s.results.digest)
    ∧ ((i = .nop ∨ i = .sha1 ∨ ∃ k, i = .hmac k) →
        t.results.otpCode = s.results.otpCode ∧ t.results.otpLen = s.results.otpLen
        ∧ t.results.otpStr = s.results.otpStr)
    ∧ t.results.resLen = 0 ∧ t.status.wbusy = s.status.wbusy

/-- R131, R132: the frame of the commands that store, whatever their outcome: RAM changes at most in the output range at
L.DST_ADDR; no register changes but AES_IV for the CBC commands. -/
def Obligations.StoringCommandsFrame : Prop :=
  ∀ (i : Instr) (s t : State) (L : Latch), s.latched = some L → exec i s = .next t →
    (∀ a, i = .b32enc a → ramSameOutside s t L.dstAddr.toNat (8 * ((L.srcLen.toNat + 4) / 5)))
    ∧ (∀ a, i = .b32dec a → ramSameOutside s t L.dstAddr.toNat t.results.resLen.toNat)
    ∧ ((∃ ks, i = .aesEcbEnc ks ∨ i = .aesEcbDec ks ∨ i = .aesCbcEnc ks ∨ i = .aesCbcDec ks) →
        ramSameOutside s t L.dstAddr.toNat L.srcLen.toNat)
    ∧ (((∃ a, i = .b32enc a ∨ i = .b32dec a) ∨ ∃ ks, i = .aesEcbEnc ks ∨ i = .aesEcbDec ks) → t.regs = s.regs)
    ∧ ((∃ ks, i = .aesCbcEnc ks ∨ i = .aesCbcDec ks) → { t.regs with aesIv := s.regs.aesIv } = s.regs)
    ∧ (((∃ a, i = .b32enc a ∨ i = .b32dec a)
          ∨ ∃ ks, i = .aesEcbEnc ks ∨ i = .aesEcbDec ks ∨ i = .aesCbcEnc ks ∨ i = .aesCbcDec ks) →
        { t.results with resLen := s.results.resLen } = s.results
        ∧ t.status.step0 = s.status.step0 ∧ t.status.wbusy = s.status.wbusy)

/-! ### AES -/

/-- R233, R234: SBOX is the affine map of the inverse in GF(2^8), 0 mapped to 0, and ISBOX undoes it. -/
def Obligations.SboxIsAffineOfInverse : Prop :=
  ∀ x : Byte, invSbox (sbox x) = x
    ∧ ∃ y : Byte, gfMul x y = (if x = 0 then 0 else 1) ∧ (x = 0 → y = 0) ∧ sbox x = sboxAffine y

/-- R236: the column coefficients are multiplications in GF(2^8) modulo 0x11B. -/
def Obligations.ColumnCoefficientsAreFieldProducts : Prop :=
  ∀ a : Byte, xtime a = gfMul a 2 ∧ mul3 a = gfMul a 3 ∧ mul9 a = gfMul a 9 ∧ mul11 a = gfMul a 11
    ∧ mul13 a = gfMul a 13 ∧ mul14 a = gfMul a 14

/-- R94, R232, R235 to R238: the key schedule and the rounds of the forward cipher, for every key of each size; R230, R239:
AES is a permutation of 16-byte blocks, D_K inverting E_K. -/
def Obligations.AesFollowsRoundsAndInverts : Prop :=
  (∀ ks : KeySize, keyWords ks = statedNk ks ∧ roundCount ks = statedNr ks)
  ∧ ∀ (ks : KeySize) (key : List Byte), key.length = 4 * statedNk ks →
      (∃ w, aesStatedSchedule ks key w
        ∧ ∀ x : List Byte, x.length = 16 → aesStatedCipher ks w x (aesEncrypt ks key x))
      ∧ ∀ x : List Byte, x.length = 16 →
        (aesEncrypt ks key x).length = 16 ∧ aesDecrypt ks key (aesEncrypt ks key x) = x
        ∧ aesEncrypt ks key (aesDecrypt ks key x) = x

/-- R246: CBC decryption undoes CBC encryption under the same key and chaining value. -/
def Obligations.CbcDecryptInvertsEncrypt : Prop :=
  ∀ (ks : KeySize) (key iv : List Byte) (ps : List (List Byte)), iv.length = 16 → (∀ p ∈ ps, p.length = 16) →
    cbcDecrypt ks key iv (cbcEncrypt ks key iv ps) = ps

/-- R244, R247, R309: two CBC encryption commands over the halves of a message, the second started with the AES_IV that
the first left, write the ciphertext of one command over the whole, and leave the same AES_IV. The premise that AES_IV
still holds the latched value (part of `cbcReady`) is part of the invariant. -/
def Obligations.CbcChainsAcrossCommands : Prop :=
  ∀ (ks : KeySize) (s u v t : State) (L M N : Latch) (bs cs : List Byte),
    cbcReady s L bs → cbcReady u M cs → cbcReady v N (bs ++ cs) →
    M.aesKey = L.aesKey → N.aesKey = L.aesKey → N.iv = L.iv →
    exec (.aesCbcEnc ks) s = .next t → M.iv = t.regs.aesIv →
    ∃ t' w, exec (.aesCbcEnc ks) u = .next t' ∧ exec (.aesCbcEnc ks) v = .next w
      ∧ ∃ c d : List Byte, c.length = bs.length ∧ d.length = cs.length
        ∧ t.ram.holds L.dstAddr.toNat c ∧ t'.ram.holds M.dstAddr.toNat d ∧ w.ram.holds N.dstAddr.toNat (c ++ d)
        ∧ w.regs.aesIv = t'.regs.aesIv

/-- R231, R240 to R243: the ECB commands complete, disjoint or exactly in place, and write the blocks' ciphers or inverse
ciphers at the destination, and nothing else. -/
def Obligations.AesEcbCommandsTransformBlocks : Prop :=
  ∀ (s : State) (L : Latch) (ks : KeySize) (bs : List Byte), s.latched = some L →
    operandHolds s.ram L.srcAddr L.srcLen bs → L.srcLen.toNat % 16 = 0 →
    L.dstAddr.toNat + L.srcLen.toNat ≤ Config.ramSize →
    (L.dstAddr = L.srcAddr ∨ disjointRanges L.srcAddr.toNat L.srcLen.toNat L.dstAddr.toNat L.srcLen.toNat) →
    let key := L.aesKey.bytes.take (4 * keyWords ks)
    let blocks := blocks16 bs (L.srcLen.toNat / 16)
    (blocks.flatten = bs ∧ ∀ b ∈ blocks, b.length = 16)
    ∧ (∃ t, exec (.aesEcbEnc ks) s = .next t ∧ completedOk s t false
        ∧ t.ram.holds L.dstAddr.toNat (blocks.map (aesEncrypt ks key)).flatten
        ∧ ramSameOutside s t L.dstAddr.toNat L.srcLen.toNat
        ∧ t.results = { s.results with resLen := L.srcLen } ∧ t.regs = s.regs ∧ environmentSame s t)
    ∧ ∃ t, exec (.aesEcbDec ks) s = .next t ∧ completedOk s t false
        ∧ t.ram.holds L.dstAddr.toNat (blocks.map (aesDecrypt ks key)).flatten
        ∧ ramSameOutside s t L.dstAddr.toNat L.srcLen.toNat
        ∧ t.results = { s.results with resLen := L.srcLen } ∧ t.regs = s.regs ∧ environmentSame s t

/-- R242 to R247: the CBC commands complete, disjoint or exactly in place, write the chained blocks, and leave the last
ciphertext block in AES_IV when there is one. The chaining is R246's, block by block from L.iv. -/
def Obligations.AesCbcCommandsChainBlocks : Prop :=
  ∀ (s : State) (L : Latch) (ks : KeySize) (bs : List Byte), s.latched = some L →
    operandHolds s.ram L.srcAddr L.srcLen bs → L.srcLen.toNat % 16 = 0 →
    L.dstAddr.toNat + L.srcLen.toNat ≤ Config.ramSize →
    (L.dstAddr = L.srcAddr ∨ disjointRanges L.srcAddr.toNat L.srcLen.toNat L.dstAddr.toNat L.srcLen.toNat) →
    let key := L.aesKey.bytes.take (4 * keyWords ks)
    let blocks := blocks16 bs (L.srcLen.toNat / 16)
    let enc := cbcEncrypt ks key L.iv.bytes blocks
    let dec := cbcDecrypt ks key L.iv.bytes blocks
    (blocks.flatten = bs ∧ ∀ b ∈ blocks, b.length = 16)
    ∧ cbcStatedEncrypt ks key L.iv.bytes blocks enc ∧ cbcStatedDecrypt ks key L.iv.bytes blocks dec
    ∧ (∃ t, exec (.aesCbcEnc ks) s = .next t ∧ completedOk s t false
        ∧ t.ram.holds L.dstAddr.toNat enc.flatten ∧ ramSameOutside s t L.dstAddr.toNat L.srcLen.toNat
        ∧ t.results = { s.results with resLen := L.srcLen }
        ∧ { t.regs with aesIv := s.regs.aesIv } = s.regs
        ∧ (∀ c, enc.getLast? = some c → t.regs.aesIv.bytes = c) ∧ (enc = [] → t.regs.aesIv = s.regs.aesIv)
        ∧ environmentSame s t)
    ∧ ∃ t, exec (.aesCbcDec ks) s = .next t ∧ completedOk s t false
        ∧ t.ram.holds L.dstAddr.toNat dec.flatten
        ∧ ramSameOutside s t L.dstAddr.toNat L.srcLen.toNat
        ∧ t.results = { s.results with resLen := L.srcLen }
        ∧ { t.regs with aesIv := s.regs.aesIv } = s.regs
        ∧ (∀ c, blocks.getLast? = some c → t.regs.aesIv.bytes = c) ∧ (blocks = [] → t.regs.aesIv = s.regs.aesIv)
        ∧ environmentSame s t

/-- R128, R129, R242, R274: the errors of the four AES commands, in order: BAD_LEN, RANGE of the source, RANGE of the
destination, OVERLAP except exactly in place. -/
def Obligations.AesCommandErrors : Prop :=
  ∀ (s : State) (L : Latch) (i : Instr), s.latched = some L →
    (∃ ks, i = .aesEcbEnc ks ∨ i = .aesEcbDec ks ∨ i = .aesCbcEnc ks ∨ i = .aesCbcDec ks) →
    let n := L.srcLen.toNat
    (n % 16 ≠ 0 → ∃ t, exec i s = .next t ∧ completedErr s t false .badLen)
    ∧ (n % 16 = 0 → (Config.ramSize < L.srcAddr.toNat + n ∨ Config.ramSize < L.dstAddr.toNat + n) →
      ∃ t, exec i s = .next t ∧ completedErr s t false .range)
    ∧ (n % 16 = 0 → L.srcAddr.toNat + n ≤ Config.ramSize → L.dstAddr.toNat + n ≤ Config.ramSize →
        L.dstAddr ≠ L.srcAddr → ¬ disjointRanges L.srcAddr.toNat n L.dstAddr.toNat n →
      ∃ t, exec i s = .next t ∧ completedErr s t false .overlap)

/-! ### The host agent -/

/-- R101: the value of an expression, operator by operator, on unbounded integers: literals; assigned variables (of a list
in the form of the invariant; an unassigned one holds a free value, log 10); `+` and `-`; AND and OR of non-negative integers (negative ones are the model's choice, log 18);
`<<` by a non-negative amount (a negative one gives a free value, log 11); `==` and `!=`, giving 1 or 0.
R22, R101, R290: the host's step when it is the host's turn, idle or while a command waits for its engine step (then one
of the host steps before that step is used up; the model's schedule, DESIGN CHOICE, log 2). A branch moves only the host's
index, to its target when taken, else to the next statement. A write statement writes the value of its expression modulo
2^width on the bus and goes on, and stops with the bus's fault. A halted host changes nothing; that running past the end of
the program halts it is the model's choice (DESIGN CHOICE, log 14). -/
def Obligations.HostStatementsFollowNotation : Prop :=
  (∀ (vars : List (Nat × Int)) (a b : HostExpr),
    (∀ n, evalExpr vars (.lit n) = n)
    ∧ (∀ x v, vars.Pairwise (fun c d => c.1 < d.1) → (x, v) ∈ vars → evalExpr vars (.var x) = v)
    ∧ evalExpr vars (.add a b) = evalExpr vars a + evalExpr vars b
    ∧ evalExpr vars (.sub a b) = evalExpr vars a - evalExpr vars b
    ∧ (∀ m n : Nat, evalExpr vars a = m → evalExpr vars b = n →
      evalExpr vars (.and a b) = (m &&& n : Nat) ∧ evalExpr vars (.or a b) = (m ||| n : Nat))
    ∧ (∀ n : Nat, evalExpr vars b = n → evalExpr vars (.shl a b) = evalExpr vars a * 2 ^ n)
    ∧ evalExpr vars (.eq a b) = (if evalExpr vars a = evalExpr vars b then 1 else 0)
    ∧ evalExpr vars (.ne a b) = if evalExpr vars a = evalExpr vars b then 0 else 1)
  ∧ ∀ s : State, (s.latched = none ∨ s.engineDelay ≠ 0) →
    let u : State := { s with engineDelay := if s.latched = none then s.engineDelay else s.engineDelay - 1 }
    (∀ e target, s.host.current = some (.bnz e target) →
      step s = .next { u with host := { s.host with
        index := if evalExpr s.host.vars e ≠ 0 then target else s.host.index + 1 } })
    ∧ (∀ e target, s.host.current = some (.bz e target) →
      step s = .next { u with host := { s.host with
        index := if evalExpr s.host.vars e = 0 then target else s.host.index + 1 } })
    ∧ (∀ w off e, s.host.current = some (.write w off e) →
      ∀ v : Word, (v.toNat : Int) = evalExpr s.host.vars e % 2 ^ (8 * w.bytes) →
        (∀ t, u.busWrite w off v = .ok t →
          step s = .next { t with host := { s.host with index := s.host.index + 1 } })
        ∧ ∀ f, u.busWrite w off v = .error f → step s = .fault f)
    ∧ (s.host.halted = true → step s = .next u)

/-- R67, R101: a read statement, idle or while a command waits for its engine step, answers the value of the bus read: the
step changes nothing but the host's own program index and variable (and the model's counts of free values and of host
steps, log 1, log 2), and stops with the bus's fault. -/
def Obligations.HostReadsHaveNoSideEffect : Prop :=
  ∀ (s : State) (w : Width) (off x : Nat), (s.latched = none ∨ s.engineDelay ≠ 0) →
    s.host.current = some (.read w off x) →
    (∀ v, s.busRead w off = .ok v → ∃ t, step s = .next t
      ∧ t.regs = s.regs ∧ t.status = s.status ∧ t.results = s.results ∧ t.ram = s.ram ∧ t.latched = s.latched
      ∧ t.irq = s.irq ∧ t.rst = s.rst ∧ t.host.prog = s.host.prog ∧ t.host.index = s.host.index + 1
      ∧ evalExpr t.host.vars (.var x) = v.toNat
      ∧ ∀ y, y ≠ x → evalExpr t.host.vars (.var y) = evalExpr s.host.vars (.var y))
    ∧ ∀ f, s.busRead w off = .error f → step s = .fault f
end

