-- ==== Sys2Proof/Laws/State.lean ====
section
/-! SUPPORT. One lemma per field of State per update of the state, true by `rfl`, and the fields of the parts' updates. -/

namespace Sys2Proof.Machine

@[simp] theorem State.consume_regs (s : State) (L : Latch) : (s.consume L).regs = s.regs := rfl
@[simp] theorem State.consume_status (s : State) (L : Latch) : (s.consume L).status = s.status := rfl
@[simp] theorem State.consume_results (s : State) (L : Latch) : (s.consume L).results = s.results := rfl
@[simp] theorem State.consume_ram (s : State) (L : Latch) : (s.consume L).ram = s.ram := rfl
@[simp] theorem State.consume_latched (s : State) (L : Latch) : (s.consume L).latched = s.latched := rfl
@[simp] theorem State.consume_rst (s : State) (L : Latch) : (s.consume L).rst = s.rst := rfl
@[simp] theorem State.consume_host (s : State) (L : Latch) : (s.consume L).host = s.host := rfl
@[simp] theorem State.consume_policy (s : State) (L : Latch) : (s.consume L).policy = s.policy := rfl
@[simp] theorem State.consume_schedule (s : State) (L : Latch) : (s.consume L).schedule = s.schedule := rfl
@[simp] theorem State.consume_engineDelay (s : State) (L : Latch) : (s.consume L).engineDelay = s.engineDelay := rfl
@[simp] theorem State.consume_draws (s : State) (L : Latch) : (s.consume L).draws = s.draws + (L.srcLen.toNat + L.keyLen.toNat) := rfl

@[simp] theorem State.complete_regs (s : State) (w : Writes) : (s.complete w).regs = s.regs.applyWrites w := rfl
@[simp] theorem State.complete_status (s : State) (w : Writes) : (s.complete w).status = s.status.succeeded w.step0 := rfl
@[simp] theorem State.complete_results (s : State) (w : Writes) : (s.complete w).results = s.results.applyWrites w := rfl
@[simp] theorem State.complete_ram (s : State) (w : Writes) : (s.complete w).ram = s.ram.applyWrites w := rfl
@[simp] theorem State.complete_latched (s : State) (w : Writes) : (s.complete w).latched = none := rfl
@[simp] theorem State.complete_rst (s : State) (w : Writes) : (s.complete w).rst = s.rst := rfl
@[simp] theorem State.complete_host (s : State) (w : Writes) : (s.complete w).host = s.host := rfl
@[simp] theorem State.complete_policy (s : State) (w : Writes) : (s.complete w).policy = s.policy := rfl
@[simp] theorem State.complete_schedule (s : State) (w : Writes) : (s.complete w).schedule = s.schedule := rfl
@[simp] theorem State.complete_engineDelay (s : State) (w : Writes) : (s.complete w).engineDelay = s.engineDelay := rfl
@[simp] theorem State.complete_draws (s : State) (w : Writes) : (s.complete w).draws = s.draws := rfl

@[simp] theorem State.errorCompletion_regs (s : State) (otp : Bool) (c : ErrCode) : (s.errorCompletion otp c).regs = s.regs := rfl
@[simp] theorem State.errorCompletion_status (s : State) (otp : Bool) (c : ErrCode) : (s.errorCompletion otp c).status = s.status.failed c := rfl
@[simp] theorem State.errorCompletion_results (s : State) (otp : Bool) (c : ErrCode) : (s.errorCompletion otp c).results = s.results.failed otp := rfl
@[simp] theorem State.errorCompletion_ram (s : State) (otp : Bool) (c : ErrCode) : (s.errorCompletion otp c).ram = s.ram := rfl
@[simp] theorem State.errorCompletion_latched (s : State) (otp : Bool) (c : ErrCode) : (s.errorCompletion otp c).latched = none := rfl
@[simp] theorem State.errorCompletion_rst (s : State) (otp : Bool) (c : ErrCode) : (s.errorCompletion otp c).rst = s.rst := rfl
@[simp] theorem State.errorCompletion_host (s : State) (otp : Bool) (c : ErrCode) : (s.errorCompletion otp c).host = s.host := rfl
@[simp] theorem State.errorCompletion_policy (s : State) (otp : Bool) (c : ErrCode) : (s.errorCompletion otp c).policy = s.policy := rfl
@[simp] theorem State.errorCompletion_schedule (s : State) (otp : Bool) (c : ErrCode) : (s.errorCompletion otp c).schedule = s.schedule := rfl
@[simp] theorem State.errorCompletion_engineDelay (s : State) (otp : Bool) (c : ErrCode) : (s.errorCompletion otp c).engineDelay = s.engineDelay := rfl
@[simp] theorem State.errorCompletion_draws (s : State) (otp : Bool) (c : ErrCode) : (s.errorCompletion otp c).draws = s.draws := rfl

@[simp] theorem State.latchCommand_regs (s : State) (delay : Nat) : (s.latchCommand delay).regs = s.regs := rfl
@[simp] theorem State.latchCommand_status (s : State) (delay : Nat) : (s.latchCommand delay).status = s.status.started := rfl
@[simp] theorem State.latchCommand_results (s : State) (delay : Nat) : (s.latchCommand delay).results = s.results := rfl
@[simp] theorem State.latchCommand_ram (s : State) (delay : Nat) : (s.latchCommand delay).ram = s.ram := rfl
@[simp] theorem State.latchCommand_latched (s : State) (delay : Nat) : (s.latchCommand delay).latched = some s.regs.latch := rfl
@[simp] theorem State.latchCommand_rst (s : State) (delay : Nat) : (s.latchCommand delay).rst = s.rst := rfl
@[simp] theorem State.latchCommand_host (s : State) (delay : Nat) : (s.latchCommand delay).host = s.host := rfl
@[simp] theorem State.latchCommand_policy (s : State) (delay : Nat) : (s.latchCommand delay).policy = s.policy := rfl
@[simp] theorem State.latchCommand_schedule (s : State) (delay : Nat) : (s.latchCommand delay).schedule = s.schedule := rfl
@[simp] theorem State.latchCommand_engineDelay (s : State) (delay : Nat) : (s.latchCommand delay).engineDelay = delay := rfl
@[simp] theorem State.latchCommand_draws (s : State) (delay : Nat) : (s.latchCommand delay).draws = s.draws := rfl

@[simp] theorem State.acceptStart_regs (s : State) (ie : Bool) : (s.acceptStart ie).regs = { s.regs with ie := ie } := rfl
@[simp] theorem State.acceptStart_status (s : State) (ie : Bool) : (s.acceptStart ie).status = s.status.started := rfl
@[simp] theorem State.acceptStart_results (s : State) (ie : Bool) : (s.acceptStart ie).results = s.results := rfl
@[simp] theorem State.acceptStart_ram (s : State) (ie : Bool) : (s.acceptStart ie).ram = s.ram := rfl
@[simp] theorem State.acceptStart_latched (s : State) (ie : Bool) : (s.acceptStart ie).latched = some s.regs.latch := rfl
@[simp] theorem State.acceptStart_rst (s : State) (ie : Bool) : (s.acceptStart ie).rst = s.rst := rfl
@[simp] theorem State.acceptStart_host (s : State) (ie : Bool) : (s.acceptStart ie).host = s.host := rfl
@[simp] theorem State.acceptStart_policy (s : State) (ie : Bool) : (s.acceptStart ie).policy = s.policy := rfl
@[simp] theorem State.acceptStart_schedule (s : State) (ie : Bool) : (s.acceptStart ie).schedule = s.schedule.tail := rfl
@[simp] theorem State.acceptStart_engineDelay (s : State) (ie : Bool) : (s.acceptStart ie).engineDelay = s.nextLatency := rfl
@[simp] theorem State.acceptStart_draws (s : State) (ie : Bool) : (s.acceptStart ie).draws = s.draws + 1 := rfl

@[simp] theorem State.dropWrite_regs (s : State) : (s.dropWrite).regs = s.regs := rfl
@[simp] theorem State.dropWrite_status (s : State) : (s.dropWrite).status = { s.status with wbusy := true } := rfl
@[simp] theorem State.dropWrite_results (s : State) : (s.dropWrite).results = s.results := rfl
@[simp] theorem State.dropWrite_ram (s : State) : (s.dropWrite).ram = s.ram := rfl
@[simp] theorem State.dropWrite_latched (s : State) : (s.dropWrite).latched = s.latched := rfl
@[simp] theorem State.dropWrite_rst (s : State) : (s.dropWrite).rst = s.rst := rfl
@[simp] theorem State.dropWrite_host (s : State) : (s.dropWrite).host = s.host := rfl
@[simp] theorem State.dropWrite_policy (s : State) : (s.dropWrite).policy = s.policy := rfl
@[simp] theorem State.dropWrite_schedule (s : State) : (s.dropWrite).schedule = s.schedule := rfl
@[simp] theorem State.dropWrite_engineDelay (s : State) : (s.dropWrite).engineDelay = s.engineDelay := rfl
@[simp] theorem State.dropWrite_draws (s : State) : (s.dropWrite).draws = s.draws := rfl

@[simp] theorem State.ignoreStart_regs (s : State) (ie : Bool) : (s.ignoreStart ie).regs = { s.regs with ie := ie } := rfl
@[simp] theorem State.ignoreStart_status (s : State) (ie : Bool) : (s.ignoreStart ie).status = { s.status with wbusy := true } := rfl
@[simp] theorem State.ignoreStart_results (s : State) (ie : Bool) : (s.ignoreStart ie).results = s.results := rfl
@[simp] theorem State.ignoreStart_ram (s : State) (ie : Bool) : (s.ignoreStart ie).ram = s.ram := rfl
@[simp] theorem State.ignoreStart_latched (s : State) (ie : Bool) : (s.ignoreStart ie).latched = s.latched := rfl
@[simp] theorem State.ignoreStart_rst (s : State) (ie : Bool) : (s.ignoreStart ie).rst = s.rst := rfl
@[simp] theorem State.ignoreStart_host (s : State) (ie : Bool) : (s.ignoreStart ie).host = s.host := rfl
@[simp] theorem State.ignoreStart_policy (s : State) (ie : Bool) : (s.ignoreStart ie).policy = s.policy := rfl
@[simp] theorem State.ignoreStart_schedule (s : State) (ie : Bool) : (s.ignoreStart ie).schedule = s.schedule := rfl
@[simp] theorem State.ignoreStart_engineDelay (s : State) (ie : Bool) : (s.ignoreStart ie).engineDelay = s.engineDelay := rfl
@[simp] theorem State.ignoreStart_draws (s : State) (ie : Bool) : (s.ignoreStart ie).draws = s.draws := rfl

@[simp] theorem State.writeStatus_regs (s : State) (v : Word) : (s.writeStatus v).regs = s.regs := rfl
@[simp] theorem State.writeStatus_status (s : State) (v : Word) : (s.writeStatus v).status = s.status.w1c v := rfl
@[simp] theorem State.writeStatus_results (s : State) (v : Word) : (s.writeStatus v).results = s.results := rfl
@[simp] theorem State.writeStatus_ram (s : State) (v : Word) : (s.writeStatus v).ram = s.ram := rfl
@[simp] theorem State.writeStatus_latched (s : State) (v : Word) : (s.writeStatus v).latched = s.latched := rfl
@[simp] theorem State.writeStatus_rst (s : State) (v : Word) : (s.writeStatus v).rst = s.rst := rfl
@[simp] theorem State.writeStatus_host (s : State) (v : Word) : (s.writeStatus v).host = s.host := rfl
@[simp] theorem State.writeStatus_policy (s : State) (v : Word) : (s.writeStatus v).policy = s.policy := rfl
@[simp] theorem State.writeStatus_schedule (s : State) (v : Word) : (s.writeStatus v).schedule = s.schedule := rfl
@[simp] theorem State.writeStatus_engineDelay (s : State) (v : Word) : (s.writeStatus v).engineDelay = s.engineDelay := rfl
@[simp] theorem State.writeStatus_draws (s : State) (v : Word) : (s.writeStatus v).draws = s.draws := rfl

@[simp] theorem State.softReset_regs (s : State) : (s.softReset).regs = Regs.reset := rfl
@[simp] theorem State.softReset_status (s : State) : (s.softReset).status = Status.reset := rfl
@[simp] theorem State.softReset_results (s : State) : (s.softReset).results = Results.reset := rfl
@[simp] theorem State.softReset_ram (s : State) : (s.softReset).ram = s.clobberedRam := rfl
@[simp] theorem State.softReset_latched (s : State) : (s.softReset).latched = none := rfl
@[simp] theorem State.softReset_rst (s : State) : (s.softReset).rst = s.rst := rfl
@[simp] theorem State.softReset_host (s : State) : (s.softReset).host = s.host := rfl
@[simp] theorem State.softReset_policy (s : State) : (s.softReset).policy = s.policy := rfl
@[simp] theorem State.softReset_schedule (s : State) : (s.softReset).schedule = s.schedule := rfl
@[simp] theorem State.softReset_engineDelay (s : State) : (s.softReset).engineDelay = 0 := rfl
@[simp] theorem State.softReset_draws (s : State) : (s.softReset).draws = s.draws + s.clobberCount := rfl

@[simp] theorem State.powerOn_regs (s : State) : (s.powerOn).regs = Regs.reset := rfl
@[simp] theorem State.powerOn_status (s : State) : (s.powerOn).status = Status.reset := rfl
@[simp] theorem State.powerOn_results (s : State) : (s.powerOn).results = Results.reset := rfl
@[simp] theorem State.powerOn_ram (s : State) : (s.powerOn).ram = [] := rfl
@[simp] theorem State.powerOn_latched (s : State) : (s.powerOn).latched = none := rfl
@[simp] theorem State.powerOn_rst (s : State) : (s.powerOn).rst = s.rst := rfl
@[simp] theorem State.powerOn_host (s : State) : (s.powerOn).host = s.host := rfl
@[simp] theorem State.powerOn_policy (s : State) : (s.powerOn).policy = s.policy := rfl
@[simp] theorem State.powerOn_schedule (s : State) : (s.powerOn).schedule = s.schedule := rfl
@[simp] theorem State.powerOn_engineDelay (s : State) : (s.powerOn).engineDelay = 0 := rfl
@[simp] theorem State.powerOn_draws (s : State) : (s.powerOn).draws = s.draws := rfl

@[simp] theorem State.withHost_regs (s : State) (h : HostAgent) : (s.withHost h).regs = s.regs := rfl
@[simp] theorem State.withHost_status (s : State) (h : HostAgent) : (s.withHost h).status = s.status := rfl
@[simp] theorem State.withHost_results (s : State) (h : HostAgent) : (s.withHost h).results = s.results := rfl
@[simp] theorem State.withHost_ram (s : State) (h : HostAgent) : (s.withHost h).ram = s.ram := rfl
@[simp] theorem State.withHost_latched (s : State) (h : HostAgent) : (s.withHost h).latched = s.latched := rfl
@[simp] theorem State.withHost_rst (s : State) (h : HostAgent) : (s.withHost h).rst = s.rst := rfl
@[simp] theorem State.withHost_host (s : State) (h : HostAgent) : (s.withHost h).host = h := rfl
@[simp] theorem State.withHost_policy (s : State) (h : HostAgent) : (s.withHost h).policy = s.policy := rfl
@[simp] theorem State.withHost_schedule (s : State) (h : HostAgent) : (s.withHost h).schedule = s.schedule := rfl
@[simp] theorem State.withHost_engineDelay (s : State) (h : HostAgent) : (s.withHost h).engineDelay = s.engineDelay := rfl
@[simp] theorem State.withHost_draws (s : State) (h : HostAgent) : (s.withHost h).draws = s.draws := rfl

@[simp] theorem State.consumeRead_regs (s : State) : (s.consumeRead).regs = s.regs := rfl
@[simp] theorem State.consumeRead_status (s : State) : (s.consumeRead).status = s.status := rfl
@[simp] theorem State.consumeRead_results (s : State) : (s.consumeRead).results = s.results := rfl
@[simp] theorem State.consumeRead_ram (s : State) : (s.consumeRead).ram = s.ram := rfl
@[simp] theorem State.consumeRead_latched (s : State) : (s.consumeRead).latched = s.latched := rfl
@[simp] theorem State.consumeRead_rst (s : State) : (s.consumeRead).rst = s.rst := rfl
@[simp] theorem State.consumeRead_host (s : State) : (s.consumeRead).host = s.host := rfl
@[simp] theorem State.consumeRead_policy (s : State) : (s.consumeRead).policy = s.policy := rfl
@[simp] theorem State.consumeRead_schedule (s : State) : (s.consumeRead).schedule = s.schedule := rfl
@[simp] theorem State.consumeRead_engineDelay (s : State) : (s.consumeRead).engineDelay = s.engineDelay := rfl
@[simp] theorem State.consumeRead_draws (s : State) : (s.consumeRead).draws = s.draws + 4 := rfl

@[simp] theorem State.startWord_regs (s : State) (c : Word) : (s.startWord c).regs = { s.regs with cmd := c } := rfl
@[simp] theorem State.startWord_status (s : State) (c : Word) : (s.startWord c).status = s.status.started := rfl
@[simp] theorem State.startWord_results (s : State) (c : Word) : (s.startWord c).results = s.results := rfl
@[simp] theorem State.startWord_ram (s : State) (c : Word) : (s.startWord c).ram = s.ram := rfl
@[simp] theorem State.startWord_latched (s : State) (c : Word) : (s.startWord c).latched = some { s.regs.latch with cmd := c } := rfl
@[simp] theorem State.startWord_rst (s : State) (c : Word) : (s.startWord c).rst = false := rfl
@[simp] theorem State.startWord_host (s : State) (c : Word) : (s.startWord c).host = s.host := rfl
@[simp] theorem State.startWord_policy (s : State) (c : Word) : (s.startWord c).policy = s.policy := rfl
@[simp] theorem State.startWord_schedule (s : State) (c : Word) : (s.startWord c).schedule = s.schedule := rfl
@[simp] theorem State.startWord_engineDelay (s : State) (c : Word) : (s.startWord c).engineDelay = 0 := rfl
@[simp] theorem State.startWord_draws (s : State) (c : Word) : (s.startWord c).draws = s.draws := rfl

@[simp] theorem State.countHostStep_regs (s : State) : s.countHostStep.regs = s.regs := by
  unfold State.countHostStep; split <;> rfl
@[simp] theorem State.countHostStep_status (s : State) : s.countHostStep.status = s.status := by
  unfold State.countHostStep; split <;> rfl
@[simp] theorem State.countHostStep_results (s : State) : s.countHostStep.results = s.results := by
  unfold State.countHostStep; split <;> rfl
@[simp] theorem State.countHostStep_ram (s : State) : s.countHostStep.ram = s.ram := by
  unfold State.countHostStep; split <;> rfl
@[simp] theorem State.countHostStep_latched (s : State) : s.countHostStep.latched = s.latched := by
  unfold State.countHostStep; split <;> rfl
@[simp] theorem State.countHostStep_rst (s : State) : s.countHostStep.rst = s.rst := by
  unfold State.countHostStep; split <;> rfl
@[simp] theorem State.countHostStep_host (s : State) : s.countHostStep.host = s.host := by
  unfold State.countHostStep; split <;> rfl
@[simp] theorem State.countHostStep_policy (s : State) : s.countHostStep.policy = s.policy := by
  unfold State.countHostStep; split <;> rfl
@[simp] theorem State.countHostStep_schedule (s : State) : s.countHostStep.schedule = s.schedule := by
  unfold State.countHostStep; split <;> rfl
@[simp] theorem State.countHostStep_draws (s : State) : s.countHostStep.draws = s.draws := by
  unfold State.countHostStep; split <;> rfl
theorem State.countHostStep_engineDelay (s : State) :
    s.countHostStep.engineDelay = if s.busy then s.engineDelay - 1 else s.engineDelay := by
  unfold State.countHostStep; split <;> rfl

@[simp] theorem State.engineView_ram (s : State) : s.engineView.ram = s.ram := rfl
@[simp] theorem State.engineView_policy (s : State) : s.engineView.policy = s.policy := rfl
@[simp] theorem State.engineView_draws (s : State) : s.engineView.draws = s.draws := rfl

@[simp] theorem Status.succeeded_eq (st : Status) (b : Bool) :
    st.succeeded b = ⟨true, false, st.step0 || b, st.wbusy, none⟩ := rfl
@[simp] theorem Status.failed_eq (st : Status) (c : ErrCode) :
    st.failed c = ⟨true, true, st.step0, st.wbusy, some c⟩ := rfl
@[simp] theorem Status.started_eq (st : Status) :
    st.started = ⟨false, false, st.step0, st.wbusy, none⟩ := rfl

@[simp] theorem Results.failed_resLen (r : Results) (otp : Bool) : (r.failed otp).resLen = 0 := by
  cases otp <;> rfl
@[simp] theorem Results.failed_digest (r : Results) (otp : Bool) : (r.failed otp).digest = r.digest := by
  cases otp <;> rfl

@[simp] theorem Regs.latch_ie (r : Regs) (ie : Bool) : ({ r with ie := ie } : Regs).latch = r.latch := rfl

theorem State.busy_iff (s : State) : s.busy = true ↔ ∃ L, s.latched = some L := by
  simp [State.busy, Option.isSome_iff_exists]
theorem State.not_busy_iff (s : State) : s.busy = false ↔ s.latched = none := by
  simp [State.busy]

end Sys2Proof.Machine
end

