-- ==== Sys2Proof/Laws/Memory.lean ====
section
/-! SUPPORT. Laws of the sorted lists and of RAM: read after write, frames, and that every operation keeps the
canonical form. -/

namespace Sys2Proof.Machine

/-! ### Sorted association lists -/

theorem assocGet_set_same {α : Type} (k : Nat) (v : α) (l : List (Nat × α)) :
    assocGet k (assocSet k v l) = some v := by
  induction l with
  | nil => simp [assocSet, assocGet]
  | cons c l ih =>
    unfold assocSet
    split
    · simp [assocGet]
    · split
      · simp [assocGet]
      · simp [assocGet, *]

theorem assocGet_set_other {α : Type} {k x : Nat} (h : x ≠ k) (v : α) (l : List (Nat × α)) :
    assocGet x (assocSet k v l) = assocGet x l := by
  induction l with
  | nil => simp [assocSet, assocGet, Ne.symm h]
  | cons c l ih =>
    unfold assocSet
    split
    · simp [assocGet, Ne.symm h]
    · split
      · next hc => simp [assocGet, hc, Ne.symm h]
      · simp [assocGet, ih]

/-- A listed key of a list with rising keys gives its value. -/
theorem assocGet_of_mem {α : Type} {k : Nat} {v : α} {l : List (Nat × α)} (hs : l.Pairwise (fun a b => a.1 < b.1))
    (h : (k, v) ∈ l) : assocGet k l = some v := by
  induction l with
  | nil => simp at h
  | cons c l ih =>
    rw [List.pairwise_cons] at hs
    rcases List.mem_cons.1 h with rfl | h
    · simp [assocGet]
    · have := hs.1 _ h
      simp only at this
      rw [assocGet, if_neg (by omega), ih hs.2 h]

theorem mem_assocSet {α : Type} {k : Nat} {v : α} {l : List (Nat × α)} {c : Nat × α} (h : c ∈ assocSet k v l) :
    c = (k, v) ∨ c ∈ l := by
  induction l with
  | nil => simpa [assocSet] using h
  | cons d l ih =>
    unfold assocSet at h
    split at h
    · simpa using h
    · split at h
      · simp only [List.mem_cons] at h ⊢; tauto
      · simp only [List.mem_cons] at h ⊢
        rcases h with h | h
        · tauto
        · rcases ih h with h | h <;> tauto

theorem assocSet_sorted {α : Type} (k : Nat) (v : α) {l : List (Nat × α)}
    (h : l.Pairwise (fun a b => a.1 < b.1)) : (assocSet k v l).Pairwise (fun a b => a.1 < b.1) := by
  induction l with
  | nil => simp [assocSet]
  | cons c l ih =>
    rw [List.pairwise_cons] at h
    unfold assocSet
    split
    · next hk =>
      refine List.pairwise_cons.2 ⟨fun d hd => ?_, List.pairwise_cons.2 h⟩
      rcases List.mem_cons.1 hd with rfl | hd
      · exact hk
      · exact lt_trans hk (h.1 d hd)
    · split
      · next hc => exact List.pairwise_cons.2 ⟨fun d hd => hc ▸ h.1 d hd, h.2⟩
      · refine List.pairwise_cons.2 ⟨fun d hd => ?_, ih h.2⟩
        rcases mem_assocSet hd with rfl | hd
        · show c.1 < k; omega
        · exact h.1 d hd

/-! ### RAM bytes -/

@[simp] theorem Memory.byteAt_setByte_same (m : Memory) (a : Nat) (b : Byte) :
    (m.setByte a b).byteAt a = some b := assocGet_set_same a b m

theorem Memory.byteAt_setByte_other {a x : Nat} (h : x ≠ a) (m : Memory) (b : Byte) :
    (m.setByte a b).byteAt x = m.byteAt x := assocGet_set_other h b m

/-- The wide store: inside its range each byte reads as stored, outside it as before. -/
theorem Memory.byteAt_store (m : Memory) (a : Nat) (bs : List Byte) (x : Nat) :
    (m.store a bs).byteAt x = if a ≤ x ∧ x < a + bs.length then bs[x - a]? else m.byteAt x := by
  induction bs generalizing m a with
  | nil => simp only [Memory.store, List.length_nil, Nat.add_zero]; rw [if_neg (by omega)]
  | cons b bs ih =>
    rw [Memory.store, ih]
    by_cases hx : x = a
    · subst hx
      rw [if_neg (by omega), if_pos (by simp)]
      simp
    · by_cases hin : a + 1 ≤ x ∧ x < a + 1 + bs.length
      · rw [if_pos hin, if_pos (by simp only [List.length_cons]; omega)]
        obtain ⟨k, rfl⟩ : ∃ k, x = a + 1 + k := ⟨x - (a + 1), by omega⟩
        rw [show a + 1 + k - a = k + 1 by omega, show a + 1 + k - (a + 1) = k by omega]
        simp
      · rw [if_neg hin, if_neg (by simp only [List.length_cons]; omega), Memory.byteAt_setByte_other hx]

theorem Memory.byteAt_store_inside (m : Memory) (a : Nat) (bs : List Byte) {j : Nat} (h : j < bs.length) :
    (m.store a bs).byteAt (a + j) = bs[j]? := by
  rw [Memory.byteAt_store, if_pos (by omega), Nat.add_sub_cancel_left]

theorem Memory.byteAt_store_outside (m : Memory) {a x : Nat} {bs : List Byte} (h : x < a ∨ a + bs.length ≤ x) :
    (m.store a bs).byteAt x = m.byteAt x := by
  rw [Memory.byteAt_store, if_neg (by omega)]

theorem Memory.store_holds (m : Memory) (a : Nat) (bs : List Byte) : (m.store a bs).holds a bs :=
  fun _ h => Memory.byteAt_store_inside m a bs h

/-! ### The canonical form -/

theorem Memory.wf_nil : Memory.wf [] := by simp [Memory.wf]

theorem Memory.wf_setByte {m : Memory} (h : m.wf) {a : Nat} (ha : a < Config.ramSize) (b : Byte) :
    (m.setByte a b).wf := by
  refine ⟨assocSet_sorted a b h.1, fun c hc => ?_⟩
  rcases mem_assocSet hc with rfl | hc
  · exact ha
  · exact h.2 c hc

/-- Every store inside RAM keeps the canonical form. -/
theorem Memory.wf_store {m : Memory} (h : m.wf) {a : Nat} {bs : List Byte} (ha : a + bs.length ≤ Config.ramSize) :
    (m.store a bs).wf := by
  induction bs generalizing m a with
  | nil => exact h
  | cons b bs ih =>
    simp only [List.length_cons] at ha
    exact ih (Memory.wf_setByte h (by omega) b) (by omega)

/-! ### Reading ranges -/

theorem Memory.bytesAt?_length {m : Memory} {a n : Nat} {bs : List Byte} (h : m.bytesAt? a n = some bs) :
    bs.length = n := by
  induction n generalizing a bs with
  | zero => simp only [Memory.bytesAt?, Option.some.injEq] at h; simp [← h]
  | succ n ih =>
    simp only [Memory.bytesAt?] at h
    split at h
    · simp at h
    · split at h
      · simp at h
      · next b _ bs' hb =>
        simp only [Option.some.injEq] at h
        simp [← h, ih hb]

theorem Memory.holds_cons {m : Memory} {a : Nat} {b : Byte} {bs : List Byte} :
    m.holds a (b :: bs) ↔ m.byteAt a = some b ∧ m.holds (a + 1) bs := by
  constructor
  · intro h
    refine ⟨by simpa using h 0 (by simp), fun j hj => ?_⟩
    have := h (j + 1) (by simpa using hj)
    simpa [Nat.add_assoc, Nat.add_comm 1] using this
  · rintro ⟨h0, h⟩ j hj
    cases j with
    | zero => simpa using h0
    | succ j =>
      have := h j (by simpa using hj)
      simpa [Nat.add_assoc, Nat.add_comm 1] using this

/-- The written bytes of a range are exactly what a whole-range read gives. -/
theorem Memory.bytesAt?_eq_some {m : Memory} {a n : Nat} {bs : List Byte} :
    m.bytesAt? a n = some bs ↔ bs.length = n ∧ m.holds a bs := by
  induction n generalizing a bs with
  | zero =>
    simp only [Memory.bytesAt?, Option.some.injEq, List.length_eq_zero_iff]
    constructor
    · rintro rfl; exact ⟨rfl, fun j hj => by simp at hj⟩
    · rintro ⟨rfl, -⟩; rfl
  | succ n ih =>
    simp only [Memory.bytesAt?]
    cases hb : m.byteAt a with
    | none =>
      simp only [reduceCtorEq, false_iff, not_and]
      intro hl h
      cases bs with
      | nil => simp at hl
      | cons b bs => rw [Memory.holds_cons, hb] at h; simp at h
    | some b =>
      cases hr : m.bytesAt? (a + 1) n with
      | none =>
        simp only [reduceCtorEq, false_iff, not_and]
        intro hl h
        cases bs with
        | nil => simp at hl
        | cons c bs =>
          rw [Memory.holds_cons] at h
          rw [ih.2 ⟨by simpa using hl, h.2⟩] at hr
          simp at hr
      | some r =>
        simp only [Option.some.injEq]
        have hr' := ih.1 hr
        constructor
        · rintro rfl
          exact ⟨by simp [hr'.1], Memory.holds_cons.2 ⟨hb, hr'.2⟩⟩
        · rintro ⟨hl, h⟩
          cases bs with
          | nil => simp at hl
          | cons c bs =>
            rw [Memory.holds_cons, hb] at h
            have := ih.2 ⟨by simpa using hl, h.2⟩
            rw [hr] at this
            simp only [Option.some.injEq] at this h
            rw [this, h.1]

/-- A whole-range read gives nothing exactly where a byte of the range is unwritten. -/
theorem Memory.bytesAt?_eq_none {m : Memory} {a n : Nat} :
    m.bytesAt? a n = none ↔ ∃ j, j < n ∧ m.byteAt (a + j) = none := by
  constructor
  · intro h
    induction n generalizing a with
    | zero => simp [Memory.bytesAt?] at h
    | succ n ih =>
      cases hb : m.byteAt a with
      | none => exact ⟨0, by omega, hb⟩
      | some b =>
        cases hr : m.bytesAt? (a + 1) n with
        | some bs => simp [Memory.bytesAt?, hb, hr] at h
        | none =>
          obtain ⟨j, hj, hn⟩ := ih hr
          exact ⟨j + 1, by omega, by rwa [Nat.add_assoc, Nat.add_comm 1] at hn⟩
  · rintro ⟨j, hj, hn⟩
    cases h : m.bytesAt? a n with
    | none => rfl
    | some bs =>
      obtain ⟨hl, hh⟩ := Memory.bytesAt?_eq_some.1 h
      have := hh j (hl ▸ hj)
      rw [hn, List.getElem?_eq_getElem (hl ▸ hj)] at this
      simp at this

/-- Where every byte is written, a drawing read draws nothing. -/
theorem Memory.bytesDrawn_of_holds {m : Memory} {a : Nat} {bs : List Byte} (h : m.holds a bs) (d : Nat) :
    m.bytesDrawn a bs.length d = bs := by
  refine List.ext_getElem (by simp [Memory.bytesDrawn]) fun j h1 h2 => ?_
  have := h j h2
  simp [Memory.bytesDrawn, this, h2]

@[simp] theorem Memory.bytesDrawn_length (m : Memory) (a n d : Nat) : (m.bytesDrawn a n d).length = n := by
  simp [Memory.bytesDrawn]

@[simp] theorem freeBytes_length (d n : Nat) : (freeBytes d n).length = n := by simp [freeBytes]

theorem destSpan_le (m : Memory) (L : Latch) : destSpan m L ≤ Config.ramSize - L.dstAddr.toNat :=
  Nat.min_le_right _ _

/-- The soft reset's clobbering keeps the canonical form. -/
theorem State.clobberedRam_wf {s : State} (h : s.ram.wf) : s.clobberedRam.wf := by
  unfold State.clobberedRam
  cases hl : s.latched with
  | none => exact h
  | some L =>
    have hc : s.clobberCount = destSpan s.ram L := by simp [State.clobberCount, hl]
    have hd := destSpan_le s.ram L
    by_cases h0 : destSpan s.ram L = 0
    · simpa [hc, h0, freeBytes, Memory.store] using h
    · exact Memory.wf_store h (by rw [freeBytes_length, hc]; omega)

end Sys2Proof.Machine
end

