-- ==== Sys2Proof/Laws/Ops.lean ====
section
/-! SUPPORT. One specification lemma per shared operation: the engine's reads, the range and overlap checks, running a
command, and what each command's `execute` can answer. -/

namespace Sys2Proof.Machine

/-! ### Errors and sequencing -/

@[simp] theorem Except.bind_ok {ε α β : Type} (a : α) (f : α → Except ε β) : (Except.ok a >>= f) = f a := rfl
@[simp] theorem Except.bind_error {ε α β : Type} (e : ε) (f : α → Except ε β) :
    (Except.error e >>= f) = .error e := rfl
@[simp] theorem Except.pure_eq_ok {ε α : Type} (a : α) : (pure a : Except ε α) = .ok a := rfl

/-- A successful sequence: both parts succeeded. -/
theorem Except.bind_eq_ok {ε α β : Type} {x : Except ε α} {f : α → Except ε β} {b : β} :
    (x >>= f) = .ok b ↔ ∃ a, x = .ok a ∧ f a = .ok b := by
  cases x <;> simp

/-- A failed sequence: the first part failed, or it succeeded and the second failed. -/
theorem Except.bind_eq_error {ε α β : Type} {x : Except ε α} {f : α → Except ε β} {e : ε} :
    (x >>= f) = .error e ↔ x = .error e ∨ ∃ a, x = .ok a ∧ f a = .error e := by
  cases x <;> simp

/-! ### Checks -/

theorem checkRange_of_le {a n : Nat} (h : a + n ≤ Config.ramSize) : checkRange a n = .ok () := by
  simp [checkRange, inRange, h]

theorem checkRange_of_gt {a n : Nat} (h : Config.ramSize < a + n) : checkRange a n = raise .range := by
  simp [checkRange, inRange, h]

theorem checkRange_eq_ok {a n : Nat} {u : Unit} : checkRange a n = .ok u ↔ a + n ≤ Config.ramSize := by
  unfold checkRange inRange raise; split <;> simp_all

theorem checkRange_ne_fault {a n : Nat} {f : Fault} : checkRange a n ≠ .error (.fault f) := by
  unfold checkRange raise; split <;> simp

theorem checkOverlap_of_not {a n b m : Nat} {p : Bool} (h : overlaps a n b m = false) :
    checkOverlap a n b m p = .ok () := by simp [checkOverlap, h]

/-- R129: `overlaps` is the negation of disjointness. -/
theorem overlaps_eq_false {a n b m : Nat} : overlaps a n b m = false ↔ disjointRanges a n b m := by
  unfold overlaps disjointRanges
  rw [decide_eq_false_iff_not]
  omega

theorem checkOverlap_ne_fault {a n b m : Nat} {p : Bool} {f : Fault} : checkOverlap a n b m p ≠ .error (.fault f) := by
  unfold checkOverlap raise; split <;> simp

theorem checkDigits_of_le {d : BitVec 4} (h : d.toNat ≤ 10) : checkDigits d = .ok () := by
  unfold checkDigits; rw [if_neg (by omega)]

theorem checkDigits_of_ge {d : BitVec 4} (h : 11 ≤ d.toNat) : checkDigits d = raise .badDigits := by
  unfold checkDigits; rw [if_pos h]

theorem checkDigits_eq_ok {d : BitVec 4} {u : Unit} : checkDigits d = .ok u ↔ d.toNat ≤ 10 := by
  unfold checkDigits raise; split <;> simp <;> omega

theorem checkDigits_ne_fault {d : BitVec 4} {f : Fault} : checkDigits d ≠ .error (.fault f) := by
  unfold checkDigits raise; split <;> simp

theorem b32decodeCmd_eq_ok {a : Alphabet} {t b : List Byte} : b32decodeCmd a t = .ok b ↔ b32decode a t = .ok b := by
  unfold b32decodeCmd raise; cases b32decode a t <;> simp

theorem b32decodeCmd_of_error {a : Alphabet} {t : List Byte} {c : ErrCode} (h : b32decode a t = .error c) :
    b32decodeCmd a t = raise c := by simp [b32decodeCmd, h]

theorem b32decodeCmd_ne_fault {a : Alphabet} {t : List Byte} {f : Fault} :
    b32decodeCmd a t ≠ .error (.fault f) := by
  unfold b32decodeCmd raise; cases b32decode a t <;> simp

/-! ### The engine's reads -/

/-- MemRead of written bytes gives those bytes, under either policy. -/
theorem memRead_of_holds {v : EngineView} {a d : Nat} {bs : List Byte} (h : v.ram.holds a bs) :
    v.memRead a bs.length d = .ok bs := by
  unfold EngineView.memRead
  cases v.policy with
  | draw => simp [Memory.bytesDrawn_of_holds h]
  | fault => simp [Memory.bytesAt?_eq_some.2 ⟨rfl, h⟩]

/-- Under `draw`, MemRead always answers. -/
theorem memRead_of_draw {v : EngineView} (h : v.policy = .draw) (a n d : Nat) :
    v.memRead a n d = .ok (v.ram.bytesDrawn a n (v.draws + d)) := by
  simp [EngineView.memRead, h]

/-- MemRead answers as many bytes as it was asked for. -/
theorem memRead_length {v : EngineView} {a n d : Nat} {bs : List Byte} (h : v.memRead a n d = .ok bs) :
    bs.length = n := by
  unfold EngineView.memRead at h
  split at h
  · simp only [Except.ok.injEq] at h; simp [← h]
  · split at h
    · next hb => simp only [Except.ok.injEq] at h; rw [← h]; exact Memory.bytesAt?_length hb
    · simp at h

/-- MemRead fails only on an unwritten byte of its range, and only under the policy `fault`. -/
theorem memRead_error {v : EngineView} {a n d : Nat} {x : Stop} (h : v.memRead a n d = .error x) :
    v.policy = .fault ∧ x = .fault (.unwrittenEngineRead a) ∧ ∃ j, j < n ∧ v.ram.byteAt (a + j) = none := by
  unfold EngineView.memRead at h
  split at h
  · simp at h
  · next hp =>
    split at h
    · simp at h
    · next hn => exact ⟨hp, by simpa using h.symm, Memory.bytesAt?_eq_none.1 hn⟩

/-- Under the policy `fault` an unwritten byte of its range stops MemRead. -/
theorem memRead_of_unwritten {v : EngineView} (hp : v.policy = .fault) {a n j : Nat} (hj : j < n)
    (h : v.ram.byteAt (a + j) = none) (d : Nat) : v.memRead a n d = .error (.fault (.unwrittenEngineRead a)) := by
  simp only [EngineView.memRead, hp, Memory.bytesAt?_eq_none.2 ⟨j, hj, h⟩]

theorem fetchSource_of_holds {L : Latch} {v : EngineView} {bs : List Byte} (h : operandHolds v.ram L.srcAddr L.srcLen bs) :
    fetchSource L v = .ok bs := by
  rw [fetchSource, ← h.1]; exact memRead_of_holds h.2.2

theorem fetchKey_of_holds {L : Latch} {v : EngineView} {bs : List Byte} (h : operandHolds v.ram L.keyAddr L.keyLen bs) :
    fetchKey L v = .ok bs := by
  rw [fetchKey, checkRange_of_le h.2.1, Except.bind_ok, ← h.1]; exact memRead_of_holds h.2.2

/-- The key operand's bytes, under either policy. -/
theorem keyBytes_of_operand {L : Latch} {v : EngineView} {key : KeyForm} {k : List Byte}
    (h : keyOperandIs v.ram L key k) : keyBytes key L v = .ok k := by
  cases key with
  | raw => simp only [keyBytes, fetchKey_of_holds h, Except.bind_ok]; rfl
  | b32 a =>
    obtain ⟨text, ht, hd⟩ := h
    simp only [keyBytes, fetchKey_of_holds ht, Except.bind_ok]
    exact b32decodeCmd_eq_ok.2 hd

/-- Once the range check has passed, only an unwritten source byte stops the fetch of the source. -/
theorem fetchSource_fault {L : Latch} {v : EngineView} {f : Fault} (h : fetchSource L v = .error (.fault f))
    (hr : L.srcAddr.toNat + L.srcLen.toNat ≤ Config.ramSize) :
    v.policy = .fault ∧ f = .unwrittenEngineRead L.srcAddr.toNat ∧ holdsUnwritten v.ram L.srcAddr L.srcLen := by
  obtain ⟨hp, hf, hn⟩ := memRead_error h
  exact ⟨hp, by simpa using hf, hr, hn⟩

theorem fetchSource_of_unwritten {L : Latch} {v : EngineView} (hp : v.policy = .fault)
    (h : holdsUnwritten v.ram L.srcAddr L.srcLen) :
    fetchSource L v = .error (.fault (.unwrittenEngineRead L.srcAddr.toNat)) := by
  obtain ⟨-, j, hj, hn⟩ := h
  exact memRead_of_unwritten hp hj hn 0

/-- Only an unwritten key byte stops the fetch of the key by a fault. -/
theorem keyBytes_fault {L : Latch} {v : EngineView} {key : KeyForm} {f : Fault}
    (h : keyBytes key L v = .error (.fault f)) :
    v.policy = .fault ∧ f = .unwrittenEngineRead L.keyAddr.toNat ∧ holdsUnwritten v.ram L.keyAddr L.keyLen := by
  simp only [keyBytes, Except.bind_eq_error, fetchKey, checkRange_ne_fault, false_or] at h
  rcases h with ⟨_, hr, h⟩ | ⟨t, -, h⟩
  · obtain ⟨hp, hf, hn⟩ := memRead_error h
    exact ⟨hp, by simpa using hf, checkRange_eq_ok.1 hr, hn⟩
  · cases key with
    | raw => simp at h
    | b32 a => exact absurd h b32decodeCmd_ne_fault

theorem keyBytes_of_unwritten {L : Latch} {v : EngineView} (key : KeyForm) (hp : v.policy = .fault)
    (h : holdsUnwritten v.ram L.keyAddr L.keyLen) :
    keyBytes key L v = .error (.fault (.unwrittenEngineRead L.keyAddr.toNat)) := by
  obtain ⟨hr, j, hj, hn⟩ := h
  simp only [keyBytes, fetchKey, checkRange_of_le hr, Except.bind_ok, memRead_of_unwritten hp hj hn,
    Except.bind_error]

/-! ### Running a command -/

/-- All that a command's engine step can answer. -/
theorem runCommand_next {otp : Bool} {body : Latch → EngineView → Except Stop Writes} {s t : State}
    (h : runCommand otp body s = .next t) :
    ∃ L, s.latched = some L ∧
      ((∃ w, body L s.engineView = .ok w ∧ t = (s.consume L).complete w)
        ∨ ∃ c, body L s.engineView = .error (.code c) ∧ t = (s.consume L).errorCompletion otp c) := by
  unfold runCommand at h
  split at h
  · simp at h
  · next L hL =>
    refine ⟨L, hL, ?_⟩
    split at h
    · next w hw => exact .inl ⟨w, hw, by simpa using h.symm⟩
    · next c hc => exact .inr ⟨c, hc, by simpa using h.symm⟩
    · simp at h

theorem runCommand_of_ok {otp : Bool} {body : Latch → EngineView → Except Stop Writes} {s : State} {L : Latch}
    {w : Writes} (hL : s.latched = some L) (h : body L s.engineView = .ok w) :
    runCommand otp body s = .next ((s.consume L).complete w) := by
  simp [runCommand, hL, h]

theorem runCommand_of_error {otp : Bool} {body : Latch → EngineView → Except Stop Writes} {s : State} {L : Latch}
    {c : ErrCode} (hL : s.latched = some L) (h : body L s.engineView = .error (.code c)) :
    runCommand otp body s = .next ((s.consume L).errorCompletion otp c) := by
  simp [runCommand, hL, h]

theorem runCommand_fault {otp : Bool} {body : Latch → EngineView → Except Stop Writes} {s : State} {f : Fault}
    (h : runCommand otp body s = .fault f) :
    (s.latched = none ∧ f = .noCommandLatched)
      ∨ ∃ L, s.latched = some L ∧ body L s.engineView = .error (.fault f) := by
  unfold runCommand at h
  split at h
  · next hn => exact .inl ⟨hn, by simpa using h.symm⟩
  · next L hL =>
    split at h
    · simp at h
    · simp at h
    · next g hg => exact .inr ⟨L, hL, by simp only [Host.Outcome.fault.injEq] at h; rw [← h]; exact hg⟩

theorem runCommand_ne_refused {otp : Bool} {body : Latch → EngineView → Except Stop Writes} {s : State} {r : Refusal} :
    runCommand otp body s ≠ .refused r := by
  unfold runCommand
  split
  · simp
  · split <;> simp

theorem completedOk_complete (s : State) (L : Latch) (w : Writes) : completedOk s ((s.consume L).complete w) w.step0 :=
  ⟨by simp, by simp⟩

theorem completedErr_errorCompletion (s : State) (L : Latch) (otp : Bool) (c : ErrCode) :
    completedErr s ((s.consume L).errorCompletion otp c) otp c := by
  refine ⟨by simp, by simp, by simp, by simp, ?_, ?_, by simp, by simp⟩
  · rintro rfl; simp [Results.failed]
  · rintro rfl; simp [Results.failed]

theorem completedErr_badCommand (s : State) (L : Latch) (c : ErrCode) :
    completedErr s (s.badCommand L c) (isOtpWord L.cmd) c := by
  refine ⟨by simp [State.badCommand], by simp [State.badCommand], by simp [State.badCommand],
    by simp [State.badCommand], ?_, ?_, by simp [State.badCommand], by simp [State.badCommand]⟩
  · intro h; simp [State.badCommand, Results.failed, h]
  · intro h; simp [State.badCommand, Results.failed, h]

/-! ### What each command writes when it succeeds -/

theorem nopBody_ok {L : Latch} {v : EngineView} {w : Writes} (h : nopBody L v = .ok w) : w = { resLen := 0 } := by
  simpa [nopBody] using h.symm

theorem b32encBody_ok {a : Alphabet} {L : Latch} {v : EngineView} {w : Writes} (h : b32encBody a L v = .ok w) :
    L.srcAddr.toNat + L.srcLen.toNat ≤ Config.ramSize
    ∧ L.dstAddr.toNat + encodedLength L.srcLen.toNat ≤ Config.ramSize
    ∧ ∃ bs, fetchSource L v = .ok bs ∧ w = writeDest L (b32encode a bs) := by
  simp only [b32encBody, checkSource, Except.bind_eq_ok, checkRange_eq_ok, exists_and_left, exists_const,
    Except.pure_eq_ok, Except.ok.injEq] at h
  obtain ⟨h1, h2, -, -, bs, hbs, rfl⟩ := h
  exact ⟨h1, h2, bs, hbs, rfl⟩

theorem b32decBody_ok {a : Alphabet} {L : Latch} {v : EngineView} {w : Writes} (h : b32decBody a L v = .ok w) :
    L.srcAddr.toNat + L.srcLen.toNat ≤ Config.ramSize
    ∧ ∃ text bs, fetchSource L v = .ok text ∧ b32decode a text = .ok bs
      ∧ L.dstAddr.toNat + bs.length ≤ Config.ramSize ∧ w = writeDest L bs := by
  simp only [b32decBody, checkSource, Except.bind_eq_ok, checkRange_eq_ok, exists_and_left, exists_const,
    Except.pure_eq_ok, Except.ok.injEq, b32decodeCmd_eq_ok] at h
  obtain ⟨h1, text, ht, bs, hb, h2, -, -, rfl⟩ := h
  exact ⟨h1, text, bs, ht, hb, h2, rfl⟩

theorem sha1Body_ok {L : Latch} {v : EngineView} {w : Writes} (h : sha1Body L v = .ok w) :
    ∃ m, fetchSource L v = .ok m ∧ w = { digest := some (Words5.ofBytes (sha1 m)), resLen := 0 } := by
  simp only [sha1Body, checkSource, Except.bind_eq_ok, checkRange_eq_ok, exists_and_left, exists_const,
    Except.pure_eq_ok, Except.ok.injEq] at h
  obtain ⟨-, m, hm, rfl⟩ := h
  exact ⟨m, hm, rfl⟩

theorem hmacBody_ok {key : KeyForm} {L : Latch} {v : EngineView} {w : Writes} (h : hmacBody key L v = .ok w) :
    ∃ k m, keyBytes key L v = .ok k ∧ fetchSource L v = .ok m
      ∧ w = { digest := some (Words5.ofBytes (hmacSha1 k m)), resLen := 0 } := by
  simp only [hmacBody, checkSource, Except.bind_eq_ok, checkRange_eq_ok, exists_and_left, exists_const,
    Except.pure_eq_ok, Except.ok.injEq] at h
  obtain ⟨-, k, hk, m, hm, rfl⟩ := h
  exact ⟨k, m, hk, hm, rfl⟩

theorem hotpBody_ok {key : KeyForm} {d : BitVec 4} {L : Latch} {v : EngineView} {w : Writes}
    (h : hotpBody key d L v = .ok w) :
    d.toNat ≤ 10 ∧ ∃ k, keyBytes key L v = .ok k ∧ w = otpWrites k L.cnt.toNat (digitCount d) := by
  simp only [hotpBody, Except.bind_eq_ok, checkDigits_eq_ok, exists_and_left, exists_const, Except.pure_eq_ok,
    Except.ok.injEq] at h
  obtain ⟨hd, k, hk, rfl⟩ := h
  exact ⟨hd, k, hk, rfl⟩

theorem totpBody_ok {key : KeyForm} {d : BitVec 4} {L : Latch} {v : EngineView} {w : Writes}
    (h : totpBody key d L v = .ok w) :
    d.toNat ≤ 10 ∧ ∃ k, keyBytes key L v = .ok k
      ∧ w = { otpWrites k (totpCounter L.time.toNat L.step.toNat) (digitCount d) with
              cnt := some (BitVec.ofNat 64 (totpCounter L.time.toNat L.step.toNat)), step0 := L.step == 0 } := by
  simp only [totpBody, Except.bind_eq_ok, checkDigits_eq_ok, exists_and_left, exists_const, Except.pure_eq_ok,
    Except.ok.injEq] at h
  obtain ⟨hd, k, hk, rfl⟩ := h
  exact ⟨hd, k, hk, rfl⟩

theorem aesChecks_ok {L : Latch} {n : Nat} (h : aesChecks L = .ok n) :
    L.srcLen.toNat % 16 = 0 ∧ L.srcAddr.toNat + L.srcLen.toNat ≤ Config.ramSize
    ∧ L.dstAddr.toNat + L.srcLen.toNat ≤ Config.ramSize ∧ n = L.srcLen.toNat / 16 := by
  unfold aesChecks at h
  split at h
  · simp [raise] at h
  · next h0 =>
    simp only [Except.bind_ok, Except.bind_eq_ok, checkRange_eq_ok, exists_and_left, exists_const,
      Except.pure_eq_ok, Except.ok.injEq] at h
    obtain ⟨h1, h2, -, -, h3⟩ := h
    exact ⟨by omega, h1, h2, h3.symm⟩

theorem aesInput_ok {L : Latch} {v : EngineView} {p : List (List Byte)} (h : aesInput L v = .ok p) :
    L.srcLen.toNat % 16 = 0 ∧ L.dstAddr.toNat + L.srcLen.toNat ≤ Config.ramSize
    ∧ ∃ bs, fetchSource L v = .ok bs ∧ p = blocks16 bs (L.srcLen.toNat / 16) := by
  simp only [aesInput, Except.bind_eq_ok, Except.pure_eq_ok, Except.ok.injEq] at h
  obtain ⟨n, hn, bs, hbs, rfl⟩ := h
  obtain ⟨h0, -, h2, rfl⟩ := aesChecks_ok hn
  exact ⟨h0, h2, bs, hbs, rfl⟩

/-- R242: the checks of the AES commands pass on a whole number of blocks, in range, disjoint or exactly in place. -/
theorem aesChecks_of {L : Latch} (h16 : L.srcLen.toNat % 16 = 0)
    (hs : L.srcAddr.toNat + L.srcLen.toNat ≤ Config.ramSize) (hd : L.dstAddr.toNat + L.srcLen.toNat ≤ Config.ramSize)
    (ho : L.dstAddr = L.srcAddr ∨ disjointRanges L.srcAddr.toNat L.srcLen.toNat L.dstAddr.toNat L.srcLen.toNat) :
    aesChecks L = .ok (L.srcLen.toNat / 16) := by
  have hov : checkOverlap L.srcAddr.toNat L.srcLen.toNat L.dstAddr.toNat L.srcLen.toNat true = .ok () := by
    rcases ho with h | h
    · simp [checkOverlap, h]
    · exact checkOverlap_of_not (overlaps_eq_false.2 h)
  simp only [aesChecks, h16, checkRange_of_le hs, checkRange_of_le hd, hov]
  rfl

theorem aesChecks_ne_fault {L : Latch} {f : Fault} : aesChecks L ≠ .error (.fault f) := by
  intro h
  unfold aesChecks at h
  split at h
  · simp [raise] at h
  · simp [Except.bind_eq_error, checkRange_ne_fault, checkOverlap_ne_fault] at h

/-- Only an unwritten source byte stops an AES command. -/
theorem aesInput_fault {L : Latch} {v : EngineView} {f : Fault} (h : aesInput L v = .error (.fault f)) :
    v.policy = .fault ∧ f = .unwrittenEngineRead L.srcAddr.toNat ∧ holdsUnwritten v.ram L.srcAddr L.srcLen := by
  simp only [aesInput, Except.bind_eq_error, aesChecks_ne_fault, false_or, Except.pure_eq_ok, reduceCtorEq, and_false,
    exists_false, or_false] at h
  obtain ⟨n, hn, h⟩ := h
  exact fetchSource_fault h (aesChecks_ok hn).2.1

theorem aesInput_of_holds {L : Latch} {v : EngineView} {bs : List Byte} (hs : operandHolds v.ram L.srcAddr L.srcLen bs)
    (hc : aesChecks L = .ok (L.srcLen.toNat / 16)) : aesInput L v = .ok (blocks16 bs (L.srcLen.toNat / 16)) := by
  simp only [aesInput, hc, fetchSource_of_holds hs, Except.bind_ok, Except.pure_eq_ok]

theorem aesEcbEncBody_ok {ks : KeySize} {L : Latch} {v : EngineView} {w : Writes} (h : aesEcbEncBody ks L v = .ok w) :
    ∃ p, aesInput L v = .ok p ∧ w = writeDest L (ecbEncrypt ks (aesKeyBytes L ks) p).flatten := by
  simp only [aesEcbEncBody, Except.bind_eq_ok, Except.pure_eq_ok, Except.ok.injEq] at h
  obtain ⟨p, hp, rfl⟩ := h
  exact ⟨p, hp, rfl⟩

theorem aesEcbDecBody_ok {ks : KeySize} {L : Latch} {v : EngineView} {w : Writes} (h : aesEcbDecBody ks L v = .ok w) :
    ∃ c, aesInput L v = .ok c ∧ w = writeDest L (ecbDecrypt ks (aesKeyBytes L ks) c).flatten := by
  simp only [aesEcbDecBody, Except.bind_eq_ok, Except.pure_eq_ok, Except.ok.injEq] at h
  obtain ⟨c, hc, rfl⟩ := h
  exact ⟨c, hc, rfl⟩

theorem aesCbcEncBody_ok {ks : KeySize} {L : Latch} {v : EngineView} {w : Writes} (h : aesCbcEncBody ks L v = .ok w) :
    ∃ p, aesInput L v = .ok p
      ∧ w = { writeDest L (cbcEncrypt ks (aesKeyBytes L ks) L.iv.bytes p).flatten with
              iv := chainedIv (cbcEncrypt ks (aesKeyBytes L ks) L.iv.bytes p) } := by
  simp only [aesCbcEncBody, Except.bind_eq_ok, Except.pure_eq_ok, Except.ok.injEq] at h
  obtain ⟨p, hp, rfl⟩ := h
  exact ⟨p, hp, rfl⟩

theorem aesCbcDecBody_ok {ks : KeySize} {L : Latch} {v : EngineView} {w : Writes} (h : aesCbcDecBody ks L v = .ok w) :
    ∃ c, aesInput L v = .ok c
      ∧ w = { writeDest L (cbcDecrypt ks (aesKeyBytes L ks) L.iv.bytes c).flatten with iv := chainedIv c } := by
  simp only [aesCbcDecBody, Except.bind_eq_ok, Except.pure_eq_ok, Except.ok.injEq] at h
  obtain ⟨c, hc, rfl⟩ := h
  exact ⟨c, hc, rfl⟩

end Sys2Proof.Machine
end

