-- ==== Sys2Proof/Laws/Lengths.lean ====
section
/-! SUPPORT. The lengths of the byte strings the commands compute. -/

namespace Sys2Proof.Machine

@[simp] theorem beBytes_length (n v : Nat) : (beBytes n v).length = n := by simp [beBytes]
@[simp] theorem wordBytes_length (w : Word) : (wordBytes w).length = 4 := rfl
@[simp] theorem Words4.bytes_length (w : Words4) : w.bytes.length = 16 := rfl
@[simp] theorem Words5.bytes_length (w : Words5) : w.bytes.length = 20 := rfl
@[simp] theorem Words8.bytes_length (w : Words8) : w.bytes.length = 32 := rfl

@[simp] theorem xorBytes_length (x y : List Byte) : (xorBytes x y).length = min x.length y.length := by
  simp [xorBytes]

@[simp] theorem HashState.digest_length (h : HashState) : h.digest.length = 20 := by simp [HashState.digest]
@[simp] theorem sha1_length (m : List Byte) : (sha1 m).length = 20 := by simp [sha1]
@[simp] theorem hmacSha1_length (k m : List Byte) : (hmacSha1 k m).length = 20 := by simp [hmacSha1]
@[simp] theorem hotpDigest_length (k : List Byte) (c : Nat) : (hotpDigest k c).length = 20 := by simp [hotpDigest]

@[simp] theorem decimalString_length (c d : Nat) : (decimalString c d).length = d := by simp [decimalString]

/-! ### Base32 -/

@[simp] theorem groupSymbols_length (b0 b1 b2 b3 b4 : Byte) : (groupSymbols b0 b1 b2 b3 b4).length = 8 := rfl
@[simp] theorem groupBytes_length (v0 v1 v2 v3 v4 v5 v6 v7 : Byte) :
    (groupBytes v0 v1 v2 v3 v4 v5 v6 v7).length = 5 := rfl

theorem encodeFinal_length (a : Alphabet) {r : Nat} (h : r ≤ 4) (b0 b1 b2 b3 : Byte) :
    (encodeFinal a r b0 b1 b2 b3).length = 8 := by
  simp only [encodeFinal, List.length_append, List.length_map, List.length_take, groupSymbols_length,
    List.length_replicate]
  interval_cases r <;> rfl

/-- R153: the output length of the encoder. -/
theorem b32encode_length (a : Alphabet) (b : List Byte) : (b32encode a b).length = encodedLength b.length := by
  induction b using b32encode.induct with
  | case1 => rfl
  | case2 b0 => simp [b32encode, encodeFinal_length, encodedLength]
  | case3 b0 b1 => simp [b32encode, encodeFinal_length, encodedLength]
  | case4 b0 b1 b2 => simp [b32encode, encodeFinal_length, encodedLength]
  | case5 b0 b1 b2 b3 => simp [b32encode, encodeFinal_length, encodedLength]
  | case6 b0 b1 b2 b3 b4 rest ih =>
    simp only [b32encode, List.length_append, List.length_map, groupSymbols_length, ih, encodedLength,
      List.length_cons]
    omega

theorem encodedLength_le {n : Nat} (h : n ≤ Config.ramSize) : encodedLength n ≤ 6560 := by
  have : n ≤ 4096 := h
  unfold encodedLength; omega

/-! ### AES -/

@[simp] theorem Column.bytes_length (c : Column) : c.bytes.length = 4 := rfl
@[simp] theorem storeState_length (s : AesState) : (storeState s).length = 16 := rfl
@[simp] theorem aesEncrypt_length (ks : KeySize) (k x : List Byte) : (aesEncrypt ks k x).length = 16 := rfl
@[simp] theorem aesDecrypt_length (ks : KeySize) (k x : List Byte) : (aesDecrypt ks k x).length = 16 := rfl

@[simp] theorem blocks16_count (b : List Byte) (n : Nat) : (blocks16 b n).length = n := by
  induction n generalizing b with
  | zero => rfl
  | succ n ih => simp [blocks16, ih]

theorem blocks16_block_length {b : List Byte} {n : Nat} (h : b.length = 16 * n) :
    ∀ x ∈ blocks16 b n, x.length = 16 := by
  induction n generalizing b with
  | zero => simp [blocks16]
  | succ n ih =>
    intro x hx
    rcases List.mem_cons.1 hx with rfl | hx
    · simp; omega
    · exact ih (b := b.drop 16) (by simp; omega) x hx

theorem flatten_length_16 {bs : List (List Byte)} (h : ∀ x ∈ bs, x.length = 16) :
    bs.flatten.length = 16 * bs.length := by
  induction bs with
  | nil => rfl
  | cons b bs ih =>
    have h1 := h b (by simp)
    have h2 := ih fun x hx => h x (by simp [hx])
    simp only [List.flatten_cons, List.length_append, h1, h2, List.length_cons]
    omega

theorem blocks16_flatten {b : List Byte} {n : Nat} (h : b.length = 16 * n) : (blocks16 b n).flatten = b := by
  induction n generalizing b with
  | zero => simp_all [blocks16]
  | succ n ih =>
    simp only [blocks16, List.flatten_cons]
    rw [ih (by simp; omega), List.take_append_drop]

@[simp] theorem cbcEncrypt_count (ks : KeySize) (k prev : List Byte) (ps : List (List Byte)) :
    (cbcEncrypt ks k prev ps).length = ps.length := by
  induction ps generalizing prev with
  | nil => rfl
  | cons p ps ih => simp [cbcEncrypt, ih]

@[simp] theorem cbcDecrypt_count (ks : KeySize) (k prev : List Byte) (cs : List (List Byte)) :
    (cbcDecrypt ks k prev cs).length = cs.length := by
  induction cs generalizing prev with
  | nil => rfl
  | cons c cs ih => simp [cbcDecrypt, ih]

theorem cbcEncrypt_block_length (ks : KeySize) (k prev : List Byte) (ps : List (List Byte)) :
    ∀ x ∈ cbcEncrypt ks k prev ps, x.length = 16 := by
  induction ps generalizing prev with
  | nil => simp [cbcEncrypt]
  | cons p ps ih =>
    intro x hx
    rcases List.mem_cons.1 hx with rfl | hx
    · simp
    · exact ih _ x hx

theorem cbcDecrypt_block_length {ks : KeySize} {k prev : List Byte} {cs : List (List Byte)} (hp : prev.length = 16)
    (h : ∀ x ∈ cs, x.length = 16) : ∀ x ∈ cbcDecrypt ks k prev cs, x.length = 16 := by
  induction cs generalizing prev with
  | nil => simp [cbcDecrypt]
  | cons c cs ih =>
    intro x hx
    rcases List.mem_cons.1 hx with rfl | hx
    · simp [hp]
    · exact ih (h c (by simp)) (fun y hy => h y (by simp [hy])) x hx

theorem ecbEncrypt_flatten_length (ks : KeySize) (k : List Byte) (ps : List (List Byte)) :
    (ecbEncrypt ks k ps).flatten.length = 16 * ps.length := by
  rw [flatten_length_16 (by simp [ecbEncrypt])]; simp [ecbEncrypt]

theorem ecbDecrypt_flatten_length (ks : KeySize) (k : List Byte) (cs : List (List Byte)) :
    (ecbDecrypt ks k cs).flatten.length = 16 * cs.length := by
  rw [flatten_length_16 (by simp [ecbDecrypt])]; simp [ecbDecrypt]

theorem cbcEncrypt_flatten_length (ks : KeySize) (k prev : List Byte) (ps : List (List Byte)) :
    (cbcEncrypt ks k prev ps).flatten.length = 16 * ps.length := by
  rw [flatten_length_16 (cbcEncrypt_block_length ks k prev ps), cbcEncrypt_count]

theorem cbcDecrypt_flatten_length {ks : KeySize} {k prev : List Byte} {cs : List (List Byte)} (hp : prev.length = 16)
    (h : ∀ x ∈ cs, x.length = 16) : (cbcDecrypt ks k prev cs).flatten.length = 16 * cs.length := by
  rw [flatten_length_16 (cbcDecrypt_block_length hp h), cbcDecrypt_count]

end Sys2Proof.Machine
end

