-- ==== Sys2Proof/Laws/Bytes.lean ====
section
/-! SUPPORT. Bytes of words and register groups: the lanes of R25 and R63 give back what was put in. -/

namespace Sys2Proof.Machine

/-- R25: every bit of a little-endian word. -/
theorem leWord_getLsbD (a b c d : Byte) (i : Nat) :
    (leWord a b c d).getLsbD i =
      if i < 8 then a.getLsbD i else if i < 16 then b.getLsbD (i - 8)
      else if i < 24 then c.getLsbD (i - 16) else d.getLsbD (i - 24) := by
  have h := BitVec.getLsbD_append (i := i) (x := d ++ c ++ b) (y := a)
  have h2 := BitVec.getLsbD_append (i := i - 8) (x := d ++ c) (y := b)
  have h3 := BitVec.getLsbD_append (i := i - 8 - 8) (x := d) (y := c)
  unfold leWord
  refine h.trans ?_
  rw [h2, h3, show i - 8 - 8 = i - 16 by omega, show i - 16 - 8 = i - 24 by omega]
  by_cases h8 : i < 8
  · rw [if_pos h8, if_pos h8]
  · rw [if_neg h8, if_neg h8]
    by_cases h16 : i < 16
    · rw [if_pos (by omega), if_pos h16]
    · rw [if_neg (by omega), if_neg h16]
      by_cases h24 : i < 24
      · rw [if_pos (by omega), if_pos h24]
      · rw [if_neg (by omega), if_neg h24]

theorem wordBytes_leWord (a b c d : Byte) : wordBytes (leWord a b c d) = [a, b, c, d] := by
  simp only [wordBytes, lane, List.cons.injEq, and_true]
  refine ⟨?_, ?_, ?_, ?_⟩ <;> refine BitVec.eq_of_getLsbD_eq fun i hi => ?_ <;>
    rw [BitVec.getLsbD_extractLsb', leWord_getLsbD]
  · simp [hi]
  · simp [hi, show 8 + i < 16 by omega]
  · simp [hi, show ¬ 16 + i < 16 by omega, show 16 + i < 24 by omega, show ¬ 16 + i < 8 by omega]
  · simp [hi, show ¬ 24 + i < 16 by omega, show ¬ 24 + i < 24 by omega, show ¬ 24 + i < 8 by omega]

/-- R25: a 12-byte string comes back from its registers. -/
theorem Words3.bytes_ofBytes {s : List Byte} (h : s.length = 12) : (Words3.ofBytes s).bytes = s := by
  simp only [Words3.ofBytes, Words3.bytes, wordAt, wordBytes_leWord]
  refine List.ext_getElem (by simp [h]) fun i _ h2 => ?_
  rw [h] at h2
  interval_cases i <;> simp [h]

/-- R25: a 16-byte string comes back from its registers. -/
theorem Words4.bytes_ofBytes {s : List Byte} (h : s.length = 16) : (Words4.ofBytes s).bytes = s := by
  simp only [Words4.ofBytes, Words4.bytes, wordAt, wordBytes_leWord]
  refine List.ext_getElem (by simp [h]) fun i _ h2 => ?_
  rw [h] at h2
  interval_cases i <;> simp [h]

/-- R25: a 20-byte string comes back from its registers. -/
theorem Words5.bytes_ofBytes {s : List Byte} (h : s.length = 20) : (Words5.ofBytes s).bytes = s := by
  simp only [Words5.ofBytes, Words5.bytes, wordAt, wordBytes_leWord]
  refine List.ext_getElem (by simp [h]) fun i _ h2 => ?_
  rw [h] at h2
  interval_cases i <;> simp [h]

/-- R25: byte `k` of a group is lane `k mod 4` of register `k div 4`. -/
theorem Words3.bytes_getElem? (w : Words3) {k : Nat} (h : k < 12) :
    w.bytes[k]? = some ((w.get (k / 4)).extractLsb' (8 * (k % 4)) 8) := by
  interval_cases k <;> rfl

/-- R25: byte `k` of a group is lane `k mod 4` of register `k div 4`. -/
theorem Words4.bytes_getElem? (w : Words4) {k : Nat} (h : k < 16) :
    w.bytes[k]? = some ((w.get (k / 4)).extractLsb' (8 * (k % 4)) 8) := by
  interval_cases k <;> rfl

/-- R25: byte `k` of a group is lane `k mod 4` of register `k div 4`. -/
theorem Words5.bytes_getElem? (w : Words5) {k : Nat} (h : k < 20) :
    w.bytes[k]? = some ((w.get (k / 4)).extractLsb' (8 * (k % 4)) 8) := by
  interval_cases k <;> rfl

end Sys2Proof.Machine
end

