-- ==== Sys2Proof/Laws/Aes.lean ====
section
/-! SUPPORT. Laws of the AES transformations: each of them undoes its inverse; the key schedule's
recurrence; what a round does to one byte of the state; blocks and chaining across a split. -/

namespace Sys2Proof.Machine

theorem Byte.xor_left_comm (x y z : Byte) : x ^^^ (y ^^^ z) = y ^^^ (x ^^^ z) := by
  rw [← BitVec.xor_assoc, BitVec.xor_comm x y, BitVec.xor_assoc]

/-! ### MixColumns (R236) -/

/-- R236: multiplication by x is additive. -/
theorem xtime_xor (a b : Byte) : xtime (a ^^^ b) = xtime a ^^^ xtime b := by
  simp only [xtime, BitVec.getLsbD_xor, BitVec.shiftLeft_xor_distrib]
  cases a.getLsbD 7 <;> cases b.getLsbD 7 <;>
    simp [BitVec.xor_assoc, BitVec.xor_comm, Byte.xor_left_comm]

theorem mixColumn_xor (a b : Column) : mixColumn (a.xor b) = (mixColumn a).xor (mixColumn b) := by
  simp only [mixColumn, Column.xor, mul3, xtime_xor, Column.mk.injEq]
  refine ⟨?_, ?_, ?_, ?_⟩ <;> simp only [BitVec.xor_assoc, BitVec.xor_comm, Byte.xor_left_comm]

theorem invMixColumn_xor (a b : Column) : invMixColumn (a.xor b) = (invMixColumn a).xor (invMixColumn b) := by
  have h9 (x y : Byte) : mul9 (x ^^^ y) = mul9 x ^^^ mul9 y := by
    simp only [mul9, xtime_xor, BitVec.xor_assoc, BitVec.xor_comm, Byte.xor_left_comm]
  have h11 (x y : Byte) : mul11 (x ^^^ y) = mul11 x ^^^ mul11 y := by
    simp only [mul11, xtime_xor, BitVec.xor_assoc, BitVec.xor_comm, Byte.xor_left_comm]
  have h13 (x y : Byte) : mul13 (x ^^^ y) = mul13 x ^^^ mul13 y := by
    simp only [mul13, xtime_xor, BitVec.xor_assoc, BitVec.xor_comm, Byte.xor_left_comm]
  have h14 (x y : Byte) : mul14 (x ^^^ y) = mul14 x ^^^ mul14 y := by
    simp only [mul14, xtime_xor, BitVec.xor_assoc, BitVec.xor_comm, Byte.xor_left_comm]
  simp only [invMixColumn, Column.xor, h9, h11, h13, h14, Column.mk.injEq]
  refine ⟨?_, ?_, ?_, ?_⟩ <;> simp only [BitVec.xor_assoc, BitVec.xor_comm, Byte.xor_left_comm]

/-- Every column is the sum of its four rows. -/
theorem Column.sum_rows (c : Column) :
    c = ((⟨c.r0, 0, 0, 0⟩ : Column).xor ⟨0, c.r1, 0, 0⟩).xor ((⟨0, 0, c.r2, 0⟩ : Column).xor ⟨0, 0, 0, c.r3⟩) := by
  simp [Column.xor]

/-- R236: InvMixColumns undoes MixColumns, and the other way round. -/
theorem invMixColumn_mixColumn (c : Column) : invMixColumn (mixColumn c) = c ∧ mixColumn (invMixColumn c) = c := by
  have h0 : ∀ a : Byte, invMixColumn (mixColumn ⟨a, 0, 0, 0⟩) = ⟨a, 0, 0, 0⟩
      ∧ mixColumn (invMixColumn ⟨a, 0, 0, 0⟩) = ⟨a, 0, 0, 0⟩ := by decide +kernel
  have h1 : ∀ a : Byte, invMixColumn (mixColumn ⟨0, a, 0, 0⟩) = ⟨0, a, 0, 0⟩
      ∧ mixColumn (invMixColumn ⟨0, a, 0, 0⟩) = ⟨0, a, 0, 0⟩ := by decide +kernel
  have h2 : ∀ a : Byte, invMixColumn (mixColumn ⟨0, 0, a, 0⟩) = ⟨0, 0, a, 0⟩
      ∧ mixColumn (invMixColumn ⟨0, 0, a, 0⟩) = ⟨0, 0, a, 0⟩ := by decide +kernel
  have h3 : ∀ a : Byte, invMixColumn (mixColumn ⟨0, 0, 0, a⟩) = ⟨0, 0, 0, a⟩
      ∧ mixColumn (invMixColumn ⟨0, 0, 0, a⟩) = ⟨0, 0, 0, a⟩ := by decide +kernel
  rw [Column.sum_rows c]
  simp only [mixColumn_xor, invMixColumn_xor, h0, h1, h2, h3, and_self]

/-! ### SubBytes, ShiftRows, AddRoundKey (R235) -/

/-- R234: the two S-boxes undo each other. -/
theorem invSubBytes_subBytes (s : AesState) : invSubBytes (subBytes s) = s ∧ subBytes (invSubBytes s) = s := by
  have h1 : ∀ x : Byte, invSbox (sbox x) = x := by decide +kernel
  have h2 : ∀ x : Byte, sbox (invSbox x) = x := by decide +kernel
  constructor <;> simp [invSubBytes, subBytes, AesState.mapColumns, Column.map, h1, h2]

theorem invShiftRows_shiftRows (s : AesState) : invShiftRows (shiftRows s) = s ∧ shiftRows (invShiftRows s) = s :=
  ⟨rfl, rfl⟩

theorem addRoundKey_twice (k s : AesState) : addRoundKey k (addRoundKey k s) = s := by
  simp [addRoundKey, Column.xor]

/-! ### Blocks (R232) -/

theorem loadState_storeState (s : AesState) : loadState (storeState s) = s := rfl

theorem storeState_loadState {x : List Byte} (h : x.length = 16) : storeState (loadState x) = x := by
  refine List.ext_getElem (by simp [h]) fun i _ h2 => ?_
  rw [h] at h2
  interval_cases i <;> simp [storeState, loadState, loadColumn, Column.bytes, h]

/-! ### Bytes of a column and of the state (R232) -/

/-- Row `r` of a column. -/
def Column.row (c : Column) : Nat → Byte
  | 0 => c.r0
  | 1 => c.r1
  | 2 => c.r2
  | _ => c.r3

/-- Row `r`, column `c` of the state. -/
def AesState.cell (s : AesState) (r : Nat) : Nat → Byte
  | 0 => s.c0.row r
  | 1 => s.c1.row r
  | 2 => s.c2.row r
  | _ => s.c3.row r

@[simp] theorem Column.row_xor (a b : Column) (r : Nat) : (a.xor b).row r = a.row r ^^^ b.row r := by
  unfold Column.row; split <;> rfl

@[simp] theorem Column.row_map (f : Byte → Byte) (a : Column) (r : Nat) : (a.map f).row r = f (a.row r) := by
  unfold Column.row; split <;> rfl

theorem storeState_getElem? (s : AesState) {r c : Nat} (hr : r < 4) (hc : c < 4) :
    (storeState s)[r + 4 * c]? = some (s.cell r c) := by
  interval_cases r <;> interval_cases c <;> rfl

theorem loadState_cell {x : List Byte} (hx : x.length = 16) {r c : Nat} (hr : r < 4) (hc : c < 4) :
    x[r + 4 * c]? = some ((loadState x).cell r c) := by
  rw [List.getElem?_eq_getElem (by omega)]
  interval_cases r <;> interval_cases c <;>
    simp [loadState, loadColumn, AesState.cell, Column.row, hx]

theorem roundKey_cell (w : List Column) (j r : Nat) {c : Nat} (hc : c < 4) :
    (roundKey w j).cell r c = (w.getD (4 * j + c) zeroColumn).row r := by
  interval_cases c <;> rfl

theorem addRoundKey_cell (k s : AesState) {r c : Nat} (hr : r < 4) (hc : c < 4) :
    (addRoundKey k s).cell r c = s.cell r c ^^^ k.cell r c := by
  interval_cases r <;> interval_cases c <;> rfl

/-- R235: SubBytes and ShiftRows together. -/
theorem shiftRows_subBytes_cell (s : AesState) {r c : Nat} (hr : r < 4) (hc : c < 4) :
    (shiftRows (subBytes s)).cell r c = sbox (s.cell r ((c + r) % 4)) := by
  interval_cases r <;> interval_cases c <;> rfl

/-! ### The key schedule (R237) -/

/-- The words made so far stay what they are. -/
theorem keyExtend_suffix (nk n i : Nat) (w : List Column) : w <:+ keyExtend nk n i w := by
  induction n generalizing i w with
  | zero => simp [keyExtend]
  | succ n ih => exact (List.suffix_cons _ _).trans (ih _ _)

theorem keyExtend_getElem? (nk n i : Nat) {w : List Column} {t : Nat} (ht : t < w.length) :
    (keyExtend nk n i w).reverse[t]? = w.reverse[t]? := by
  obtain ⟨p, hp⟩ := keyExtend_suffix nk n i w
  rw [← hp, List.reverse_append, List.getElem?_append_left (by simpa)]

/-- The recurrence: word `t` is word `t - nk` xor the schedule core of word `t - 1`. -/
theorem keyExtend_recurrence {nk n : Nat} {w : List Column} (h0 : 0 < nk) (hw : nk ≤ w.length) {t : Nat}
    (h1 : w.length ≤ t) (h2 : t < w.length + n) :
    let W := fun i => (keyExtend nk n w.length w).reverse.getD i zeroColumn
    W t = (W (t - nk)).xor (keyScheduleCore nk t (W (t - 1))) := by
  induction n generalizing w with
  | zero => omega
  | succ n ih =>
    simp only [keyExtend]
    generalize hx : (w.getD (nk - 1) zeroColumn).xor (keyScheduleCore nk w.length (w.getD 0 zeroColumn)) = x
    by_cases h : w.length = t
    · subst h
      have old : ∀ k, k < w.length → (keyExtend nk n (w.length + 1) (x :: w)).reverse.getD (w.length - 1 - k) zeroColumn
          = w.getD k zeroColumn := by
        intro k hk
        rw [List.getD_eq_getElem?_getD, keyExtend_getElem? nk n _ (w := x :: w) (by simp; omega), List.reverse_cons,
          List.getElem?_append_left (by simp; omega), List.getElem?_reverse (by omega), List.getD_eq_getElem?_getD]
        congr 2
        omega
      have g1 := old (nk - 1) (by omega)
      have g2 := old 0 (by omega)
      rw [show w.length - 1 - (nk - 1) = w.length - nk by omega] at g1
      rw [Nat.sub_zero] at g2
      have new : (keyExtend nk n (w.length + 1) (x :: w)).reverse.getD w.length zeroColumn = x := by
        rw [List.getD_eq_getElem?_getD, keyExtend_getElem? nk n _ (w := x :: w) (by simp), List.reverse_cons,
          List.getElem?_append_right (by simp)]
        simp
      rw [new, g1, g2, hx]
    · simpa using ih (w := x :: w) (by simp; omega) (by simp; omega) (by simp; omega)

/-! ### Chaining (R246) -/

theorem blocks16_append (n m : Nat) {bs : List Byte} (h : bs.length = 16 * n) (cs : List Byte) :
    blocks16 (bs ++ cs) (n + m) = blocks16 bs n ++ blocks16 cs m := by
  induction n generalizing bs with
  | zero =>
    obtain rfl : bs = [] := List.length_eq_zero_iff.1 (by omega)
    simp [blocks16]
  | succ n ih =>
    rw [show n + 1 + m = n + m + 1 by omega]
    simp only [blocks16, List.cons_append]
    rw [List.take_append_of_le_length (by omega), List.drop_append_of_le_length (by omega), ih (by simp; omega)]

/-- CBC encryption across a split: the second part is chained to the last ciphertext block of the first. -/
theorem cbcEncrypt_append (ks : KeySize) (key iv : List Byte) (ps qs : List (List Byte)) :
    cbcEncrypt ks key iv (ps ++ qs)
      = cbcEncrypt ks key iv ps ++ cbcEncrypt ks key (((cbcEncrypt ks key iv ps).getLast?).getD iv) qs := by
  induction ps generalizing iv with
  | nil => rfl
  | cons p ps ih =>
    simp only [List.cons_append, cbcEncrypt, ih]
    congr 2
    cases h : cbcEncrypt ks key (aesEncrypt ks key (xorBytes p iv)) ps with
    | nil => rfl
    | cons a l => simp [List.getLast?_cons_cons]; congr 1

end Sys2Proof.Machine
end

