-- ==== Sys2Proof/Laws/Base32.lean ====
section
/-! SUPPORT. Laws of the Base32 tables, groups and padding run. -/

namespace Sys2Proof.Machine

/-- R154: every symbol has five bits. -/
theorem groupSymbols_lt (b0 b1 b2 b3 b4 : Byte) : ∀ v ∈ groupSymbols b0 b1 b2 b3 b4, v.toNat < 32 := by
  have h (x : Byte) (h5 : x.getLsbD 5 = false) (h6 : x.getLsbD 6 = false) (h7 : x.getLsbD 7 = false) :
      x.toNat < 32 := by revert x; decide +kernel
  simp only [groupSymbols, List.mem_cons, List.not_mem_nil, or_false]
  rintro v (rfl | rfl | rfl | rfl | rfl | rfl | rfl | rfl) <;> apply h <;> simp

/-- R150, R152: a symbol's character decodes to it and is not the pad. -/
theorem decodeChar_encodeChar (a : Alphabet) (v : Byte) (h : v.toNat < 32) :
    decodeChar a (encodeChar a v) = v ∧ encodeChar a v ≠ padChar := by
  have all : ∀ v : Byte, v.toNat < 32 → decodeChar a (encodeChar a v) = v ∧ encodeChar a v ≠ padChar := by
    cases a <;> decide +kernel
  exact all v h

/-- R154, R159: the symbols of a group of five bytes decode to those bytes. -/
theorem decodeGroups_groupSymbols (b0 b1 b2 b3 b4 : Byte) (rest : List Byte) :
    decodeGroups (groupSymbols b0 b1 b2 b3 b4 ++ rest) = [b0, b1, b2, b3, b4] ++ decodeGroups rest := by
  simp only [groupSymbols, List.cons_append, List.nil_append, decodeGroups, groupBytes, List.cons.injEq, and_true]
  refine ⟨?_, ?_, ?_, ?_, ?_⟩ <;> refine BitVec.eq_of_getLsbD_eq fun i hi => ?_ <;> interval_cases i <;> simp

/-! ### Bits (R151) -/

/-- A value of five bits, from its bits. -/
theorem toNat_of_lt_32 {v : Byte} (h : v.toNat < 32) :
    v.toNat = 16 * (v.getLsbD 4).toNat + 8 * (v.getLsbD 3).toNat + 4 * (v.getLsbD 2).toNat + 2 * (v.getLsbD 1).toNat
      + (v.getLsbD 0).toNat := by
  revert v; decide +kernel

theorem high_bits_of_lt_32 {v : Byte} (h : v.toNat < 32) : v[5] = false ∧ v[6] = false ∧ v[7] = false := by
  revert v; decide +kernel

theorem bitOf_append (p b : List Byte) (i : Nat) : bitOf (p ++ b) (8 * p.length + i) = bitOf b i := by
  unfold bitOf
  rw [show (8 * p.length + i) / 8 = p.length + i / 8 by omega, show (8 * p.length + i) % 8 = i % 8 by omega,
    List.getD_append_right _ _ _ _ (by omega)]
  simp

/-- R154: a group of five bytes takes up eight symbols. -/
theorem symbolValue_append {p : List Byte} (h : p.length = 5) (b : List Byte) (k : Nat) :
    symbolValue (p ++ b) (k + 8) = symbolValue b k := by
  have hb := bitOf_append p b
  rw [h] at hb
  unfold symbolValue
  simp only [← hb, show 5 * (k + 8) = 8 * 5 + 5 * k by omega, Nat.add_assoc]

/-- R154: zero fill changes no symbol value. -/
theorem symbolValue_zeros (b : List Byte) (n k : Nat) : symbolValue (b ++ List.replicate n 0) k = symbolValue b k := by
  have hb (i : Nat) : bitOf (b ++ List.replicate n 0) i = bitOf b i := by
    unfold bitOf
    congr 1
    by_cases h : i / 8 < b.length
    · rw [List.getD_append _ _ _ _ h]
    · rw [List.getD_append_right _ _ _ _ (by omega), List.getD_eq_default b _ (by omega)]
      simp only [List.getD_eq_getElem?_getD, List.getElem?_replicate]
      split <;> rfl
  simp only [symbolValue, hb]

/-- R151, R154: the symbols of a group of five bytes are its symbol values. -/
theorem groupSymbols_value {b0 b1 b2 b3 b4 v : Byte} {k : Nat} (h : (groupSymbols b0 b1 b2 b3 b4)[k]? = some v)
    (rest : List Byte) : v.toNat = symbolValue (b0 :: b1 :: b2 :: b3 :: b4 :: rest) k := by
  have hk : k < 8 := by simpa [groupSymbols] using (List.getElem?_eq_some_iff.1 h).1
  rw [toNat_of_lt_32 (groupSymbols_lt _ _ _ _ _ v (List.mem_of_getElem? h))]
  interval_cases k <;> simp only [groupSymbols, List.getElem?_cons_zero, List.getElem?_cons_succ, Option.some.injEq] at h
    <;> subst h <;> simp [symbolValue, bitOf]

/-- R151, R159: the bits of the five bytes of a group of eight symbol values. -/
theorem groupBytes_bit {v0 v1 v2 v3 v4 v5 v6 v7 : Byte}
    (h : ∀ v ∈ [v0, v1, v2, v3, v4, v5, v6, v7], v.toNat < 32) {i : Nat} (hi : i < 40) :
    bitOf (groupBytes v0 v1 v2 v3 v4 v5 v6 v7) i
      = ([v0, v1, v2, v3, v4, v5, v6, v7].getD (i / 5) 0).getLsbD (4 - i % 5) := by
  simp only [List.mem_cons, List.not_mem_nil, or_false, forall_eq_or_imp, forall_eq] at h
  obtain ⟨-, h1, h2, h3, h4, h5, h6, h7⟩ := h
  have b1 := high_bits_of_lt_32 h1
  have b2 := high_bits_of_lt_32 h2
  have b3 := high_bits_of_lt_32 h3
  have b4 := high_bits_of_lt_32 h4
  have b5 := high_bits_of_lt_32 h5
  have b6 := high_bits_of_lt_32 h6
  have b7 := high_bits_of_lt_32 h7
  interval_cases i <;> simp [bitOf, groupBytes, b1, b2, b3, b4, b5, b6, b7]

/-! ### Groups and runs -/

/-- R159, R160: the output length of the decoding loop. -/
theorem decodeGroups_length (v : List Byte) :
    (decodeGroups v).length = v.length / 8 * 5 + byteCount (v.length % 8) := by
  induction v using decodeGroups.induct with
  | case1 v0 v1 v2 v3 v4 v5 v6 v7 rest ih =>
    simp only [decodeGroups, List.length_append, groupBytes_length, ih, List.length_cons]
    rw [show (rest.length + 1 + 1 + 1 + 1 + 1 + 1 + 1 + 1) % 8 = rest.length % 8 by omega,
      show (rest.length + 1 + 1 + 1 + 1 + 1 + 1 + 1 + 1) / 8 = rest.length / 8 + 1 by omega]
    omega
  | case2 v h =>
    have hl : v.length < 8 := by
      by_contra hc
      match v, hc with
      | _ :: _ :: _ :: _ :: _ :: _ :: _ :: _ :: _, _ => exact h _ _ _ _ _ _ _ _ _ rfl
      | [], hc => simp at hc
      | [_], hc => simp at hc
      | [_, _], hc => simp at hc
      | [_, _, _], hc => simp at hc
      | [_, _, _, _], hc => simp at hc
      | [_, _, _, _, _], hc => simp at hc
      | [_, _, _, _, _, _], hc => simp at hc
      | [_, _, _, _, _, _, _], hc => simp at hc
    rw [decodeGroups.eq_2 v h, decodeFinal, List.length_take, groupBytes_length, Nat.mod_eq_of_lt hl,
      Nat.div_eq_of_lt hl]
    interval_cases v.length <;> rfl

/-- R157: `padRun` is the length of the padding run. -/
theorem padRun_eq_of_isPadRun {t : List Byte} {p : Nat} (h : isPadRun t p) : padRun t = p := by
  obtain ⟨h1, h2, h3⟩ := h
  have hd : t.drop (t.length - p) = List.replicate p padChar := by
    refine List.eq_replicate_iff.2 ⟨by simp; omega, fun b hb => ?_⟩
    obtain ⟨i, hi, rfl⟩ := List.mem_iff_getElem.1 hb
    simp only [List.length_drop] at hi
    have := h2 (t.length - p + i) (by omega) (by omega)
    rw [List.getElem?_eq_getElem (by omega)] at this
    simpa [padChar] using this
  have ht : t = t.take (t.length - p) ++ List.replicate p padChar := by rw [← hd, List.take_append_drop]
  generalize hq : t.take (t.length - p) = q at ht
  have hlast : q.getLast? ≠ some padChar := by
    rw [← hq, List.getLast?_take]
    split
    · simp
    · next h0 =>
      have := h3 (by omega)
      rw [List.getElem?_eq_getElem (by omega)] at this ⊢
      simpa [padChar] using this
  unfold padRun
  rw [ht, List.reverse_append, List.reverse_replicate,
    List.takeWhile_append_of_pos (by simp +contextual [List.mem_replicate])]
  rcases List.eq_nil_or_concat q with rfl | ⟨l, b, rfl⟩
  · simp
  · have hb : b ≠ padChar := by simpa using hlast
    simp [hb]

end Sys2Proof.Machine
end

