-- ==== Sys2Proof/Laws/Host.lean ====
section
/-! SUPPORT. What one host access, one host statement and one step can do. -/

namespace Sys2Proof.Machine

/-! ### The register map -/

/-- The register at a register's own offset is that register. -/
theorem Reg.ofOffset_offset (r : Reg) : Reg.ofOffset r.offset = some r := by
  cases r with
  | otpStr i => revert i; decide
  | digest i => revert i; decide
  | aesKey i => revert i; decide
  | aesIv i => revert i; decide
  | _ => decide

/-- Every register offset is a multiple of 4 in the register space. -/
theorem Reg.offset_legal (r : Reg) : r.offset < Config.ramWindow ∧ r.offset % 4 = 0 := by
  cases r with
  | otpStr i => revert i; decide
  | digest i => revert i; decide
  | aesKey i => revert i; decide
  | aesIv i => revert i; decide
  | _ => decide

/-- The register found at an offset has that offset. -/
theorem Reg.offset_of_ofOffset {off : Nat} {r : Reg} (h : Reg.ofOffset off = some r) : r.offset = off := by
  simpa using List.find?_some h

/-- R62: where a legal access goes. -/
theorem busTarget_of_legal {w : Width} {off : Nat} (hl : w.legalAt off = true) :
    busTarget w off = if off < Config.ramWindow then .ok (.reg off) else .ok (.ram (off - Config.ramWindow)) := by
  have h1 : Config.ramWindow = 4096 := rfl
  have h2 : Config.ramSize = 4096 := rfl
  have h3 : Config.windowSize = 8192 := rfl
  have hw : off < Config.windowSize := by
    unfold Width.legalAt at hl
    split at hl
    · omega
    · simp only [Bool.and_eq_true, decide_eq_true_eq] at hl
      omega
  unfold busTarget
  rw [if_neg (by omega), if_neg (by simp [hl])]

/-- R62, R63: a legal write to a block that is not in reset. -/
theorem busWrite_of_legal {s : State} {w : Width} {off : Nat} (hr : s.rst = false) (hl : w.legalAt off = true)
    (v : Word) :
    s.busWrite w off v = .ok (if off < Config.ramWindow then s.hostWriteReg off v
      else s.hostWriteRam (off - Config.ramWindow) ((wordBytes v).take w.bytes)) := by
  unfold State.busWrite
  rw [busTarget_of_legal hl]
  by_cases h : off < Config.ramWindow <;> simp [hr, h]

theorem busTarget_reg (r : Reg) : busTarget .w32 r.offset = .ok (.reg r.offset) := by
  have h := r.offset_legal
  have h1 : Config.ramWindow = 4096 := rfl
  have h2 : Config.windowSize = 8192 := rfl
  unfold busTarget
  rw [if_neg (by omega), if_neg (by simp [Width.legalAt, h.1, h.2]), if_pos h.1]

theorem busRead_reg {s : State} (hr : s.rst = false) (r : Reg) : s.busRead .w32 r.offset = .ok (s.hostReadReg r) := by
  simp [State.busRead, busTarget_reg, hr, State.hostReadOffset, Reg.ofOffset_offset]

/-- While no command runs a register reads what it holds. -/
theorem busRead_reg_idle {s : State} (hr : s.rst = false) (hl : s.latched = none) (r : Reg) :
    s.busRead .w32 r.offset = .ok (s.readReg r) := by
  simp [busRead_reg hr, State.hostReadReg, State.busy, hl]

theorem busWrite_reg {s : State} (hr : s.rst = false) (r : Reg) (v : Word) :
    s.busWrite .w32 r.offset v = .ok (s.hostWriteReg r.offset v) := by
  simp [State.busWrite, busTarget_reg, hr]

theorem busWrite_ctrl {s : State} (hr : s.rst = false) (v : Word) : s.busWrite .w32 0x008 v = .ok (s.writeCtrl v) :=
  busWrite_reg hr .ctrl v

theorem busWrite_status {s : State} (hr : s.rst = false) (v : Word) :
    s.busWrite .w32 0x00C v = .ok (s.writeStatus v) := busWrite_reg hr .status v

theorem Width.bytes_le (w : Width) : w.bytes ≤ 4 := by cases w <;> decide

/-- A legal RAM access stays inside RAM. -/
theorem busTarget_ram {w : Width} {off a : Nat} (h : busTarget w off = .ok (.ram a)) :
    off = Config.ramWindow + a ∧ a + w.bytes ≤ Config.ramSize := by
  unfold busTarget at h
  split at h
  · simp at h
  · split at h
    · simp at h
    · next hl =>
      split at h
      · simp at h
      · next hw =>
        simp only [Except.ok.injEq, BusTarget.ram.injEq] at h
        simp only [Width.legalAt, hw, if_false, Bool.not_eq_true', Bool.not_eq_false, Bool.and_eq_true,
          decide_eq_true_eq, beq_iff_eq] at hl
        have h1 : Config.ramWindow = 4096 := rfl
        have h2 : Config.ramSize = 4096 := rfl
        have h3 := hl.2
        refine ⟨by omega, ?_⟩
        cases w <;> simp only [Width.bytes] at h3 ⊢ <;> omega

theorem busTarget_legal_ram {w : Width} {a : Nat} (h : w.legalAt (Config.ramWindow + a) = true) :
    busTarget w (Config.ramWindow + a) = .ok (.ram a) := by
  have h1 : Config.ramWindow = 4096 := rfl
  have h2 : Config.ramSize = 4096 := rfl
  have h3 : Config.windowSize = 8192 := rfl
  have h4 : a < 4096 := by
    simp only [Width.legalAt] at h
    rw [if_neg (by omega)] at h
    simp only [Bool.and_eq_true, decide_eq_true_eq] at h
    omega
  unfold busTarget
  rw [if_neg (by omega), if_neg (by simp [h]), if_neg (by omega)]
  simp

/-! ### What a bus write can do -/

/-- Every effect a host write can have on the block. -/
inductive WriteEffect (s : State) : State → Prop where
  | none : WriteEffect s s
  | softReset : WriteEffect s s.softReset
  | ignoreStart (ie : Bool) (h : s.busy = true) : WriteEffect s (s.ignoreStart ie)
  | acceptStart (ie : Bool) (h : s.busy = false) : WriteEffect s (s.acceptStart ie)
  | setIe (ie : Bool) : WriteEffect s { s with regs := { s.regs with ie := ie } }
  | clearStatus (v : Word) : WriteEffect s (s.writeStatus v)
  | drop (h : s.busy = true) : WriteEffect s s.dropWrite
  | writeReg (r : Reg) (v : Word) (h : s.busy = false) : WriteEffect s { s with regs := s.regs.write r v }
  | storeRam (a : Nat) (bs : List Byte) (h : s.busy = false) (hb : a + bs.length ≤ Config.ramSize) :
      WriteEffect s { s with ram := s.ram.store a bs }

theorem writeCtrl_effect (s : State) (v : Word) : WriteEffect s (s.writeCtrl v) := by
  unfold State.writeCtrl
  split
  · exact .softReset
  · split
    · split
      · next h => exact .ignoreStart _ h
      · next h => exact .acceptStart _ (by simpa using h)
    · exact .setIe _

/-- A host write has one of the listed effects, and none while `rst` is asserted. -/
theorem busWrite_effect {s t : State} {w : Width} {off : Nat} {v : Word} (h : s.busWrite w off v = .ok t) :
    WriteEffect s t ∧ (s.rst = true → t = s) := by
  unfold State.busWrite at h
  split at h
  · simp at h
  · next tgt htgt =>
    split at h
    · next hr =>
      simp only [Except.ok.injEq] at h
      exact ⟨h ▸ .none, fun _ => h.symm⟩
    · next hr =>
      refine ⟨?_, fun h' => absurd h' hr⟩
      split at h
      · next o =>
        simp only [Except.ok.injEq] at h
        subst h
        unfold State.hostWriteReg
        split
        · exact writeCtrl_effect s v
        · exact .clearStatus v
        · next r _ _ _ =>
          split
          · next hb => exact .drop hb
          · next hb => exact .writeReg r v (by simpa using hb)
        · split
          · next hb => exact .drop hb
          · exact .none
      · next a =>
        simp only [Except.ok.injEq] at h
        subst h
        unfold State.hostWriteRam
        split
        · next hb => exact .drop hb
        · next hb =>
          have := (busTarget_ram htgt).2
          exact .storeRam a _ (by simpa using hb) (by simp [wordBytes_length]; omega)

/-! ### What one host step can do -/

/-- Every effect one host step can have: the host agent moves, and at most one of: nothing else, a bus read, a bus
write, the reset input. -/
inductive HostEffect (s : State) : State → Prop where
  | idle : HostEffect s s
  | move (i : Nat) : HostEffect s (s.withHost { s.host with index := i })
  | read (i x : Nat) (v : Int) :
      HostEffect s (s.consumeRead.withHost { s.host with index := i, vars := assocSet x v s.host.vars })
  | write (i : Nat) (t : State) (h : WriteEffect s t) (hr : s.rst = true → t = s) :
      HostEffect s (t.withHost { s.host with index := i })
  | pin (i : Nat) (level : Bool) : HostEffect s ((s.drivePin level).withHost { s.host with index := i })

theorem hostStep_effect {s t : State} (h : hostStep s = .next t) : HostEffect s t := by
  unfold hostStep at h
  split at h
  · simp only [Host.Outcome.next.injEq] at h; exact h ▸ .idle
  · next st _ =>
    unfold runStmt at h
    split at h
    · next w off e =>
      unfold hostWrite at h
      split at h
      · next u hu =>
        simp only [Host.Outcome.next.injEq] at h
        exact h ▸ .write _ u (busWrite_effect hu).1 (busWrite_effect hu).2
      · simp at h
    · next w off x =>
      unfold hostRead at h
      split at h
      · simp only [Host.Outcome.next.injEq] at h; exact h ▸ .read _ _ _
      · simp at h
    · next e target =>
      simp only [Host.Outcome.next.injEq] at h
      subst h
      unfold HostAgent.jump
      split
      · exact .move _
      · exact .move _
    · next e target =>
      simp only [Host.Outcome.next.injEq] at h
      subst h
      unfold HostAgent.jump
      split
      · exact .move _
      · exact .move _
    · simp only [Host.Outcome.next.injEq] at h; exact h ▸ .idle
    · simp only [Host.Outcome.next.injEq] at h
      exact h ▸ .pin _ _

theorem runStmt_ne_refused {st : HostStmt} {s : State} {r : Refusal} : runStmt st s ≠ .refused r := by
  unfold runStmt hostWrite hostRead
  split <;> (try split) <;> simp

theorem hostStep_ne_refused {s : State} {r : Refusal} : hostStep s ≠ .refused r := by
  unfold hostStep
  split
  · simp
  · exact runStmt_ne_refused

/-! ### One step -/

theorem engineTurn_iff (s : State) : s.engineTurn = true ↔ s.latched ≠ none ∧ s.engineDelay = 0 := by
  simp [State.engineTurn, State.busy, Option.isSome_iff_ne_none]

/-- A step is the engine's or the host's. -/
theorem step_cases {s t : State} (h : step s = .next t) :
    (s.engineTurn = true ∧ engineStep s = .next t)
      ∨ (s.engineTurn = false ∧ HostEffect s.countHostStep t) := by
  unfold step at h
  split at h
  · next he => exact .inl ⟨he, h⟩
  · next he => exact .inr ⟨by simpa using he, hostStep_effect h⟩

/-- The engine's step: the decoded command, or the decoder's error. -/
theorem engineStep_cases {s t : State} (h : engineStep s = .next t) :
    ∃ L, s.latched = some L ∧
      ((∃ i, decode L.cmd = .ok i ∧ exec i s = .next t) ∨ ∃ c, decode L.cmd = .error c ∧ t = s.badCommand L c) := by
  unfold engineStep at h
  split at h
  · simp at h
  · next L hL =>
    refine ⟨L, hL, ?_⟩
    split at h
    · next i hi => exact .inl ⟨i, hi, h⟩
    · next c hc => exact .inr ⟨c, hc, by simpa using h.symm⟩

/-- Every command's step is the run of its `execute`. -/
theorem exec_eq_runCommand (i : Instr) :
    ∃ body : Latch → EngineView → Except Stop Writes, ∀ s, exec i s = runCommand i.opcode.isOtp body s := by
  cases i with
  | nop => exact ⟨nopBody, fun _ => rfl⟩
  | b32enc a => exact ⟨b32encBody a, fun _ => rfl⟩
  | b32dec a => exact ⟨b32decBody a, fun _ => rfl⟩
  | sha1 => exact ⟨sha1Body, fun _ => rfl⟩
  | hmac k => exact ⟨hmacBody k, fun _ => rfl⟩
  | hotp k d => exact ⟨hotpBody k d, fun _ => rfl⟩
  | totp k d => exact ⟨totpBody k d, fun _ => rfl⟩
  | aesEcbEnc ks => exact ⟨aesEcbEncBody ks, fun _ => rfl⟩
  | aesEcbDec ks => exact ⟨aesEcbDecBody ks, fun _ => rfl⟩
  | aesCbcEnc ks => exact ⟨aesCbcEncBody ks, fun _ => rfl⟩
  | aesCbcDec ks => exact ⟨aesCbcDecBody ks, fun _ => rfl⟩

theorem exec_ne_refused {i : Instr} {s : State} {r : Refusal} : exec i s ≠ .refused r := by
  obtain ⟨body, hb⟩ := exec_eq_runCommand i
  rw [hb]; exact runCommand_ne_refused

/-- Every completion, success or error, and what it leaves of the environment. -/
theorem exec_next {i : Instr} {s t : State} (h : exec i s = .next t) :
    environmentSame s t ∧ t.latched = none
    ∧ ((∃ b, completedOk s t b) ∨ ∃ c, completedErr s t i.opcode.isOtp c) := by
  obtain ⟨body, hb⟩ := exec_eq_runCommand i
  rw [hb] at h
  obtain ⟨L, -, ⟨w, -, rfl⟩ | ⟨c, -, rfl⟩⟩ := runCommand_next h
  · exact ⟨⟨rfl, rfl, rfl, rfl⟩, rfl, .inl ⟨_, completedOk_complete s L w⟩⟩
  · exact ⟨⟨rfl, rfl, rfl, rfl⟩, rfl, .inr ⟨c, completedErr_errorCompletion s L _ c⟩⟩

end Sys2Proof.Machine
end

