-- ==== Sys2Proof/Laws/PerInstr.lean ====
section
/-! SUPPORT. Statements for all instructions, made per instruction: the encoded word carries the command's own OP value
and only field bits the operation allows. -/

namespace Sys2Proof.Laws.EncodedOp

/-- R91, R95: the word of a well-formed command has the OP of its operation, which names that operation, and no bit
outside OP and the fields the operation allows. -/
def Statement (i : Instr) : Prop :=
  i.wf = true →
    opField (encode i) = i.opcode.code ∧ Opcode.ofByte (opField (encode i)) = some i.opcode
    ∧ encode i &&& ~~~ (0x000000FF ||| i.opcode.allowed) = 0

theorem nop : Statement .nop := by unfold Statement; decide

theorem b32enc (alph : Alphabet) : Statement (.b32enc alph) := by
  unfold Statement; cases alph <;> decide

theorem b32dec (alph : Alphabet) : Statement (.b32dec alph) := by
  unfold Statement; cases alph <;> decide

theorem sha1 : Statement .sha1 := by unfold Statement; decide

theorem hmac (key : KeyForm) : Statement (.hmac key) := by
  unfold Statement; rcases key with _ | (_ | _) <;> decide

theorem hotp (key : KeyForm) (digits : BitVec 4) : Statement (.hotp key digits) := by
  unfold Statement; revert digits; rcases key with _ | (_ | _) <;> decide

theorem totp (key : KeyForm) (digits : BitVec 4) : Statement (.totp key digits) := by
  unfold Statement; revert digits; rcases key with _ | (_ | _) <;> decide

theorem aesEcbEnc (ks : KeySize) : Statement (.aesEcbEnc ks) := by unfold Statement; cases ks <;> decide

theorem aesEcbDec (ks : KeySize) : Statement (.aesEcbDec ks) := by unfold Statement; cases ks <;> decide

theorem aesCbcEnc (ks : KeySize) : Statement (.aesCbcEnc ks) := by unfold Statement; cases ks <;> decide

theorem aesCbcDec (ks : KeySize) : Statement (.aesCbcDec ks) := by unfold Statement; cases ks <;> decide

end Sys2Proof.Laws.EncodedOp
end

