-- ==== Sys2Proof/Laws/Reads.lean ====
section
/-! SUPPORT. What a host read of RAM answers, idle and while a command runs (R47, R63, R69). -/

namespace Sys2Proof.Machine

/-! ### Lanes -/

/-- R63: lane `j` of the word that holds a byte string. -/
theorem extractLsb'_wordAt {bs : List Byte} {j : Nat} (h : j < 4) :
    (wordAt bs 0).extractLsb' (8 * j) 8 = bs.getD j 0 := by
  have hw := wordBytes_leWord (bs.getD 0 0) (bs.getD 1 0) (bs.getD 2 0) (bs.getD 3 0)
  simp only [wordBytes, lane, List.cons.injEq, and_true] at hw
  obtain ⟨h0, h1, h2, h3⟩ := hw
  interval_cases j
  · exact h0
  · exact h1
  · exact h2
  · exact h3

/-- R63: a read of `n` bytes gives a value below 2^(8n). -/
theorem wordAt_lt {bs : List Byte} {n : Nat} (h : bs.length = n) (hn : n ≤ 4) : (wordAt bs 0).toNat < 2 ^ (8 * n) := by
  refine Nat.lt_pow_two_of_testBit _ fun i hi => ?_
  subst h
  rw [BitVec.testBit_toNat]
  unfold wordAt
  rw [leWord_getLsbD]
  simp only [List.getD_eq_getElem?_getD]
  split
  · rw [List.getElem?_eq_none (by omega)]; simp
  · split
    · rw [List.getElem?_eq_none (by omega)]; simp
    · split
      · rw [List.getElem?_eq_none (by omega)]; simp
      · by_cases h32 : i < 32
        · rw [List.getElem?_eq_none (by omega)]; simp
        · exact BitVec.getLsbD_of_ge _ _ (by omega)

/-! ### The bytes of one read -/

/-- A read of `n` bytes answers when every byte does, with those bytes. -/
theorem hostReadBytes_ok {s : State} {a j n : Nat} {bs : List Byte} (h : s.hostReadBytes a j n = .ok bs) :
    bs.length = n ∧ ∀ i, i < n → s.hostReadByte (a + i) (j + i) = .ok (bs.getD i 0) := by
  induction n generalizing a j bs with
  | zero => simp_all [State.hostReadBytes]
  | succ n ih =>
    obtain ⟨b, hb, h⟩ := Except.bind_eq_ok.1 h
    obtain ⟨cs, hcs, h⟩ := Except.bind_eq_ok.1 h
    simp only [Except.pure_eq_ok, Except.ok.injEq] at h
    subst h
    obtain ⟨hl, hi⟩ := ih hcs
    refine ⟨by simp [hl], fun i hlt => ?_⟩
    cases i with
    | zero => simpa using hb
    | succ i =>
      have := hi i (by omega)
      rwa [Nat.add_assoc, Nat.add_comm 1, Nat.add_assoc, Nat.add_comm 1] at this

/-- A read of `n` bytes stops with the first byte that stops. -/
theorem hostReadBytes_error {s : State} {a j n : Nat} {f : Fault} (h : s.hostReadBytes a j n = .error f) :
    ∃ k, k < n ∧ s.hostReadByte (a + k) (j + k) = .error f
      ∧ ∀ i, i < k → ∃ b, s.hostReadByte (a + i) (j + i) = .ok b := by
  induction n generalizing a j with
  | zero => simp [State.hostReadBytes] at h
  | succ n ih =>
    rcases Except.bind_eq_error.1 h with hb | ⟨b, hb, h⟩
    · exact ⟨0, by omega, hb, fun i hi => by omega⟩
    · rcases Except.bind_eq_error.1 h with hcs | ⟨cs, -, h⟩
      · obtain ⟨k, hk, he, ho⟩ := ih hcs
        refine ⟨k + 1, by omega, ?_, fun i hi => ?_⟩
        · rwa [Nat.add_assoc, Nat.add_comm 1, Nat.add_assoc, Nat.add_comm 1] at he
        · cases i with
          | zero => exact ⟨b, hb⟩
          | succ i =>
            have := ho i (by omega)
            rwa [Nat.add_assoc, Nat.add_comm 1, Nat.add_assoc, Nat.add_comm 1] at this
      · simp at h

/-- R69: a byte that no command in flight may write, by its content and the policy. -/
theorem hostReadByte_of_not_dest {s : State} {a : Nat} (h : s.inFlightDest a = false) (j : Nat) :
    s.hostReadByte a j =
      match s.ram.byteAt a, s.policy with
      | some b, _ => .ok b
      | none, .draw => .ok (Config.freeByte (s.draws + j))
      | none, .fault => .error (.unwrittenHostRead a) := by
  unfold State.hostReadByte
  simp only [h, Bool.false_eq_true, if_false]
  cases s.ram.byteAt a <;> cases s.policy <;> rfl

/-- R47: a byte the command in flight may write. -/
theorem hostReadByte_of_dest {s : State} {a : Nat} (h : s.inFlightDest a = true) (j : Nat) :
    s.hostReadByte a j = .ok (Config.freeByte (s.draws + j)) := by simp [State.hostReadByte, h]

/-- R69: only an unwritten byte, under the policy `fault`, stops a read. -/
theorem hostReadByte_error {s : State} {a j : Nat} {f : Fault} (h : s.hostReadByte a j = .error f) :
    s.ram.byteAt a = none ∧ s.policy = .fault ∧ f = .unwrittenHostRead a := by
  by_cases hd : s.inFlightDest a = true
  · simp [hostReadByte_of_dest hd] at h
  · rw [hostReadByte_of_not_dest (by simpa using hd)] at h
    split at h
    · simp at h
    · simp at h
    · next h1 h2 => exact ⟨h1, h2, by simpa using h.symm⟩

/-- R62, R63: a legal RAM read of a block that is not in reset. -/
theorem busRead_ram {s : State} {w : Width} {a : Nat} (hr : s.rst = false)
    (hl : w.legalAt (Config.ramWindow + a) = true) :
    s.busRead w (Config.ramWindow + a) = (s.hostReadBytes a 0 w.bytes).map (fun bs => wordAt bs 0) := by
  unfold State.busRead
  rw [busTarget_legal_ram hl]
  cases h : s.hostReadBytes a 0 w.bytes <;> simp [hr, Except.map, h]

/-! ### Which bytes the command in flight may write -/

/-- R159: a decode writes at most five bits a character of its text. -/
theorem b32decode_length_le {alph : Alphabet} {t b : List Byte} (h : b32decode alph t = .ok b) :
    b.length ≤ 5 * t.length / 8 := by
  have hb : ∀ r, r < 8 → byteCount r ≤ 5 * r / 8 := by decide
  unfold b32decode at h
  split at h
  · simp at h
  · split at h
    · simp at h
    · split at h
      · simp at h
      · simp only [Except.ok.injEq] at h
        subst h
        rw [decodeGroups_length, List.length_map]
        have h1 : (dataChars t).length ≤ t.length := by simp [dataChars]
        have h2 := hb ((dataChars t).length % 8) (Nat.mod_lt _ (by omega))
        omega

/-- R47: the decoded length of a B32DEC in flight, known or not. -/
theorem decodeLength_le (m : Memory) (alph : Alphabet) (L : Latch) :
    decodeLength m alph L (5 * L.srcLen.toNat / 8) ≤ 5 * L.srcLen.toNat / 8 := by
  unfold decodeLength
  split
  · split
    · exact le_rfl
    · next t ht =>
      split
      · next b hb =>
        have := b32decode_length_le hb
        rwa [Memory.bytesAt?_length ht] at this
      · omega
  · omega

theorem writeSpan_le (m : Memory) (L : Latch) : writeSpan m L ≤ Config.ramSize - L.dstAddr.toNat :=
  Nat.min_le_right _ _

/-- The OP values of the AES operations. -/
theorem Opcode.isAes_iff (o : Opcode) : o.isAes = true ↔ 0x20 ≤ o.code.toNat ∧ o.code.toNat ≤ 0x23 := by
  cases o <;> decide

/-- The operation an OP value names has that OP value. -/
theorem code_of_ofByte {b : Byte} {o : Opcode} (h : Opcode.ofByte b = some o) : o.code = b := by
  simpa using List.find?_some h

/-- A word decodes only to a command of its OP value. -/
theorem code_of_decode {c : Word} {i : Instr} (h : decode c = .ok i) : i.opcode.code = c.extractLsb' 0 8 := by
  unfold decode at h
  split at h
  · simp at h
  · next o ho =>
    have hc : o.code = opField c := code_of_ofByte ho
    split at h
    · simp at h
    · split at h
      · simp at h
      · split at h
        · simp at h
        · split at h
          · simp at h
          · simp only [Except.ok.injEq] at h
            subst h
            rw [← opField, ← hc]
            cases o <;> rfl

/-- R47: a byte the command in flight cannot write is in no destination range in flight. -/
theorem inFlightDest_of_cannotWrite {s : State} {a : Nat} (h : readsCurrent s a) : s.inFlightDest a = false := by
  unfold State.inFlightDest
  cases hl : s.latched with
  | none => rfl
  | some L =>
    simp only [Bool.and_eq_false_iff]
    rcases h L hl with h | h | ⟨h1, h2, h3⟩
    · left; simp only [decide_eq_false_iff_not]; omega
    · left
      simp only [decide_eq_false_iff_not]
      have hs : writeSpan s.ram L ≤ destLength s.ram L (5 * L.srcLen.toNat / 8) := Nat.min_le_left _ _
      intro hc
      have hlt : a < L.dstAddr.toNat + destLength s.ram L (5 * L.srcLen.toNat / 8) := by omega
      unfold destLength at hlt
      have hop : ∀ o, Opcode.ofByte (opField L.cmd) = some o → L.cmd.extractLsb' 0 8 = o.code :=
        fun o ho => (code_of_ofByte ho).symm
      split at hlt <;> try omega
      · next ho => rw [hop _ ho] at h; simp only [Opcode.code] at h; simp [encodedLength] at hlt h; omega
      · next ho =>
        rw [hop _ ho] at h
        have := decodeLength_le s.ram (Alphabet.ofBit (alphField L.cmd)) L
        simp only [Opcode.code] at h; simp at h; omega
      all_goals next ho => rw [hop _ ho] at h; simp only [Opcode.code] at h; simp at h; omega
    · right
      simp only [Bool.or_eq_false_iff, Bool.not_eq_false']
      refine ⟨by simp [Latch.inSource, h1, h2], ?_⟩
      unfold Latch.aesInPlace
      split
      · next i hi =>
        by_contra hc
        simp only [Bool.not_eq_false, Bool.and_eq_true, beq_iff_eq] at hc
        obtain ⟨⟨⟨hA, hD⟩, -⟩, -⟩ := hc
        rw [Opcode.isAes_iff, code_of_decode hi] at hA
        exact h3 ⟨hA.1, hA.2, hD⟩
      · rfl

end Sys2Proof.Machine
end

