-- ==== Sys2Proof/Tests/Slice0.lean ====
section
/-! SUPPORT. The model's own tests: ill-formed terms that WellFormed refuses, words written out bit by bit from the
encoding table (R95), at most two one-step tests per command with expected values from spec/95_test_vectors.md, and one
named witness of the hypotheses of every obligation that has hypotheses. -/

namespace Sys2Proof.Tests

-- One theorem at a time: many kernel evaluations waiting side by side would each hold a thread.
set_option Elab.async false

open Sys2Proof.Machine

/-! ### Helpers -/

/-- The state of an outcome that is a next state. -/
def nextState (o : Host.Outcome State Fault Refusal) : Option State :=
  match o with
  | .next s => some s
  | .fault _ => none
  | .refused _ => none

theorem exists_next {o : Host.Outcome State Fault Refusal} (h : (nextState o).isSome = true) : ∃ t, o = .next t := by
  cases o with
  | next t => exact ⟨t, rfl⟩
  | fault f => cases h
  | refused r => cases h

/-- A next state with a property that can be decided. -/
theorem exists_next_with {o : Host.Outcome State Fault Refusal} {p : State → Bool}
    (h : (nextState o).any p = true) : ∃ t, o = .next t ∧ p t = true := by
  cases o with
  | next t => exact ⟨t, rfl, h⟩
  | fault f => cases h
  | refused r => cases h

/-- The fault of an outcome. -/
def faultOf (o : Host.Outcome State Fault Refusal) : Option Fault :=
  match o with
  | .next _ => none
  | .fault f => some f
  | .refused _ => none

theorem eq_fault {o : Host.Outcome State Fault Refusal} {f : Fault} (h : faultOf o = some f) : o = .fault f := by
  cases o with
  | next t => cases h
  | fault g => exact congrArg _ (Option.some.inj h)
  | refused r => cases h

/-- Right after the accepted START of the word `c` with the registers `r` and RAM `m`. -/
def started (c : Word) (r : Regs) (m : Memory) : State := { State.reset with regs := r, ram := m }.startWord c

/-- A busy block with host steps left and a host program. -/
def waiting (c : Word) (r : Regs) (m : Memory) (prog : List HostStmt) : State :=
  { started c r m with engineDelay := 2, host := ⟨prog, 0, []⟩ }

/-- An idle block with a host program. -/
def idleWith (prog : List HostStmt) : State := { State.reset with host := ⟨prog, 0, []⟩ }

/-- The bytes of an ASCII text. -/
def ascii (s : String) : List Byte := s.toList.map (fun ch => BitVec.ofNat 8 ch.toNat)

/-- RAM with the bytes `s` from `a` on. -/
def ramWith (a : Nat) (s : List Byte) : Memory := Memory.store [] a s

/-- The key of the HOTP and TOTP vectors. -/
def otpKey : List Byte := ascii "12345678901234567890"

/-- SRC = (0, n), DST = d. -/
def srcRegs (n d : Word) : Regs := { Regs.reset with srcLen := n, dstAddr := d }

/-- KEY = (0, n). -/
def keyRegs (n : Word) : Regs := { Regs.reset with keyLen := n }

/-- The bytes 0, 1, 2, … (the FIPS 197 keys). -/
def counting (n : Nat) : List Byte := (List.range n).map (BitVec.ofNat 8)

/-- 00112233445566778899aabbccddeeff, the FIPS 197 input. -/
def fipsInput : List Byte := (List.range 16).map (fun i => BitVec.ofNat 8 (17 * i))

/-- SRC = DST = (0, n), the key 0, 1, 2, … and the initial value 0, 1, 2, …. -/
def aesRegs (n : Word) : Regs :=
  { Regs.reset with
    srcLen := n, aesKey := Words8.ofBytes (counting 32), aesIv := Words4.ofBytes (counting 16) }

/-- A range operand that reads as bytes. -/
theorem operandHolds_of_read {m : Memory} {addr len : Word} {bs : List Byte}
    (h : m.bytesAt? addr.toNat len.toNat = some bs) (hr : addr.toNat + len.toNat ≤ Config.ramSize) :
    operandHolds m addr len bs :=
  ⟨(Memory.bytesAt?_eq_some.1 h).1, hr, (Memory.bytesAt?_eq_some.1 h).2⟩

/-! ### WellFormed refuses -/

theorem test_wf_refuses_hotp_digits : Instr.wf (.hotp .raw 11) = false := by decide
theorem test_wf_refuses_totp_digits : Instr.wf (.totp (.b32 .hex) 15) = false := by decide
theorem test_wf_refuses_narrow_register_access : HostStmt.wf 1 (.write .w8 0x038 (.lit 0)) = false := by decide
theorem test_wf_refuses_unaligned_register_access : HostStmt.wf 1 (.read .w32 0x03A 0) = false := by decide
theorem test_wf_refuses_odd_half_word : HostStmt.wf 1 (.write .w16 0x1001 (.lit 0)) = false := by decide
theorem test_wf_refuses_unaligned_word : HostStmt.wf 1 (.write .w32 0x1002 (.lit 0)) = false := by decide
theorem test_wf_refuses_access_past_window : HostStmt.wf 1 (.read .w8 0x2000 0) = false := by decide
theorem test_wf_refuses_branch_target : HostStmt.wf 2 (.bnz (.lit 1) 3) = false := by decide
theorem test_wf_refuses_bz_target : HostStmt.wf 2 (.bz (.lit 1) 3) = false := by decide
theorem test_wf_refuses_program : hostProgramWf [.halt, .read .w16 0x000 0] = false := by decide
theorem test_wf_accepts_program : hostProgramWf (pseudoRun 0 0 0x00080213 true ++ pseudoClear ++ [.halt]) = true := by
  decide

/-! ### Words written out from R95: OP in bits 7:0, ALPH bit 8, KEYFMT bit 9, KS bits 13:12, DIGITS bits 19:16 -/

theorem test_decode_nop : decode 0b00000000000000000000000000000000 = .ok .nop := by decide
theorem test_decode_b32enc : decode 0b00000000000000000000000100000001 = .ok (.b32enc .hex) := by decide
theorem test_decode_b32dec : decode 0b00000000000000000000000000000010 = .ok (.b32dec .std) := by decide
theorem test_decode_sha1 : decode 0b00000000000000000000000000010000 = .ok .sha1 := by decide
theorem test_decode_hmac : decode 0b00000000000000000000001100010001 = .ok (.hmac (.b32 .hex)) := by decide
theorem test_decode_hotp : decode 0b00000000000010100000000000010010 = .ok (.hotp .raw 10) := by decide
theorem test_decode_totp : decode 0b00000000000010000000001000010011 = .ok (.totp (.b32 .std) 8) := by decide
theorem test_decode_aes_ecb_enc : decode 0b00000000000000000000000000100000 = .ok (.aesEcbEnc .k128) := by decide
theorem test_decode_aes_ecb_dec : decode 0b00000000000000000001000000100001 = .ok (.aesEcbDec .k192) := by decide
theorem test_decode_aes_cbc_enc : decode 0b00000000000000000010000000100010 = .ok (.aesCbcEnc .k256) := by decide
theorem test_decode_aes_cbc_dec : decode 0b00000000000000000010000000100011 = .ok (.aesCbcDec .k256) := by decide
/-- V-ENC: the refused words, each with its code. -/
theorem test_decode_refuses :
    decode 0x00000003 = .error .badOpcode ∧ decode 0x000000FF = .error .badOpcode
    ∧ decode 0x80000000 = .error .badField ∧ decode 0x00000201 = .error .badField
    ∧ decode 0x00000111 = .error .badField ∧ decode 0x000B0112 = .error .badField
    ∧ decode 0x00100013 = .error .badField ∧ decode 0x00003023 = .error .badField
    ∧ decode 0x000B0012 = .error .badDigits ∧ decode 0x000F0313 = .error .badDigits := by decide
/-- R100: `totp.d8.b32std` is 0x00080213, and DIGITS = 6 prints as `.d6`. -/
theorem test_assembler :
    assemble "totp.d8.b32std" = some 0x00080213 ∧ disassemble 0x00060013 = some "totp.d6" := by decide
theorem test_table_word : decodeTableWord 32 0x00001021 = some (.aesEcbDec .k192) := by decide

/-! ### One step of each command -/

/-- V-NOP: from reset, STATUS = 0x00000002. -/
theorem test_nop_completes :
    (nextState (step (State.reset.withFetchWord 32 0))).map State.statusWord = some 0x00000002 := by decide
/-- V-STATUS row 4: OP 0x03 with IE = 1: STATUS = 0x00000106 and `irq` is up. -/
theorem test_bad_opcode_completes :
    (nextState (step (started 0x00000003 { Regs.reset with ie := true } []))).map
      (fun t => (t.statusWord, t.irq)) = some (0x00000106, true) := by decide
/-- V-B32ENC: "foobar" gives "MZXW6YTBOI======". -/
theorem test_b32enc_foobar :
    (nextState (step (started 0x00000001 (srcRegs 6 0x100) (ramWith 0 (ascii "foobar"))))).map
      (fun t => (t.ram.bytesAt? 0x100 16, t.results.resLen)) = some (some (ascii "MZXW6YTBOI======"), 16) := by
  decide +kernel
/-- V-B32ENC: SRC = (0x100, 6), DST_ADDR = 0x104 is OVERLAP. -/
theorem test_b32enc_overlap :
    (nextState (step (started 0x00000001 { srcRegs 6 0x104 with srcAddr := 0x100 }
      (ramWith 0x100 (ascii "foobar"))))).map State.statusWord = some 0x00000606 := by decide +kernel
/-- V-B32DEC: the extended-hex text of "foobar". -/
theorem test_b32dec_hex :
    (nextState (step (started 0x00000102 (srcRegs 16 0x100) (ramWith 0 (ascii "CPNMUOJ1E8======"))))).map
      (fun t => (t.ram.bytesAt? 0x100 6, t.results.resLen)) = some (some (ascii "foobar"), 6) := by decide +kernel
/-- V-B32DEC: "ABCDEF==" has a padding run of 2: B32_PAD. -/
theorem test_b32dec_pad :
    (nextState (step (started 0x00000002 (srcRegs 8 0x100) (ramWith 0 (ascii "ABCDEF=="))))).map State.statusWord
      = some 0x00001006 := by decide +kernel
/-- V-SHA1: "abc". -/
theorem test_sha1_abc :
    (nextState (step (started 0x00000010 (srcRegs 3 0) (ramWith 0 (ascii "abc"))))).map (fun t => t.results.digest)
      = some ⟨0x363E99A9, 0x6A810647, 0x71253EBA, 0x6CC25078, 0x9DD8D09C⟩ := by decide +kernel
/-- V-SHA1: 56 bytes, the first length whose padding needs a second block. -/
theorem test_sha1_two_blocks :
    (nextState (step (started 0x00000010 (srcRegs 56 0) (ramWith 0 (List.replicate 56 0x61))))).map
      (fun t => t.results.digest) = some ⟨0x0F33DBC2, 0x4C858360, 0xBFB5D499, 0x9FF2E8B6, 0x99E61B20⟩ := by
  decide +kernel
/-- V-HMAC, RFC 2202 case 2: effcdf6a…, key "Jefe". -/
theorem test_hmac_jefe :
    (nextState (step (started 0x00000011 { srcRegs 28 0 with keyAddr := 0x100, keyLen := 4 }
      ((ramWith 0 (ascii "what do ya want for nothing?")).store 0x100 (ascii "Jefe"))))).map
      (fun t => t.results.digest.bytes.take 8) = some [0xef, 0xfc, 0xdf, 0x6a, 0xe5, 0xeb, 0x2f, 0xa2] := by
  decide +kernel
/-- V-HMAC: a key of 65 bytes is hashed first. -/
theorem test_hmac_long_key :
    (nextState (step (started 0x00000011 { srcRegs 1 0 with keyAddr := 0x100, keyLen := 65 }
      ((ramWith 0 (ascii "x")).store 0x100 (List.replicate 65 0xaa))))).map
      (fun t => t.results.digest.bytes.take 8) = some [0x34, 0x9e, 0x91, 0x89, 0xde, 0x21, 0x7e, 0x47] := by
  decide +kernel
/-- V-HOTP: CNT = 2^64 - 1 gives 94451, shown as "094451". -/
theorem test_hotp_zero_padding :
    (nextState (step (started 0x00000012 { keyRegs 20 with cntLo := 0xFFFFFFFF, cntHi := 0xFFFFFFFF }
      (ramWith 0 otpKey)))).map (fun t => (t.results.otpCode, t.results.otpStr.bytes.take 6, t.results.otpLen))
      = some (94451, ascii "094451", 6) := by decide +kernel
/-- V-HOTP: KEY_ADDR = 4090 with KEY_LEN = 20 is RANGE. -/
theorem test_hotp_range :
    (nextState (step (started 0x00000012 { keyRegs 20 with keyAddr := 4090 } []))).map
      (fun t => (t.statusWord, t.results.otpLen)) = some (0x00000506, 0) := by decide +kernel
/-- V-TOTP: TIME = 20000000000, STEP = 30, eight digits: 65353130, CNT = 666666666. -/
theorem test_totp_time_hi :
    (nextState (step (started 0x00080013 { keyRegs 20 with timeLo := 0xA817C800, timeHi := 4 }
      (ramWith 0 otpKey)))).map (fun t => (t.results.otpCode, t.regs.cntLo, t.regs.cntHi))
      = some (65353130, 666666666, 0) := by decide +kernel
/-- V-STATUS: STEP = 0: STATUS = 0x0000000A. -/
theorem test_totp_zero_step :
    (nextState (step (started 0x00000013 { Regs.reset with step := 0 } []))).map State.statusWord
      = some 0x0000000A := by decide +kernel
/-- FIPS 197, the 192-bit key, in place: dda97ca4…. -/
theorem test_aes_ecb_enc_192 :
    (nextState (step (started 0x00001020 (aesRegs 16) (ramWith 0 fipsInput)))).map (fun t => t.ram.bytesAt? 0 8)
      = some (some [0xdd, 0xa9, 0x7c, 0xa4, 0x86, 0x4c, 0xdf, 0xe0]) := by decide +kernel
/-- V-AES: SRC_LEN = 15 is BAD_LEN. -/
theorem test_aes_ecb_enc_bad_len :
    (nextState (step (started 0x00000020 (aesRegs 15) []))).map State.statusWord = some 0x00000406 := by decide +kernel
/-- FIPS 197, the 256-bit key, backwards. -/
theorem test_aes_ecb_dec_256 :
    (nextState (step (started 0x00002021 (aesRegs 16) (ramWith 0
      [0x8e, 0xa2, 0xb7, 0xca, 0x51, 0x67, 0x45, 0xbf, 0xea, 0xfc, 0x49, 0x90, 0x4b, 0x49, 0x60, 0x89])))).map
      (fun t => t.ram.bytesAt? 0 16) = some (some fipsInput) := by decide +kernel
/-- SP 800-38A F.2.1, the first block: 7649abac…, which AES_IV then holds. -/
theorem test_aes_cbc_enc :
    (nextState (step (started 0x00000022
      { aesRegs 16 with
        aesKey := ⟨0x16157e2b, 0xa6d2ae28, 0x8815f7ab, 0x3c4fcf09, 0, 0, 0, 0⟩ }
      (ramWith 0 [0x6b, 0xc1, 0xbe, 0xe2, 0x2e, 0x40, 0x9f, 0x96, 0xe9, 0x3d, 0x7e, 0x11, 0x73, 0x93, 0x17, 0x2a])))).map
      (fun t => (t.ram.bytesAt? 0 4, t.regs.aesIv.w0))
      = some (some [0x76, 0x49, 0xab, 0xac], 0xacab4976) := by decide +kernel
/-- The same block backwards; AES_IV holds the input block. -/
theorem test_aes_cbc_dec :
    (nextState (step (started 0x00000023
      { aesRegs 16 with
        aesKey := ⟨0x16157e2b, 0xa6d2ae28, 0x8815f7ab, 0x3c4fcf09, 0, 0, 0, 0⟩ }
      (ramWith 0 [0x76, 0x49, 0xab, 0xac, 0x81, 0x19, 0xb2, 0x46, 0xce, 0xe9, 0x8e, 0x9b, 0x12, 0xe9, 0x19, 0x7d])))).map
      (fun t => (t.ram.bytesAt? 0 4, t.regs.aesIv.w0))
      = some (some [0x6b, 0xc1, 0xbe, 0xe2], 0xacab4976) := by decide +kernel
/-- V-AES: SRC_LEN = 0 succeeds, writes nothing and leaves AES_IV. -/
theorem test_aes_cbc_dec_empty :
    (nextState (step (started 0x00000023 (aesRegs 0) []))).map (fun t => (t.statusWord, t.regs.aesIv, t.ram))
      = some (0x00000002, Words4.ofBytes (counting 16), []) := by decide +kernel

/-! ### The bus -/

/-- V-BUS: `w32 RAM+0, 0x44434241` stores "ABCD". -/
theorem test_bus_word_lanes :
    (nextState (step (idleWith [.write .w32 0x1000 (.lit 0x44434241)]))).map (fun t => t.ram.bytesAt? 0 4)
      = some (some (ascii "ABCD")) := by decide +kernel
/-- V-BUS: an 8-bit register access is a bus error. -/
theorem test_bus_error : nextState (step (idleWith [.write .w8 0x038 (.lit 0)])) = none := by decide
/-- V-HAZ: `w32 SRC_LEN, 0` while busy is dropped: STATUS = 0x00000011. -/
theorem test_busy_write_dropped :
    (nextState (step (waiting 0x10 (srcRegs 3 0) (ramWith 0 (ascii "abc")) [.write .w32 0x018 (.lit 0)]))).map
      (fun t => (t.statusWord, t.regs.srcLen)) = some (0x00000011, 3) := by decide +kernel
/-- R47, R28: while SHA1 waits, STATUS holds BUSY = 1 and its source byte 2 reads 'c'. -/
theorem test_busy_reads :
    (nextState (step (waiting 0x10 (srcRegs 3 0) (ramWith 0 (ascii "abc")) [.read .w8 0x1002 0]))).map
      (fun t => (t.host.vars, t.statusWord)) = some ([(0, 0x63)], 0x00000001) := by decide +kernel
/-- V-HAZ: a soft reset keeps RAM and drops the command. -/
theorem test_soft_reset :
    (nextState (step (waiting 0x10 (srcRegs 3 0) (ramWith 0 (ascii "abc")) [.write .w32 0x008 (.lit 3)]))).map
      (fun t => (t.statusWord, t.regs.step, t.ram.bytesAt? 0 3)) = some (0, 30, some (ascii "abc")) := by
  decide +kernel

/-! ### Witnesses: concrete inputs that meet the hypotheses of each obligation, clause by clause -/

/-- A 16-byte message at 0 with SRC = (0, 16), in place. -/
def aesBusy (c : Word) : State := started c (aesRegs 16) (ramWith 0 fipsInput)

/-- HOTP or TOTP over the raw key of the vectors. -/
def otpBusy (c : Word) : State := started c (keyRegs 20) (ramWith 0 otpKey)

/-- The latch of a started command. -/
def latchOf (c : Word) (r : Regs) : Latch := { r.latch with cmd := c }

theorem witness_DecodeEncodeRoundTrip :
    Instr.wf (.totp (.b32 .hex) 10) = true ∧ Instr.wf (.hotp .raw 0) = true ∧ Instr.wf .nop = true := by decide
theorem witness_EncodeDecodeRoundTrip : ∃ i, decode 0x000A0313 = .ok i := ⟨.totp (.b32 .hex) 10, by decide⟩
theorem witness_AssemblerRoundTrip : Instr.wf (.hotp (.b32 .hex) 6) = true := by decide

theorem witness_DecodeRefuses_opcode : ∀ o : Opcode, o.code ≠ (0x24 : Word).extractLsb' 0 8 := by
  intro o; cases o <;> decide
theorem witness_DecodeRefuses_field_bit :
    Opcode.nop.code = (0x80000000 : Word).extractLsb' 0 8
    ∧ ∃ n, 8 ≤ n ∧ n < 32 ∧ (0x80000000 : Word).getLsbD n = true ∧ fieldBitAllowed .nop n = false :=
  ⟨by decide, 31, by decide⟩
theorem witness_DecodeRefuses_key_form :
    Opcode.hmac.code = (0x111 : Word).extractLsb' 0 8
    ∧ (0x111 : Word).getLsbD 9 = false ∧ (0x111 : Word).getLsbD 8 = true := by decide
theorem witness_DecodeRefuses_key_size :
    Opcode.aesCbcDec.code = (0x3023 : Word).extractLsb' 0 8 ∧ (0x3023 : Word).extractLsb' 12 2 = 3 := by decide
theorem witness_DecodeRefuses_digits :
    Opcode.hotp.code = (0xB0012 : Word).extractLsb' 0 8
    ∧ (¬ ∃ n, 8 ≤ n ∧ n < 32 ∧ (0xB0012 : Word).getLsbD n = true ∧ fieldBitAllowed .hotp n = false)
    ∧ (0xB0012 : Word).getLsbD 8 = false ∧ 11 ≤ ((0xB0012 : Word).extractLsb' 16 4).toNat := by
  refine ⟨by decide, ?_, by decide, by decide⟩
  rintro ⟨n, h8, h32, h⟩
  interval_cases n <;> revert h <;> decide
theorem witness_DecodeRefuses_none :
    Opcode.hotp.code = (0xA0012 : Word).extractLsb' 0 8
    ∧ (¬ ∃ n, 8 ≤ n ∧ n < 32 ∧ (0xA0012 : Word).getLsbD n = true ∧ fieldBitAllowed .hotp n = false)
    ∧ (0xA0012 : Word).getLsbD 8 = false ∧ ¬ 11 ≤ ((0xA0012 : Word).extractLsb' 16 4).toNat := by
  refine ⟨by decide, ?_, by decide, by decide⟩
  rintro ⟨n, h8, h32, h⟩
  interval_cases n <;> revert h <;> decide

theorem witness_StepRunsDecodedCommand :
    ((started 0x10 (srcRegs 3 0) []).latched = some (latchOf 0x10 (srcRegs 3 0))
      ∧ (started 0x10 (srcRegs 3 0) []).engineDelay = 0 ∧ decode (latchOf 0x10 (srcRegs 3 0)).cmd = .ok .sha1)
    ∧ State.reset.latched = none ∧ (waiting 0x10 (srcRegs 3 0) [] []).engineDelay ≠ 0 := by decide

theorem witness_ErrorCompletion_decode :
    (started 0x03 Regs.reset []).latched = some (latchOf 0x03 Regs.reset)
    ∧ (started 0x03 Regs.reset []).engineDelay = 0 ∧ decode (latchOf 0x03 Regs.reset).cmd = .error .badOpcode := by
  decide
theorem witness_ErrorCompletion_command :
    ∃ t, exec (.aesEcbEnc .k128) (started 0x20 (aesRegs 15) []) = .next t ∧ t.status.err = true :=
  exists_next_with (p := fun t => t.status.err) (by decide +kernel)
theorem witness_EngineStepCompletesCommand :
    (started 0 Regs.reset []).engineTurn = true ∧ ∃ t, step (started 0 Regs.reset []) = .next t :=
  ⟨by decide, exists_next (by decide)⟩
theorem witness_AcceptedStartLatchesOperands :
    State.reset.rst = false ∧ State.reset.latched = none ∧ (5 : Word).getLsbD 0 = true
    ∧ (5 : Word).getLsbD 1 = false := by decide
theorem witness_StartWhileBusyIsIgnored :
    (waiting 0x10 Regs.reset [] []).rst = false ∧ (waiting 0x10 Regs.reset [] []).latched ≠ none
    ∧ (1 : Word).getLsbD 0 = true ∧ (1 : Word).getLsbD 1 = false ∧ (3 : Word).getLsbD 1 = true := by decide
theorem witness_WritesWhileBusyAreDropped :
    (waiting 0x10 Regs.reset [] []).rst = false ∧ (waiting 0x10 Regs.reset [] []).latched ≠ none
    ∧ Width.legalAt .w8 0x1FFF = true ∧ Width.legalAt .w32 0x000 = true ∧ Width.legalAt .w32 0x00C = true := by decide
theorem witness_RunningCommandIsProtected :
    (waiting 0x10 Regs.reset [] [.write .w32 0x018 (.lit 1)]).latched ≠ none
    ∧ (waiting 0x10 Regs.reset [] [.write .w32 0x018 (.lit 1)]).engineTurn = false
    ∧ ∃ t, step (waiting 0x10 Regs.reset [] [.write .w32 0x018 (.lit 1)]) = .next t :=
  ⟨by decide, by decide, exists_next (by decide)⟩
theorem witness_OnlyStart_makes_busy :
    (idleWith [.write .w32 0x008 (.lit 1)]).busy = false
    ∧ ∃ t, step (idleWith [.write .w32 0x008 (.lit 1)]) = .next t ∧ t.busy = true :=
  ⟨by decide, exists_next_with (p := State.busy) (by decide)⟩
theorem witness_OnlyEngineOrReset_makes_idle :
    (waiting 0x10 Regs.reset [] [.write .w32 0x008 (.lit 2)]).busy = true
    ∧ ∃ t, step (waiting 0x10 Regs.reset [] [.write .w32 0x008 (.lit 2)]) = .next t ∧ (!t.busy) = true :=
  ⟨by decide, exists_next_with (p := fun t => !t.busy) (by decide +kernel)⟩
theorem witness_LatchedCommandFinishes :
    (waiting 0 Regs.reset [] []).busy = true
    ∧ ∃ u, Host.Core.run Sys2Proof.core ((waiting 0 Regs.reset [] []).engineDelay + 1) (waiting 0 Regs.reset [] [])
        = .next u :=
  ⟨by decide, exists_next (by decide +kernel)⟩
theorem witness_OutcomeDependsOnlyOnLatchAndRam :
    (started 0x10 (srcRegs 3 0) (ramWith 0 (ascii "abc"))).latched = some (latchOf 0x10 (srcRegs 3 0))
    ∧ (∃ t, exec .sha1 (started 0x10 (srcRegs 3 0) (ramWith 0 (ascii "abc"))) = .next t)
    ∧ (∃ t, exec (.totp .raw 0) (otpBusy 0x13) = .next t ∧ (!t.status.err) = true)
    ∧ (latchOf 0x22 (aesRegs 16)).srcLen ≠ 0
    ∧ ∃ t, exec (.aesCbcEnc .k128) (aesBusy 0x22) = .next t ∧ (!t.status.err) = true :=
  ⟨by decide, exists_next (by decide +kernel), exists_next_with (p := fun t => !t.status.err) (by decide +kernel),
    by decide, exists_next_with (p := fun t => !t.status.err) (by decide +kernel)⟩
/-- KEY = (0, k), SRC = (0, n) and DST = (0x100) over the one written byte of RAM, at 0. -/
def oneByteBusy (n k : Word) : State := started 0x11 { srcRegs n 0x100 with keyLen := k } (ramWith 0 (ascii "a"))

/-- Every byte that the command reads is written. -/
theorem not_holdsUnwritten_one : ¬ holdsUnwritten (ramWith 0 (ascii "a")) 0 1 := by
  rintro ⟨-, j, hj, hn⟩
  obtain rfl : j = 0 := Nat.lt_one_iff.1 hj
  revert hn
  decide
theorem holdsUnwritten_more {n : Word} (h : 1 < n.toNat) (hr : n.toNat ≤ 4096) :
    holdsUnwritten (ramWith 0 (ascii "a")) 0 n :=
  ⟨by rw [show (0 : Word).toNat = 0 from rfl, Nat.zero_add]; exact hr, 1, h, by decide⟩

theorem witness_CommandsStop_faults :
    exec .nop State.reset = .fault .noCommandLatched
    ∧ exec .sha1 (oneByteBusy 16 1) = .fault (.unwrittenEngineRead 0)
    ∧ exec (.hotp .raw 10) (oneByteBusy 1 2) = .fault (.unwrittenEngineRead 0) :=
  ⟨by rfl, eq_fault (by decide +kernel), eq_fault (by decide +kernel)⟩
/-- An unwritten source byte: of a Base32 encoding, of an AES command, and of an HMAC over a written key. -/
theorem witness_CommandsStop_source :
    (oneByteBusy 16 1).latched = some (latchOf 0x11 { srcRegs 16 0x100 with keyLen := 1 })
    ∧ (oneByteBusy 16 1).policy = .fault ∧ holdsUnwritten (oneByteBusy 16 1).ram 0 16
    ∧ (0x100 + 8 * ((16 + 4) / 5) ≤ Config.ramSize ∧ disjointRanges 0 16 0x100 (8 * ((16 + 4) / 5)))
    ∧ (16 % 16 = 0 ∧ 0x100 + 16 ≤ Config.ramSize ∧ disjointRanges 0 16 0x100 16)
    ∧ keyOperandIs (oneByteBusy 16 1).ram (latchOf 0x11 { srcRegs 16 0x100 with keyLen := 1 }) .raw (ascii "a") :=
  ⟨by decide, by decide, holdsUnwritten_more (by decide) (by decide), by unfold disjointRanges; decide,
    by unfold disjointRanges; decide, operandHolds_of_read (by decide +kernel) (by decide)⟩
theorem witness_CommandsStop_key :
    (oneByteBusy 1 2).latched = some (latchOf 0x11 { srcRegs 1 0x100 with keyLen := 2 })
    ∧ (oneByteBusy 1 2).policy = .fault ∧ holdsUnwritten (oneByteBusy 1 2).ram 0 2
    ∧ 0 + 1 ≤ Config.ramSize ∧ (10 : BitVec 4).toNat ≤ 10 :=
  ⟨by decide, by decide, holdsUnwritten_more (by decide) (by decide), by decide, by decide⟩
/-- Where every byte is written the policy `fault` stops nothing; the policy `draw` stops nothing anywhere. -/
theorem witness_CommandsStop_completes :
    ((oneByteBusy 1 1).latched = some (latchOf 0x11 { srcRegs 1 0x100 with keyLen := 1 })
      ∧ (oneByteBusy 1 1).policy = .fault ∧ readsSource (.hmac .raw) ∧ readsKey (.hmac .raw)
      ∧ ¬ holdsUnwritten (oneByteBusy 1 1).ram 0 1)
    ∧ ({ oneByteBusy 16 2 with policy := .draw } : State).latched ≠ none
    ∧ ({ oneByteBusy 16 2 with policy := .draw } : State).policy = .draw :=
  ⟨⟨by decide, by decide, trivial, trivial, not_holdsUnwritten_one⟩, by decide, by decide⟩

theorem witness_StepKeepsInvariant :
    Inv (started 0x10 (srcRegs 3 0) (ramWith 0 (ascii "abc")))
    ∧ ∃ t, step (started 0x10 (srcRegs 3 0) (ramWith 0 (ascii "abc"))) = .next t := by
  refine ⟨⟨by decide, by decide, by decide, ?_, by decide, ⟨by decide, by decide, by decide⟩, by decide⟩,
    exists_next (by decide +kernel)⟩
  intro L hL
  exact (Option.some.inj hL).symm

theorem witness_IllegalAccessesFault :
    (0x1FFE < 0x2000 ∧ 0x1000 ≤ 0x1FFE ∧ Width.w32 = .w32 ∧ 0x1FFE % 4 ≠ 0)
    ∧ (0xFFE < 0x1000 ∧ 0xFFE % 4 ≠ 0)
    ∧ ¬ ((0x1000 < 0x1000 ∧ (Width.w8 ≠ .w32 ∨ 0x1000 % 4 ≠ 0))
      ∨ (0x1000 ≤ 0x1000 ∧ ((Width.w8 = .w16 ∧ 0x1000 % 2 ≠ 0) ∨ (Width.w8 = .w32 ∧ 0x1000 % 4 ≠ 0)))) := by decide
/-- Clause by clause: a write at the last word of an idle block; a read of written bytes; while a B32DEC runs over an
unwritten source, its written source byte 1 above DST_ADDR = 0; an unwritten byte of an idle block; and the last
byte that an AES command may write. -/
theorem witness_RamAccessesAreLittleEndian :
    (State.reset.rst = false ∧ State.reset.latched = none ∧ Width.legalAt .w32 (0x1000 + 4092) = true)
    ∧ (∀ j, j < Width.bytes .w32 → ((ramWith 4092 (ascii "ABCD")).byteAt (4092 + j)).isSome = true)
    ∧ (readsCurrent (started 0x02 (srcRegs 8 0) (ramWith 1 [0x41])) 1
      ∧ (started 0x02 (srcRegs 8 0) (ramWith 1 [0x41])).ram.byteAt 1 = some 0x41
      ∧ (started 0x02 (srcRegs 8 0) (ramWith 1 [0x41])).busRead .w8 0x1001 = .ok 0x41)
    ∧ (readsCurrent State.reset 4095 ∧ State.reset.ram.byteAt 4095 = none ∧ State.reset.policy = .fault)
    ∧ (∃ x, ({ State.reset with policy := .draw } : State).busRead .w8 0x1FFF = .ok x)
    ∧ ((started 0x20 { aesRegs 16 with dstAddr := 4080 } []).latched = some (latchOf 0x20 { aesRegs 16 with dstAddr := 4080 })
      ∧ (∃ x, (started 0x20 { aesRegs 16 with dstAddr := 4080 } []).busRead .w8 0x1FFF = .ok x)
      ∧ 4080 ≤ 4095 ∧ 0 + 16 ≤ 4095 ∧ 4095 < 4080 + 16) := by
  refine ⟨by decide, by decide, ⟨?_, by decide, by decide +kernel⟩, ⟨?_, by decide, by decide⟩, ⟨_, rfl⟩,
    by decide, ⟨_, rfl⟩, by decide⟩
  · intro L hL
    obtain rfl : latchOf 0x02 (srcRegs 8 0) = L := Option.some.inj hL
    exact .inr (.inr (by decide))
  · intro L hL
    cases hL
/-- The hypotheses of RegistersFollowMapAndAccessType, StatusLayoutAndWriteOneToClear, ReservedSpace… and
IdentityRegistersAreConstant, at the ends of their ranges. -/
theorem witness_RegisterSpace :
    State.reset.rst = false ∧ State.reset.latched = none
    ∧ (0x0AC ∈ [0x010, 0x014, 0x018, 0x01C, 0x020, 0x024, 0x030, 0x034, 0x038, 0x03C, 0x040, 0x0A0, 0x0A4, 0x0A8, 0x0AC])
    ∧ (0x000 ∈ [0x000, 0x004, 0x028, 0x044, 0x048, 0x04C, 0x050, 0x054, 0x060, 0x064, 0x068, 0x06C, 0x070])
    ∧ 0x09C = 0x080 + 4 * 7 ∧ 0x0B0 % 4 = 0 ∧ (0x0B0 ≤ 0x0B0 ∧ 0x0B0 ≤ 0xFFF) ∧ 0x07C % 4 = 0 ∧ (0x074 ≤ 0x07C ∧ 0x07C ≤ 0x07C)
    ∧ 0xFFC % 4 = 0 ∧ (0x0B0 ≤ 0xFFC ∧ 0xFFC ≤ 0xFFF) ∧ (waiting 0 Regs.reset [] []).latched ≠ none
    ∧ (waiting 0 Regs.reset [] []).rst = false := by decide
/-- The ends of the register lists and of the strings of RegistersFollowMapAndAccessType. -/
theorem witness_RegistersFollowMap :
    (0x010, Regs.reset.cmd) ∈ statedOperandRegisters State.reset
    ∧ (0x038, (30 : Word)) ∈ statedOperandRegisters (waiting 0 Regs.reset [] [])
    ∧ (0x028, Results.reset.resLen) ∈ statedResultRegisters State.reset
    ∧ (0x04C, 12, Results.reset.otpStr.bytes) ∈ statedStringRegisters State.reset ∧ 11 < 12
    ∧ (0x0A0, 16, Regs.reset.aesIv.bytes) ∈ statedStringRegisters State.reset ∧ 15 < 16 := by decide
theorem witness_BusyReadsCarryNoResult : (waiting 0x10 Regs.reset [] []).latched ≠ none := by decide
/-- Both levels of `pin`, idle and while a command waits; legal accesses at the end of each window, in reset. -/
theorem witness_ResetInputResetsAndBlocksAccesses :
    ((idleWith [.pin true]).latched = none ∧ (idleWith [.pin true]).host.current = some (.pin true))
    ∧ ((waiting 0x10 Regs.reset [] [.pin true]).engineDelay ≠ 0
      ∧ (waiting 0x10 Regs.reset [] [.pin true]).host.current = some (.pin true))
    ∧ ((waiting 0x10 Regs.reset [] [.pin false]).engineDelay ≠ 0
      ∧ (waiting 0x10 Regs.reset [] [.pin false]).host.current = some (.pin false))
    ∧ ({ idleWith [.pin false] with rst := true } : State).host.current = some (.pin false)
    ∧ ({ State.reset with rst := true } : State).rst = true
    ∧ Width.legalAt .w32 0xFFC = true ∧ Width.legalAt .w16 0x1FFE = true := by decide
theorem witness_SoftResetClearsRegistersKeepsRam :
    State.reset.rst = false ∧ (2 : Word).getLsbD 1 = true ∧ State.reset.latched = none
    ∧ (started 0x20 (aesRegs 16) []).rst = false
    ∧ (started 0x20 (aesRegs 16) []).latched = some (latchOf 0x20 (aesRegs 16)) := by decide
theorem witness_AbortedDestinationSpan_encode_and_aes :
    (latchOf 0x01 (srcRegs 5 4088)).cmd.extractLsb' 0 8 = 0x01
    ∧ (latchOf 0x01 (srcRegs 5 4088)).dstAddr.toNat + 8 * ((5 + 4) / 5) ≤ Config.ramSize
    ∧ (latchOf 0x20 (aesRegs 16)).cmd.extractLsb' 0 8 = 0x20
    ∧ (latchOf 0x20 (aesRegs 16)).dstAddr.toNat + 16 ≤ Config.ramSize
    ∧ (latchOf 0x10 (aesRegs 16)).cmd.extractLsb' 0 8 = 0x10 := by decide
theorem witness_AbortedDestinationSpan_decode :
    (latchOf 0x02 (srcRegs 8 4095)).cmd.extractLsb' 0 8 = 0x02
    ∧ operandHolds (ramWith 0 (ascii "MY======")) (srcRegs 8 4095).srcAddr (srcRegs 8 4095).srcLen (ascii "MY======")
    ∧ b32decode .std (ascii "MY======") = .ok [0x66] ∧ (4095 : Word).toNat + 1 ≤ Config.ramSize :=
  ⟨by decide, operandHolds_of_read (by decide +kernel) (by decide), by decide +kernel, by decide⟩
theorem witness_AbortedDestinationSpan_error :
    operandHolds (ramWith 0 (ascii "ABCDEF==")) (srcRegs 8 0).srcAddr (srcRegs 8 0).srcLen (ascii "ABCDEF==")
    ∧ b32decode .std (ascii "ABCDEF==") = .error .b32Pad :=
  ⟨operandHolds_of_read (by decide +kernel) (by decide), by decide +kernel⟩
theorem witness_CompletionIsAcknowledged :
    State.reset.rst = false ∧ State.reset.latched = none ∧ (1 : Word).getLsbD 0 = true
    ∧ (1 : Word).getLsbD 1 = false ∧ (4 : Word).getLsbD 0 = false ∧ (4 : Word).getLsbD 1 = false := by decide

/-- A padding run, by conditions that can be decided. -/
theorem isPadRun_of {t : List Byte} {p : Nat} (h1 : p ≤ t.length)
    (h2 : ∀ i, i < t.length → t.length - p ≤ i → t[i]? = some 0x3D)
    (h3 : p < t.length → t[t.length - p - 1]? ≠ some 0x3D) : isPadRun t p :=
  ⟨h1, fun i a b => h2 i b a, h3⟩

/-- The padding runs of "ABCDEF==" (2: B32_PAD), "!A======" (6: B32_CHAR), "ABC" (0: B32_REM) and "MY======" (6). -/
theorem witness_DecodeChecksInOrder :
    isPadRun (ascii "ABCDEF==") 2 ∧ isPadRun (ascii "!A======") 6 ∧ isPadRun (ascii "ABC") 0
    ∧ isPadRun (ascii "MY======") 6 := by
  exact ⟨isPadRun_of (by decide) (by decide) (by decide), isPadRun_of (by decide) (by decide) (by decide),
    isPadRun_of (by decide) (by decide) (by decide), isPadRun_of (by decide) (by decide) (by decide)⟩

theorem witness_B32EncWritesEncoding :
    (started 0x01 (srcRegs 6 4080) (ramWith 0 (ascii "foobar"))).latched = some (latchOf 0x01 (srcRegs 6 4080))
    ∧ operandHolds (ramWith 0 (ascii "foobar")) (srcRegs 6 4080).srcAddr (srcRegs 6 4080).srcLen (ascii "foobar")
    ∧ (srcRegs 6 4080).dstAddr.toNat + 8 * ((6 + 4) / 5) ≤ Config.ramSize
    ∧ disjointRanges 0 6 4080 (8 * ((6 + 4) / 5)) :=
  ⟨by decide, operandHolds_of_read (by decide +kernel) (by decide), by decide, by unfold disjointRanges; decide⟩
theorem witness_B32DecWritesDecoding :
    (started 0x02 (srcRegs 8 4095) (ramWith 0 (ascii "MY======"))).latched = some (latchOf 0x02 (srcRegs 8 4095))
    ∧ operandHolds (ramWith 0 (ascii "MY======")) (srcRegs 8 4095).srcAddr (srcRegs 8 4095).srcLen (ascii "MY======")
    ∧ b32decode .std (ascii "MY======") = .ok [0x66] ∧ (srcRegs 8 4095).dstAddr.toNat + 1 ≤ Config.ramSize
    ∧ disjointRanges 0 8 4095 1 :=
  ⟨by decide, operandHolds_of_read (by decide +kernel) (by decide), by decide +kernel, by decide,
    by unfold disjointRanges; decide⟩
/-- V-B32ENC: the boundary cases 4097 > 4096, 4081 + 16 > 4096 and the overlap at 0x104; V-B32DEC: 4092 + 5 > 4096. -/
theorem witness_Base32CommandErrors :
    Config.ramSize < 4000 + 97 ∧ (0 + 6 ≤ Config.ramSize ∧ Config.ramSize < 4081 + 8 * ((6 + 4) / 5))
    ∧ (0x104 + 16 ≤ Config.ramSize ∧ ¬ disjointRanges 0x100 6 0x104 (8 * ((6 + 4) / 5)))
    ∧ operandHolds (ramWith 0 (ascii "MZXW6YTB")) 0 8 (ascii "MZXW6YTB")
    ∧ b32decode .std (ascii "MZXW6YTB") = .ok (ascii "fooba") ∧ b32decode .hex (ascii "MZXW6YTB") = .error .b32Char
    ∧ Config.ramSize < 4092 + (ascii "fooba").length
    ∧ (4 + (ascii "fooba").length ≤ Config.ramSize ∧ ¬ disjointRanges 0 8 4 5) :=
  ⟨by decide, by decide, by unfold disjointRanges; decide, operandHolds_of_read (by decide +kernel) (by decide),
    by decide +kernel, by decide +kernel, by decide, by unfold disjointRanges; decide⟩

theorem witness_NopOnlyCompletes : (started 0 Regs.reset []).latched = some (latchOf 0 Regs.reset) := by decide
theorem witness_Sha1WritesDigest :
    (started 0x10 (srcRegs 3 0) (ramWith 0 (ascii "abc"))).latched = some (latchOf 0x10 (srcRegs 3 0))
    ∧ operandHolds (ramWith 0 (ascii "abc")) (srcRegs 3 0).srcAddr (srcRegs 3 0).srcLen (ascii "abc")
    ∧ Config.ramSize < (srcRegs 4097 0).srcAddr.toNat + (srcRegs 4097 0).srcLen.toNat :=
  ⟨by decide, operandHolds_of_read (by decide +kernel) (by decide), by decide⟩
theorem witness_HmacWritesDigest :
    (started 0x11 { keyRegs 20 with srcLen := 3 } (ramWith 0 otpKey)).latched
      = some (latchOf 0x11 { keyRegs 20 with srcLen := 3 })
    ∧ operandHolds (ramWith 0 otpKey) 0 3 (ascii "123")
    ∧ keyOperandIs (ramWith 0 otpKey) (latchOf 0x11 { keyRegs 20 with srcLen := 3 }) .raw otpKey :=
  ⟨by decide, operandHolds_of_read (by decide +kernel) (by decide), operandHolds_of_read (by decide +kernel) (by decide)⟩
theorem witness_HotpWritesCode :
    (otpBusy 0x000A0012).latched = some (latchOf 0x000A0012 (keyRegs 20))
    ∧ keyOperandIs (ramWith 0 otpKey) (latchOf 0x000A0012 (keyRegs 20)) .raw otpKey ∧ (10 : BitVec 4).toNat ≤ 10 :=
  ⟨by decide, operandHolds_of_read (by decide +kernel) (by decide), by decide⟩
/-- The key as Base32 text (V-B32DEC: "MY======" is 66). -/
theorem witness_TotpWritesCodeAndCounter :
    (started 0x00000213 (keyRegs 8) (ramWith 0 (ascii "MY======"))).latched = some (latchOf 0x00000213 (keyRegs 8))
    ∧ keyOperandIs (ramWith 0 (ascii "MY======")) (latchOf 0x00000213 (keyRegs 8)) (.b32 .std) [0x66]
    ∧ (0 : BitVec 4).toNat ≤ 10 :=
  ⟨by decide, ⟨ascii "MY======", operandHolds_of_read (by decide +kernel) (by decide), by decide +kernel⟩, by decide⟩
theorem witness_KeyedCommandErrors :
    (otpBusy 0x13).latched = some (latchOf 0x13 (keyRegs 20)) ∧ 11 ≤ (11 : BitVec 4).toNat
    ∧ Config.ramSize < 4096 + 1 ∧ (Config.ramSize < 4090 + 20 ∧ (10 : BitVec 4).toNat ≤ 10 ∧ 0 + 0 ≤ Config.ramSize)
    ∧ operandHolds (ramWith 0 (ascii "A")) 0 1 (ascii "A") ∧ b32decode .std (ascii "A") = .error .b32Rem :=
  ⟨by decide, by decide, by decide, by decide, operandHolds_of_read (by decide +kernel) (by decide), by decide +kernel⟩
theorem witness_OtpCodeFormat : (counting 20).length = 20 ∧ 9999999999 < 10 ^ 10 ∧ 0 < 10 ^ 0 := by decide
/-- V-TOTP: TIME = 0 and TIME = 29 lie in one window of 30 seconds. -/
theorem witness_TotpIsConstantInWindow :
    (otpBusy 0x13).latched = some (latchOf 0x13 (keyRegs 20)) ∧ (∃ t, exec (.totp .raw 0) (otpBusy 0x13) = .next t)
    ∧ (29 : DWord).toNat / max (latchOf 0x13 (keyRegs 20)).step.toNat 1
      = (latchOf 0x13 (keyRegs 20)).time.toNat / max (latchOf 0x13 (keyRegs 20)).step.toNat 1 :=
  ⟨by decide, exists_next (by decide +kernel), by decide⟩
/-- TIME = 0 gives C = 0, which is also the CNT a following HOTP latches. -/
theorem witness_HotpReproducesTotp :
    (otpBusy 0x13).latched = some (latchOf 0x13 (keyRegs 20))
    ∧ keyOperandIs (otpBusy 0x13).ram (latchOf 0x13 (keyRegs 20)) .raw otpKey
    ∧ (∃ t, exec (.totp .raw 0) (otpBusy 0x13) = .next t
        ∧ (!t.status.err && (latchOf 0x12 (keyRegs 20)).cnt == t.regs.cntHi ++ t.regs.cntLo) = true)
    ∧ (otpBusy 0x12).latched = some (latchOf 0x12 (keyRegs 20))
    ∧ keyOperandIs (otpBusy 0x12).ram (latchOf 0x12 (keyRegs 20)) .raw otpKey :=
  ⟨by decide, operandHolds_of_read (by decide +kernel) (by decide),
    exists_next_with (p := fun t => !t.status.err && (latchOf 0x12 (keyRegs 20)).cnt == t.regs.cntHi ++ t.regs.cntLo)
      (by decide +kernel),
    by decide, operandHolds_of_read (by decide +kernel) (by decide)⟩
theorem witness_HashCommandsStoreNothing :
    (∃ t, exec .nop (otpBusy 0) = .next t) ∧ (∃ t, exec .sha1 (otpBusy 0) = .next t)
    ∧ (∃ t, exec (.hmac .raw) (otpBusy 0) = .next t) ∧ (∃ t, exec (.hotp .raw 10) (otpBusy 0) = .next t)
    ∧ ∃ t, exec (.totp .raw 6) (otpBusy 0) = .next t :=
  ⟨exists_next (by decide +kernel), exists_next (by decide +kernel), exists_next (by decide +kernel),
    exists_next (by decide +kernel), exists_next (by decide +kernel)⟩
theorem witness_StoringCommandsFrame :
    (aesBusy 0x20).latched = some (latchOf 0x20 (aesRegs 16))
    ∧ (∃ t, exec (.aesEcbEnc .k256) (aesBusy 0x20) = .next t) ∧ (∃ t, exec (.aesCbcDec .k192) (aesBusy 0x20) = .next t)
    ∧ (∃ t, exec (.b32enc .std) (started 0x01 (srcRegs 6 0x100) (ramWith 0 (ascii "foobar"))) = .next t)
    ∧ ∃ t, exec (.b32dec .hex) (started 0x02 (srcRegs 8 0x100) (ramWith 0 (ascii "CO======"))) = .next t :=
  ⟨by decide, exists_next (by decide +kernel), exists_next (by decide +kernel), exists_next (by decide +kernel),
    exists_next (by decide +kernel)⟩

theorem witness_AesFollowsRoundsAndInverts : fipsInput.length = 16 ∧ (counting 24).length = 4 * statedNk .k192 := by
  decide
theorem witness_CbcDecryptInvertsEncrypt : (counting 16).length = 16 ∧ ∀ p ∈ [fipsInput, counting 16], p.length = 16 := by
  decide
/-- A started CBC command in place over written bytes is ready. -/
theorem cbcReady_started {r : Regs} {m : Memory} {bs : List Byte} (c : Word)
    (h : operandHolds m r.srcAddr r.srcLen bs) (h16 : r.srcLen.toNat % 16 = 0) (hd : r.dstAddr = r.srcAddr) :
    cbcReady (started c r m) (latchOf c r) bs :=
  ⟨rfl, rfl, h, h16, by rw [show (latchOf c r).dstAddr = r.srcAddr from hd]; exact h.2.1, .inl hd⟩

/-- Blocks FIPS, then 0, 1, 2, …: the second command latches the AES_IV that the first one leaves. -/
theorem witness_CbcChainsAcrossCommands :
    ∃ t, exec (.aesCbcEnc .k128) (aesBusy 0x22) = .next t
      ∧ cbcReady (aesBusy 0x22) (latchOf 0x22 (aesRegs 16)) fipsInput
      ∧ cbcReady (started 0x22 { aesRegs 16 with aesIv := t.regs.aesIv } (ramWith 0 (counting 16)))
          (latchOf 0x22 { aesRegs 16 with aesIv := t.regs.aesIv }) (counting 16)
      ∧ cbcReady (started 0x22 (aesRegs 32) (ramWith 0 (fipsInput ++ counting 16))) (latchOf 0x22 (aesRegs 32))
          (fipsInput ++ counting 16)
      ∧ (latchOf 0x22 { aesRegs 16 with aesIv := t.regs.aesIv }).aesKey = (latchOf 0x22 (aesRegs 16)).aesKey
      ∧ (latchOf 0x22 (aesRegs 32)).aesKey = (latchOf 0x22 (aesRegs 16)).aesKey
      ∧ (latchOf 0x22 (aesRegs 32)).iv = (latchOf 0x22 (aesRegs 16)).iv
      ∧ (latchOf 0x22 { aesRegs 16 with aesIv := t.regs.aesIv }).iv = t.regs.aesIv := by
  obtain ⟨t, ht⟩ := exists_next (o := exec (.aesCbcEnc .k128) (aesBusy 0x22)) (by decide +kernel)
  have hc : operandHolds (ramWith 0 (counting 16)) 0 16 (counting 16) :=
    operandHolds_of_read (by decide +kernel) (by decide)
  exact ⟨t, ht, cbcReady_started _ (operandHolds_of_read (by decide +kernel) (by decide)) (by decide) rfl,
    cbcReady_started _ hc (show (16 : Word).toNat % 16 = 0 by decide) rfl,
    cbcReady_started _ (operandHolds_of_read (by decide +kernel) (by decide)) (by decide) rfl, rfl, rfl, rfl, rfl⟩

/-- In place; and, for a disjoint destination, the last one that fits. The same states meet AesCbcCommandsChainBlocks. -/
theorem witness_AesEcbCommandsTransformBlocks :
    (aesBusy 0x20).latched = some (latchOf 0x20 (aesRegs 16))
    ∧ operandHolds (aesBusy 0x20).ram (latchOf 0x20 (aesRegs 16)).srcAddr (latchOf 0x20 (aesRegs 16)).srcLen fipsInput
    ∧ (latchOf 0x20 (aesRegs 16)).srcLen.toNat % 16 = 0
    ∧ (latchOf 0x20 (aesRegs 16)).dstAddr.toNat + (latchOf 0x20 (aesRegs 16)).srcLen.toNat ≤ Config.ramSize
    ∧ (latchOf 0x20 (aesRegs 16)).dstAddr = (latchOf 0x20 (aesRegs 16)).srcAddr
    ∧ 4080 + 16 ≤ Config.ramSize ∧ disjointRanges 0 16 4080 16 :=
  ⟨by decide, operandHolds_of_read (by decide +kernel) (by decide), by decide, by decide, by decide, by decide,
    by unfold disjointRanges; decide⟩
theorem witness_AesCbcCommandsChainBlocks :
    (aesBusy 0x22).latched = some (latchOf 0x22 (aesRegs 16))
    ∧ operandHolds (aesBusy 0x22).ram (latchOf 0x22 (aesRegs 16)).srcAddr (latchOf 0x22 (aesRegs 16)).srcLen fipsInput
    ∧ (latchOf 0x22 (aesRegs 16)).srcLen.toNat % 16 = 0
    ∧ (latchOf 0x22 (aesRegs 16)).dstAddr.toNat + (latchOf 0x22 (aesRegs 16)).srcLen.toNat ≤ Config.ramSize
    ∧ (latchOf 0x22 (aesRegs 16)).dstAddr = (latchOf 0x22 (aesRegs 16)).srcAddr
    ∧ blocks16 fipsInput 1 = [fipsInput] ∧ blocks16 [] 0 = [] :=
  ⟨by decide, operandHolds_of_read (by decide +kernel) (by decide), by decide, by decide, by decide, by decide, rfl⟩
/-- V-AES: lengths 15 and 17; SRC_LEN = 16 at 4088; SRC = (0x200, 32) with DST_ADDR = 0x210. -/
theorem witness_AesCommandErrors :
    (started 0x20 (aesRegs 15) []).latched = some (latchOf 0x20 (aesRegs 15)) ∧ 15 % 16 ≠ 0 ∧ 17 % 16 ≠ 0
    ∧ (16 % 16 = 0 ∧ Config.ramSize < 4088 + 16)
    ∧ (32 % 16 = 0 ∧ 0x200 + 32 ≤ Config.ramSize ∧ 0x210 + 32 ≤ Config.ramSize ∧ (0x210 : Word) ≠ 0x200
      ∧ ¬ disjointRanges 0x200 32 0x210 32) :=
  ⟨by decide, by decide, by decide, by decide, by unfold disjointRanges; decide⟩

/-- Two assigned variables; non-negative operands, 0 among them. -/
theorem witness_HostStatements_expressions :
    ([(0, 1), (3, -2)] : List (Nat × Int)).Pairwise (fun c d => c.1 < d.1) ∧ (3, -2) ∈ [(0, (1 : Int)), (3, -2)]
    ∧ evalExpr [] (.lit 0) = (0 : Nat) ∧ evalExpr [(0, 1)] (.add (.var 0) (.lit 4)) = (5 : Nat) := by decide
/-- Idle and busy; for the write statement, -1 modulo 2^8 is 255. -/
theorem witness_HostStatementsFollowNotation :
    (idleWith [.bnz (.lit 1) 0]).latched = none
    ∧ (waiting 0 Regs.reset [] [.bnz (.lit 1) 0]).engineDelay ≠ 0
    ∧ (idleWith [.bnz (.lit 1) 0]).host.current = some (.bnz (.lit 1) 0)
    ∧ (waiting 0 Regs.reset [] [.bz (.lit 0) 1]).host.current = some (.bz (.lit 0) 1)
    ∧ (idleWith [.write .w8 0x1FFF (.lit (-1))]).host.current = some (.write .w8 0x1FFF (.lit (-1)))
    ∧ (((255 : Word).toNat : Int) = evalExpr [] (.lit (-1)) % 2 ^ (8 * Width.bytes .w8))
    ∧ (nextState (step (idleWith [.write .w8 0x1FFF (.lit (-1))]))).isSome = true
    ∧ (idleWith [.write .w8 0x000 (.lit 0)]).busWrite .w8 0x000 0 = .error (.busError .w8 0x000)
    ∧ (idleWith []).host.halted = true ∧ (idleWith [.halt]).host.halted = true := by decide
theorem witness_HostReadsHaveNoSideEffect :
    (waiting 0 Regs.reset [] [.read .w32 0x000 7]).engineDelay ≠ 0
    ∧ (waiting 0 Regs.reset [] [.read .w32 0x000 7]).host.current = some (.read .w32 0x000 7)
    ∧ (waiting 0 Regs.reset [] [.read .w32 0x000 7]).busRead .w32 0x000 = .ok 0x544F5450
    ∧ (idleWith [.read .w8 0x1000 0]).host.current = some (.read .w8 0x1000 0)
    ∧ (idleWith [.read .w8 0x1000 0]).busRead .w8 0x1000 = .error (.unwrittenHostRead 0) := by decide +kernel

end Sys2Proof.Tests
end

/-! The proofs of the statements about the state, the bus, resets and the digests (family 10_state). -/

namespace Sys2Proof.Machine

/-! ### What a command writes keeps RAM and the OTP registers in order -/

/-- R37, R38: a triple of OTP registers that agrees. -/
def OtpResult.consistent (o : OtpResult) : Prop :=
  o.len.toNat ≤ 10 ∧ o.code.toNat < 10 ^ o.len.toNat ∧ o.str = otpString o.code.toNat o.len.toNat

/-- R37, R38, R128: writes that store inside RAM only and give the OTP registers values that agree. -/
structure Writes.sound (w : Writes) : Prop where
  ram : ∀ p, w.ram = some p → p.1 + p.2.length ≤ Config.ramSize
  otp : ∀ o, w.otp = some o → o.consistent

theorem Writes.sound_of_none {w : Writes} (hr : w.ram = none) (ho : w.otp = none) : w.sound :=
  ⟨by simp [hr], by simp [ho]⟩

/-- Writes to a destination that lies in RAM, whatever AES_IV they carry. -/
theorem writeDest_sound {L : Latch} {bs : List Byte} (h : L.dstAddr.toNat + bs.length ≤ Config.ramSize)
    (iv : Option Words4) : ({ writeDest L bs with iv := iv } : Writes).sound := by
  refine ⟨fun p hp => ?_, fun o ho => by simp [writeDest] at ho⟩
  obtain rfl : (L.dstAddr.toNat, bs) = p := by simpa [writeDest] using hp
  exact h

/-- R196: the truncated value has 31 bits. -/
theorem dynamicTruncate_lt (d : List Byte) : dynamicTruncate d < 2 ^ 31 := by
  have h7 : ∀ b : Byte, (b &&& 0x7F).toNat ≤ 127 := fun b => by
    rw [BitVec.toNat_and]; exact Nat.and_le_right
  simp only [dynamicTruncate, beVal, List.foldl_cons, List.foldl_nil]
  have h0 := h7 (d.getD ((d.getD 19 0 &&& 0x0F).toNat) 0)
  omega

theorem digitCount_le {d : BitVec 4} (h : d.toNat ≤ 10) : digitCount d ≤ 10 := by
  unfold digitCount; split <;> omega

/-- R197: the code of a digest has at most `digits` decimal digits and fits OTP_CODE. -/
theorem hotpCode_lt (d : List Byte) (digits : Nat) : hotpCode d digits < 10 ^ digits ∧ hotpCode d digits < 2 ^ 32 := by
  have := dynamicTruncate_lt d
  have : hotpCode d digits ≤ dynamicTruncate d := Nat.mod_le _ _
  exact ⟨Nat.mod_lt _ (by positivity), by omega⟩

/-- R200: the OTP registers of a successful HOTP or TOTP agree, whatever CNT and STEP0 its writes carry. -/
theorem otpWrites_sound (k : List Byte) (counter : Nat) {digits : Nat} (h : digits ≤ 10) (cnt : Option DWord)
    (step0 : Bool) : ({ otpWrites k counter digits with cnt := cnt, step0 := step0 } : Writes).sound := by
  refine ⟨fun p hp => by simp [otpWrites] at hp, fun o ho => ?_⟩
  simp only [otpWrites, Option.some.injEq] at ho
  obtain ⟨hlt, h32⟩ := hotpCode_lt (hotpDigest k counter) digits
  subst ho
  simp only [OtpResult.consistent, BitVec.toNat_ofNat, Nat.mod_eq_of_lt h32,
    Nat.mod_eq_of_lt (show digits < 2 ^ 32 by omega)]
  exact ⟨h, hlt, trivial⟩

theorem aesInput_block_length {L : Latch} {v : EngineView} {p : List (List Byte)} (h : aesInput L v = .ok p) :
    L.dstAddr.toNat + 16 * p.length ≤ Config.ramSize ∧ ∀ b ∈ p, b.length = 16 := by
  obtain ⟨h16, hd, bs, hbs, rfl⟩ := aesInput_ok h
  have hl : bs.length = L.srcLen.toNat := memRead_length hbs
  exact ⟨by rw [blocks16_count]; omega, blocks16_block_length (by omega)⟩

/-- Every command's step is the run of an `execute` whose successful writes are sound. -/
theorem exec_eq_runCommand_sound (i : Instr) :
    ∃ body : Latch → EngineView → Except Stop Writes,
      (∀ s, exec i s = runCommand i.opcode.isOtp body s) ∧ ∀ L v w, body L v = .ok w → w.sound := by
  cases i with
  | nop =>
    refine ⟨nopBody, fun _ => rfl, fun L v w h => ?_⟩
    rw [nopBody_ok h]
    exact Writes.sound_of_none rfl rfl
  | b32enc a =>
    refine ⟨b32encBody a, fun _ => rfl, fun L v w h => ?_⟩
    obtain ⟨-, hd, bs, hbs, rfl⟩ := b32encBody_ok h
    refine writeDest_sound ?_ none
    rwa [b32encode_length, show bs.length = L.srcLen.toNat from memRead_length hbs]
  | b32dec a =>
    refine ⟨b32decBody a, fun _ => rfl, fun L v w h => ?_⟩
    obtain ⟨-, text, bs, -, -, hd, rfl⟩ := b32decBody_ok h
    exact writeDest_sound hd none
  | sha1 =>
    refine ⟨sha1Body, fun _ => rfl, fun L v w h => ?_⟩
    obtain ⟨m, -, rfl⟩ := sha1Body_ok h
    exact Writes.sound_of_none rfl rfl
  | hmac k =>
    refine ⟨hmacBody k, fun _ => rfl, fun L v w h => ?_⟩
    obtain ⟨_, _, -, -, rfl⟩ := hmacBody_ok h
    exact Writes.sound_of_none rfl rfl
  | hotp k d =>
    refine ⟨hotpBody k d, fun _ => rfl, fun L v w h => ?_⟩
    obtain ⟨hd, kb, -, rfl⟩ := hotpBody_ok h
    exact otpWrites_sound kb _ (digitCount_le hd) none false
  | totp k d =>
    refine ⟨totpBody k d, fun _ => rfl, fun L v w h => ?_⟩
    obtain ⟨hd, kb, -, rfl⟩ := totpBody_ok h
    exact otpWrites_sound kb _ (digitCount_le hd) _ _
  | aesEcbEnc ks =>
    refine ⟨aesEcbEncBody ks, fun _ => rfl, fun L v w h => ?_⟩
    obtain ⟨p, hp, rfl⟩ := aesEcbEncBody_ok h
    exact writeDest_sound (by rw [ecbEncrypt_flatten_length]; exact (aesInput_block_length hp).1) none
  | aesEcbDec ks =>
    refine ⟨aesEcbDecBody ks, fun _ => rfl, fun L v w h => ?_⟩
    obtain ⟨c, hc, rfl⟩ := aesEcbDecBody_ok h
    exact writeDest_sound (by rw [ecbDecrypt_flatten_length]; exact (aesInput_block_length hc).1) none
  | aesCbcEnc ks =>
    refine ⟨aesCbcEncBody ks, fun _ => rfl, fun L v w h => ?_⟩
    obtain ⟨p, hp, rfl⟩ := aesCbcEncBody_ok h
    exact writeDest_sound (by rw [cbcEncrypt_flatten_length]; exact (aesInput_block_length hp).1) _
  | aesCbcDec ks =>
    refine ⟨aesCbcDecBody ks, fun _ => rfl, fun L v w h => ?_⟩
    obtain ⟨c, hc, rfl⟩ := aesCbcDecBody_ok h
    obtain ⟨hd, hb⟩ := aesInput_block_length hc
    exact writeDest_sound (by rw [cbcDecrypt_flatten_length (by simp) hb]; exact hd) _

/-- Sound writes keep RAM in canonical form. -/
theorem Memory.applyWrites_wf {m : Memory} {w : Writes} (hm : m.wf) (hw : w.sound) : (m.applyWrites w).wf := by
  unfold Memory.applyWrites
  split
  · next p hp => exact Memory.wf_store hm (hw.ram p hp)
  · exact hm

/-- Sound writes keep the OTP registers in agreement. -/
theorem Results.applyWrites_otpConsistent {r : Results} {w : Writes} (hr : r.otpConsistent) (hw : w.sound) :
    (r.applyWrites w).otpConsistent := by
  cases ho : w.otp with
  | none => simpa [Results.otpConsistent, Results.applyWrites, ho] using hr
  | some o => simpa [Results.otpConsistent, Results.applyWrites, ho, OtpResult.consistent] using hw.otp o ho

theorem Results.reset_otpConsistent : Results.reset.otpConsistent := ⟨by decide, by decide, by decide⟩

/-- R199: the sentinel agrees, and any other error keeps the OTP registers. -/
theorem Results.failed_otpConsistent {r : Results} (hr : r.otpConsistent) (otp : Bool) :
    (r.failed otp).otpConsistent := by
  cases otp with
  | false => exact hr
  | true => exact Results.reset_otpConsistent

/-! ### Each effect of a step keeps the invariant -/

/-- The invariant speaks of no other field than these. -/
theorem Inv.of_same {s t : State} (h : Inv s) (hregs : t.regs = s.regs) (hstatus : t.status = s.status)
    (hresults : t.results = s.results) (hram : t.ram = s.ram) (hlatched : t.latched = s.latched)
    (hrst : t.rst = s.rst) (hvars : t.host.vars.Pairwise (fun a b => a.1 < b.1)) : Inv t where
  ram_wf := hram ▸ h.ram_wf
  vars_sorted := hvars
  busy_status := by simpa only [State.busy, hlatched, hstatus] using h.busy_status
  latched_regs := by simpa only [hlatched, hregs] using h.latched_regs
  err_code := hstatus ▸ h.err_code
  otp := hresults ▸ h.otp
  in_reset := by simpa only [hrst, hregs, hstatus, hresults, hram, hlatched] using h.in_reset

/-- Every reset establishes the invariant. -/
theorem Inv.of_reset {t : State} (hram : t.ram.wf) (hvars : t.host.vars.Pairwise (fun a b => a.1 < b.1))
    (hregs : t.regs = Regs.reset) (hstatus : t.status = Status.reset) (hresults : t.results = Results.reset)
    (hlatched : t.latched = none) (hrst : t.rst = true → t.ram = []) : Inv t where
  ram_wf := hram
  vars_sorted := hvars
  busy_status := by simp [State.busy, hlatched]
  latched_regs := by simp [hlatched]
  err_code := by simp [hstatus, Status.reset]
  otp := hresults ▸ Results.reset_otpConsistent
  in_reset hr := ⟨hregs, hstatus, hresults, hrst hr, hlatched⟩

/-- R300: a latched command shows that `rst` is not asserted. -/
theorem Inv.rst_of_latched {s : State} (h : Inv s) {L : Latch} (hL : s.latched = some L) : s.rst = false := by
  by_contra hr
  obtain ⟨-, -, -, -, hn⟩ := h.in_reset (by simpa using hr)
  simp [hL] at hn

/-- A successful completion with sound writes keeps the invariant. -/
theorem Inv.complete {s : State} (h : Inv s) {L : Latch} (hL : s.latched = some L) {w : Writes} (hw : w.sound) :
    Inv ((s.consume L).complete w) where
  ram_wf := Memory.applyWrites_wf h.ram_wf hw
  vars_sorted := h.vars_sorted
  busy_status := by simp [State.busy]
  latched_regs := by simp
  err_code := by simp
  otp := Results.applyWrites_otpConsistent h.otp hw
  in_reset hr := by simp [h.rst_of_latched hL] at hr

/-- R272: an error completion keeps the invariant. -/
theorem Inv.errorCompletion {s : State} (h : Inv s) {L : Latch} (hL : s.latched = some L) (otp : Bool)
    (c : ErrCode) : Inv (s.errorCompletion otp c) where
  ram_wf := h.ram_wf
  vars_sorted := h.vars_sorted
  busy_status := by simp [State.busy]
  latched_regs := by simp
  err_code := by simp
  otp := Results.failed_otpConsistent h.otp otp
  in_reset hr := by simp [h.rst_of_latched hL] at hr

/-- The free values of a command are no matter of the invariant. -/
theorem Inv.consume {s : State} (h : Inv s) (L : Latch) : Inv (s.consume L) :=
  h.of_same rfl rfl rfl rfl rfl rfl h.vars_sorted

theorem Inv.engineStep {s t : State} (h : Inv s) (hs : engineStep s = .next t) : Inv t := by
  obtain ⟨L, hL, ⟨i, -, hi⟩ | ⟨c, -, rfl⟩⟩ := engineStep_cases hs
  · obtain ⟨body, hb, hw⟩ := exec_eq_runCommand_sound i
    rw [hb] at hi
    obtain ⟨M, hM, ⟨w, hok, rfl⟩ | ⟨c, -, rfl⟩⟩ := runCommand_next hi
    · exact h.complete hM (hw M _ w hok)
    · exact (h.consume M).errorCompletion hM _ c
  · exact h.errorCompletion hL _ c

/-- Every host write keeps the invariant. While `rst` is asserted it has no effect (R300). -/
theorem Inv.writeEffect {s t : State} (h : Inv s) (hw : WriteEffect s t) (hr : s.rst = true → t = s) : Inv t := by
  by_cases hrst : s.rst = true
  · exact hr hrst ▸ h
  cases hw with
  | none => exact h
  | softReset =>
    exact .of_reset (State.clobberedRam_wf h.ram_wf) h.vars_sorted rfl rfl rfl rfl fun h' => absurd h' hrst
  | ignoreStart ie _ =>
    exact ⟨h.ram_wf, h.vars_sorted, h.busy_status, h.latched_regs, h.err_code, h.otp, fun h' => absurd h' hrst⟩
  | acceptStart ie _ =>
    exact ⟨h.ram_wf, h.vars_sorted, by simp, by simp, by simp, h.otp, fun h' => absurd h' hrst⟩
  | setIe ie =>
    exact ⟨h.ram_wf, h.vars_sorted, h.busy_status, h.latched_regs, h.err_code, h.otp, fun h' => absurd h' hrst⟩
  | clearStatus v =>
    refine ⟨h.ram_wf, h.vars_sorted, fun hb => ?_, h.latched_regs, fun he => h.err_code ?_, h.otp,
      fun h' => absurd h' hrst⟩
    · obtain ⟨hd, he, hc⟩ := h.busy_status hb
      simp [Status.w1c, hd, he, hc]
    · simp only [State.writeStatus_status, Status.w1c, Bool.and_eq_true] at he
      exact he.1
  | drop _ =>
    exact ⟨h.ram_wf, h.vars_sorted, h.busy_status, h.latched_regs, h.err_code, h.otp, fun h' => absurd h' hrst⟩
  | writeReg r v hb =>
    refine ⟨h.ram_wf, h.vars_sorted, h.busy_status, fun L hL => ?_, h.err_code, h.otp, fun h' => absurd h' hrst⟩
    simp [(State.not_busy_iff s).1 hb] at hL
  | storeRam a bs _ hin =>
    exact ⟨Memory.wf_store h.ram_wf hin, h.vars_sorted, h.busy_status, h.latched_regs, h.err_code, h.otp,
      fun h' => absurd h' hrst⟩

/-- R300: driving the reset input keeps the invariant. -/
theorem Inv.drivePin {s : State} (h : Inv s) (level : Bool) : Inv (s.drivePin level) := by
  cases level with
  | true => exact .of_reset Memory.wf_nil h.vars_sorted rfl rfl rfl rfl fun _ => rfl
  | false =>
    exact ⟨h.ram_wf, h.vars_sorted, h.busy_status, h.latched_regs, h.err_code, h.otp, by simp [State.drivePin]⟩

/-- The host agent may move as long as its variables stay in order. -/
theorem Inv.withHost {s : State} (h : Inv s) {a : HostAgent} (ha : a.vars.Pairwise (fun a b => a.1 < b.1)) :
    Inv (s.withHost a) := h.of_same rfl rfl rfl rfl rfl rfl ha

/-- Every effect of a host step keeps the invariant. -/
theorem Inv.hostEffect {s t : State} (h : Inv s) (he : HostEffect s t) : Inv t := by
  cases he with
  | idle => exact h
  | move i => exact h.withHost h.vars_sorted
  | read i x v =>
    exact h.of_same rfl rfl rfl rfl rfl rfl (assocSet_sorted x v h.vars_sorted)
  | write i u hw hr => exact (h.writeEffect hw hr).withHost h.vars_sorted
  | pin i level => exact (h.drivePin level).withHost h.vars_sorted

theorem Inv.countHostStep {s : State} (h : Inv s) : Inv s.countHostStep :=
  h.of_same (by simp) (by simp) (by simp) (by simp) (by simp) (by simp) (by simpa using h.vars_sorted)

/-- Settles O17: the engine's step and each effect of a host step keep the invariant. -/
theorem stepKeepsInvariant : Obligations.StepKeepsInvariant := by
  intro s t h hs
  obtain ⟨-, he⟩ | ⟨-, hh⟩ := step_cases hs
  · exact h.engineStep he
  · exact h.countHostStep.hostEffect hh

/-- Settles O18: power-on reset is a reset. -/
theorem resetSatisfiesInvariant : Obligations.ResetSatisfiesInvariant :=
  .of_reset Memory.wf_nil .nil rfl rfl rfl rfl fun _ => rfl

/-! ### Accesses to the register space -/

/-- R62: a legal read of the register space of a block that is not in reset. -/
theorem busRead_offset {s : State} (hr : s.rst = false) {off : Nat} (hw : off < Config.ramWindow)
    (h4 : off % 4 = 0) : s.busRead .w32 off = .ok (s.hostReadOffset off) := by
  have hl : Width.w32.legalAt off = true := by simp [Width.legalAt, hw, h4]
  simp [State.busRead, busTarget_of_legal hl, hw, hr]

/-- R62: a legal write to the register space of a block that is not in reset. -/
theorem busWrite_offset {s : State} (hr : s.rst = false) {off : Nat} (hw : off < Config.ramWindow)
    (h4 : off % 4 = 0) (v : Word) : s.busWrite .w32 off v = .ok (s.hostWriteReg off v) := by
  have hl : Width.w32.legalAt off = true := by simp [Width.legalAt, hw, h4]
  simp [busWrite_of_legal hr hl, hw]

/-- R47: a register that is no result register and not STATUS reads what it holds, idle or busy. -/
theorem hostReadReg_of_plain (s : State) {r : Reg} (h : r.isResult = false) (hs : r ≠ .status) :
    s.hostReadReg r = s.readReg r := by
  simp [State.hostReadReg, h, hs]

/-- R47: STATUS reads its flags, and ERRCODE while no command runs. -/
theorem hostReadReg_status (s : State) :
    s.hostReadReg .status
      = s.statusWordWith (if s.busy then Config.freeByte s.draws else errField s.status.errCode) := by
  unfold State.hostReadReg
  cases s.busy <;> rfl

/-- R24: a write to a register other than CTRL and STATUS while no command runs. -/
theorem busWrite_reg_idle {s : State} (hr : s.rst = false) (hl : s.latched = none) {r : Reg} (hc : r ≠ .ctrl)
    (hs : r ≠ .status) (v : Word) : s.busWrite .w32 r.offset v = .ok { s with regs := s.regs.write r v } := by
  rw [busWrite_reg hr, State.hostWriteReg, Reg.ofOffset_offset]
  cases r with
  | ctrl => exact absurd rfl hc
  | status => exact absurd rfl hs
  | _ => simp [State.busy, hl]

/-- R42: no register has an offset outside R23's map. -/
theorem ofOffset_reserved {off : Nat}
    (h : off = 0x02C ∨ off = 0x058 ∨ off = 0x05C ∨ (0x074 ≤ off ∧ off ≤ 0x07C) ∨ (0x0B0 ≤ off ∧ off ≤ 0xFFF)) :
    Reg.ofOffset off = none := by
  cases hr : Reg.ofOffset off with
  | none => rfl
  | some r =>
    have ho := Reg.offset_of_ofOffset hr
    cases r <;> simp only [Reg.offset] at ho <;> omega

/-! ### CTRL and STATUS, bit by bit -/

theorem flagBit_getLsbD (b : Bool) (i : Nat) {n : Nat} (hn : n < 32) :
    (flagBit b i).getLsbD n = (b && decide (n = i)) := by
  cases b with
  | false => simp [flagBit]
  | true =>
    change (BitVec.ofNat 32 (1 <<< i)).getLsbD n = _
    simp only [BitVec.getLsbD_ofNat, Nat.one_shiftLeft, Nat.testBit_two_pow, hn, decide_true, Bool.true_and, eq_comm]

/-- R28: the fields of the STATUS word; every other bit is 0. -/
theorem statusWordWith_getLsbD (s : State) (code : Byte) {n : Nat} (hn : n < 32) :
    (s.statusWordWith code).getLsbD n =
      if n = 0 then s.busy else if n = 1 then s.status.done else if n = 2 then s.status.err
      else if n = 3 then s.status.step0 else if n = 4 then s.status.wbusy
      else decide (8 ≤ n) && code.getLsbD (n - 8) := by
  simp only [State.statusWordWith, BitVec.getLsbD_or, BitVec.getLsbD_shiftLeft, BitVec.getLsbD_setWidth,
    flagBit_getLsbD _ _ hn]
  by_cases h8 : 8 ≤ n
  · obtain ⟨k, rfl⟩ := Nat.exists_eq_add_of_le' h8
    simp [hn, show k < 32 by omega]
  · interval_cases n <;> simp

/-- R28: above the flags the STATUS word holds ERRCODE in bits 15:8, and 0 elsewhere. -/
theorem statusWordWith_getLsbD_high (s : State) (code : Byte) {n : Nat} (h5 : 5 ≤ n) (hn : n < 32) :
    (s.statusWordWith code).getLsbD n = (decide (8 ≤ n) && code.getLsbD (n - 8)) := by
  rw [statusWordWith_getLsbD s code hn, if_neg (by omega), if_neg (by omega), if_neg (by omega), if_neg (by omega),
    if_neg (by omega)]

/-- R271: the model's error numbers are the stated ones. -/
theorem errField_eq_stated (c : Option ErrCode) : errField c = statedErrCode c := by
  rcases c with _ | c
  · rfl
  · cases c <;> rfl

/-- R28: bits 7:5 of the STATUS word, bits 15:8, and bits 31:16. -/
theorem statusWordWith_fields (s : State) (code : Byte) :
    (s.statusWordWith code).extractLsb' 5 3 = 0 ∧ (s.statusWordWith code).extractLsb' 8 8 = code
    ∧ (s.statusWordWith code).extractLsb' 16 16 = 0 := by
  refine ⟨?_, ?_, ?_⟩ <;> refine BitVec.eq_of_getLsbD_eq fun i hi => ?_ <;>
    rw [BitVec.getLsbD_extractLsb', statusWordWith_getLsbD_high _ _ (by omega) (by omega)]
  · simp [show ¬ 8 ≤ 5 + i by omega]
  · simp [hi]
  · simp [BitVec.getLsbD_of_ge code (16 + i - 8) (by omega)]

/-- R28, R42: the bits of STATUS outside its fields read 0. -/
theorem statusWordWith_reserved (s : State) (code : Byte) : s.statusWordWith code &&& 0xFFFF00E0 = 0 := by
  refine BitVec.eq_of_getLsbD_eq fun i hi => ?_
  rw [BitVec.getLsbD_and, statusWordWith_getLsbD _ _ hi]
  interval_cases i <;> simp

/-- R27: CTRL reads IE in bit 2 and 0 elsewhere. -/
theorem ctrlWord_eq (s : State) : s.ctrlWord = if s.regs.ie then 4 else 0 := by
  unfold State.ctrlWord
  cases s.regs.ie <;> rfl

theorem busRead_ctrl {s : State} (hr : s.rst = false) : s.busRead .w32 0x008 = .ok (if s.regs.ie then 4 else 0) := by
  rw [← ctrlWord_eq]
  exact (busRead_reg hr .ctrl).trans (by rw [hostReadReg_of_plain s rfl (by decide)]; rfl)

/-- R24, R28: a write to STATUS, field by field. -/
theorem writeStatus_eq (s : State) (v : Word) : s.writeStatus v = { s with status :=
    ⟨s.status.done && !v.getLsbD 1, s.status.err && !v.getLsbD 2, s.status.step0 && !v.getLsbD 3,
      s.status.wbusy && !v.getLsbD 4, s.status.errCode⟩ } := rfl

/-- R27, R302: bit 1 of a CTRL write is the soft reset. -/
theorem writeCtrl_softReset {v : Word} (h : v.getLsbD 1 = true) (s : State) : s.writeCtrl v = s.softReset := by
  simp [State.writeCtrl, h]

/-- R121: bit 0 of a CTRL write to an idle block is an accepted START. -/
theorem writeCtrl_start {s : State} {v : Word} (hl : s.latched = none) (h0 : v.getLsbD 0 = true)
    (h1 : v.getLsbD 1 = false) : s.writeCtrl v = s.acceptStart (v.getLsbD 2) := by
  simp only [State.writeCtrl, h0, h1, State.busy, hl]; rfl

/-- R27: a CTRL write with neither START nor SRST sets IE. -/
theorem writeCtrl_ie {v : Word} (h0 : v.getLsbD 0 = false) (h1 : v.getLsbD 1 = false) (s : State) :
    s.writeCtrl v = { s with regs := { s.regs with ie := v.getLsbD 2 } } := by
  simp only [State.writeCtrl, h0, h1]; rfl

/-! ### STATUS, CTRL, ID and VERSION, and the reserved space -/

/-- Settles O22, from the bits of the STATUS word. -/
theorem statusLayoutAndWriteOneToClear : Obligations.StatusLayoutAndWriteOneToClear := by
  intro s hr
  refine ⟨fun v => busWrite_status hr v, s.hostReadReg .status, busRead_reg hr .status, ?_⟩
  rw [hostReadReg_status]
  have hb {n : Nat} := statusWordWith_getLsbD (n := n) s
    (if s.busy then Config.freeByte s.draws else errField s.status.errCode)
  obtain ⟨h5, h8, h16⟩ :=
    statusWordWith_fields s (if s.busy then Config.freeByte s.draws else errField s.status.errCode)
  refine ⟨hb (by omega), hb (by omega), hb (by omega), hb (by omega), hb (by omega), h5, fun hl => ?_, h16⟩
  rw [h8, (State.not_busy_iff s).2 hl, errField_eq_stated]
  rfl

/-- Settles O23: no register answers at a reserved offset, and CTRL and STATUS look at their own bits only. -/
theorem reservedSpaceReadsZeroIgnoresWrites : Obligations.ReservedSpaceReadsZeroIgnoresWrites := by
  intro s v hr
  refine ⟨fun off h4 h => ?_, ⟨_, busRead_ctrl hr, by cases s.regs.ie <;> rfl⟩,
    ⟨_, busRead_reg hr .status, by rw [hostReadReg_status, statusWordWith_reserved]⟩, ?_, ?_⟩
  · have hn := ofOffset_reserved h
    have hw : off < Config.ramWindow := by have : Config.ramWindow = 4096 := rfl; omega
    rw [busRead_offset hr hw h4, busWrite_offset hr hw h4, State.hostReadOffset, State.hostWriteReg, hn]
    refine ⟨rfl, fun hl => ?_, fun hl => ?_⟩
    · simp [State.busy, hl]
    · simp [State.busy, Option.isSome_iff_ne_none.2 hl, State.dropWrite]
  · simp [busWrite_ctrl hr, State.writeCtrl]
  · simp [busWrite_status hr, writeStatus_eq]

/-- Settles O24: ID and VERSION are no result registers, so they read as idle while a command runs. -/
theorem identityRegistersAreConstant : Obligations.IdentityRegistersAreConstant := fun s hr =>
  ⟨(busRead_reg hr .id).trans (congrArg _ (hostReadReg_of_plain s rfl (by decide))),
    (busRead_reg hr .version).trans (congrArg _ (hostReadReg_of_plain s rfl (by decide)))⟩

/-- Settles O32, by the cases of a CTRL write and the W1C bits of STATUS. -/
theorem completionIsAcknowledged : Obligations.CompletionIsAcknowledged := by
  intro s hr
  refine ⟨by simp [State.irq], busRead_ctrl hr, fun v h0 h1 => ?_, ?_, fun v hl h0 h1 => ?_⟩
  · rw [busWrite_ctrl hr, writeCtrl_ie h0 h1]
  · refine ⟨_, busWrite_status hr 0x02, ?_, ?_, rfl, rfl, rfl, rfl⟩ <;> simp [State.irq, Status.w1c]
  · exact ⟨_, busWrite_ctrl hr v, by simp [writeCtrl_start hl h0 h1, State.irq]⟩

/-! ### What reads do not depend on -/

/-- A host read depends on `rst`, on what the registers read and on what the RAM bytes read, and on nothing else. -/
theorem busRead_congr {s t : State} (hrst : t.rst = s.rst) (hreg : ∀ r, t.hostReadReg r = s.hostReadReg r)
    (hbyte : ∀ a j, t.hostReadByte a j = s.hostReadByte a j) (w : Width) (off : Nat) :
    t.busRead w off = s.busRead w off := by
  have hbytes : ∀ n a j, t.hostReadBytes a j n = s.hostReadBytes a j n := by
    intro n
    induction n with
    | zero => exact fun _ _ => rfl
    | succ n ih => intro a j; simp only [State.hostReadBytes, hbyte, ih]
  have hoff : ∀ o, t.hostReadOffset o = s.hostReadOffset o := fun o => by
    simp only [State.hostReadOffset, hreg]
  simp only [State.busRead, hrst, hoff, hbytes]

/-- R47: which bytes the command in flight may write does not depend on the AES key. -/
theorem inFlightDest_aesKey (s : State) (k l : Words8) (a : Nat) :
    ({ s with regs := { s.regs with aesKey := k },
              latched := s.latched.map (fun L => { L with aesKey := l }) } : State).inFlightDest a
      = s.inFlightDest a := by
  cases hl : s.latched <;> simp only [State.inFlightDest, hl, Option.map]
  rfl

/-- Settles O25: no register's value and no RAM byte's is taken from the key. -/
theorem aesKeyIsUnreadable : Obligations.AesKeyIsUnreadable := by
  intro s k l w off
  refine ⟨busRead_congr ?_ (fun r => ?_) (fun a j => ?_) w off, rfl⟩
  · rfl
  · simp only [State.hostReadReg, State.busy, Option.isSome_map]
    cases r <;> simp [State.readReg, State.statusWord, State.statusWordWith, State.ctrlWord, State.busy]
  · simp only [State.hostReadByte, inFlightDest_aesKey]

/-- Settles O26: while a command runs the result registers and ERRCODE read as free values. -/
theorem busyReadsCarryNoResult : Obligations.BusyReadsCarryNoResult := by
  intro s r lo hi iv c w off hl
  refine busRead_congr ?_ (fun q => ?_) (fun a j => ?_) w off
  · rfl
  · simp only [State.hostReadReg, State.busy, Option.isSome_iff_ne_none.2 hl, if_true]
    cases q <;> rfl
  · rfl

/-! ### The host's turn -/

/-- R312(b): what a host step uses up before it runs. -/
theorem countHostStep_eq (s : State) : s.countHostStep =
    { s with engineDelay := if s.latched = none then s.engineDelay else s.engineDelay - 1 } := by
  obtain ⟨_, _, _, _, _ | L, _⟩ := s <;> rfl

/-- R312: when it is the host's turn a step is the host's, counted while a command is latched. -/
theorem step_of_hostTurn {s : State} (h : s.latched = none ∨ s.engineDelay ≠ 0) :
    step s = hostStep { s with engineDelay := if s.latched = none then s.engineDelay else s.engineDelay - 1 } := by
  have hturn : s.engineTurn = false := by
    rw [← Bool.not_eq_true, engineTurn_iff]
    tauto
  rw [step, hturn, if_neg Bool.false_ne_true, countHostStep_eq]

/-- R22, R101: on the host's turn a step is the host's current statement. -/
theorem step_of_current {s : State} {st : HostStmt} (h : s.latched = none ∨ s.engineDelay ≠ 0)
    (hc : s.host.current = some st) :
    step s = runStmt st
      { s with engineDelay := if s.latched = none then s.engineDelay else s.engineDelay - 1 } := by
  simp [step_of_hostTurn h, hostStep, hc]

/-! ### Resets -/

/-- R300: an access while `rst` is asserted has no effect and reads 0. -/
theorem access_in_reset {s : State} {w : Width} {off : Nat} (hr : s.rst = true) (hl : w.legalAt off = true)
    (v : Word) : s.busWrite w off v = .ok s ∧ s.busRead w off = .ok 0 := by
  unfold State.busWrite State.busRead
  rw [busTarget_of_legal hl]
  by_cases h : off < Config.ramWindow <;> simp [hr, h]

/-- R302: what a soft reset does to RAM while a command runs: it changes the destination span only, and all of that is
written afterwards. -/
theorem byteAt_softReset_busy {s : State} {L : Latch} (hL : s.latched = some L) (x : Nat) :
    (¬ (L.dstAddr.toNat ≤ x ∧ x < L.dstAddr.toNat + destSpan s.ram L) →
      s.softReset.ram.byteAt x = s.ram.byteAt x)
    ∧ (L.dstAddr.toNat ≤ x → x < L.dstAddr.toNat + destSpan s.ram L → (s.softReset.ram.byteAt x).isSome = true) := by
  have hlen : (freeBytes s.draws s.clobberCount).length = destSpan s.ram L := by
    simp [State.clobberCount, hL]
  have hram : s.softReset.ram = s.ram.store L.dstAddr.toNat (freeBytes s.draws s.clobberCount) := by
    simp [State.clobberedRam, hL]
  rw [hram, Memory.byteAt_store, hlen]
  refine ⟨fun h => if_neg h, fun h1 h2 => ?_⟩
  rw [if_pos ⟨h1, h2⟩, List.getElem?_eq_getElem (by omega)]
  rfl

/-- Settles O28, register by register. -/
theorem powerOnResetValues : Obligations.PowerOnResetValues := by
  refine ⟨fun r => ?_, rfl, rfl, rfl, fun _ => rfl⟩
  rw [busRead_reg_idle rfl rfl]
  cases r with
  | otpStr i => revert i; decide
  | digest i => revert i; decide
  | aesIv i => revert i; decide
  | _ => rfl

/-- Settles O29: a `pin` statement on the host's turn, and what an access does while `rst` is asserted. -/
theorem resetInputResetsAndBlocksAccesses : Obligations.ResetInputResetsAndBlocksAccesses := by
  refine ⟨fun s h => ⟨fun hc => ?_, fun hc => ?_⟩, fun s w off v hr hl => access_in_reset hr hl v⟩
  · refine ⟨_, step_of_current h hc, ?_⟩
    exact ⟨rfl, rfl, rfl, rfl, rfl, rfl, fun _ => rfl, rfl, rfl, rfl⟩
  · exact step_of_current h hc

/-- Settles O30: bit 1 of a CTRL write is the soft reset, whatever the other bits hold. -/
theorem softResetClearsRegistersKeepsRam : Obligations.SoftResetClearsRegistersKeepsRam := by
  intro s v hr h1
  refine ⟨s.softReset, by rw [busWrite_ctrl hr, writeCtrl_softReset h1], rfl, rfl, rfl, rfl, rfl, fun hl => ?_,
    fun L hL => ⟨fun x hx => (byteAt_softReset_busy hL x).1 (by omega), fun x => (byteAt_softReset_busy hL x).2⟩⟩
  simp [State.clobberedRam, hl]

/-! ### The access kinds of the registers -/

/-- Register `i` of the key store (R25). -/
def Words8.get (w : Words8) : Nat → Word
  | 0 => w.w0
  | 1 => w.w1
  | 2 => w.w2
  | 3 => w.w3
  | 4 => w.w4
  | 5 => w.w5
  | 6 => w.w6
  | _ => w.w7

/-- R25: byte `k` of the key store is lane `k mod 4` of register `k div 4`. -/
theorem Words8.bytes_getElem? (w : Words8) {k : Nat} (h : k < 32) :
    w.bytes[k]? = some ((w.get (k / 4)).extractLsb' (8 * (k % 4)) 8) := by
  interval_cases k <;> rfl

theorem Words8.get_set (w : Words8) {i j : Nat} (hi : i < 8) (hj : j < 8) (v : Word) :
    (w.set i v).get j = if j = i then v else w.get j := by
  interval_cases i <;> interval_cases j <;> rfl

theorem Words4.get_set (w : Words4) {i j : Nat} (hi : i < 4) (hj : j < 4) (v : Word) :
    (w.set i v).get j = if j = i then v else w.get j := by
  interval_cases i <;> interval_cases j <;> rfl

/-- R24: the RW registers but CTRL and STATUS. -/
def Reg.isRw : Reg → Bool
  | .cmd => true
  | .srcAddr => true
  | .srcLen => true
  | .dstAddr => true
  | .keyAddr => true
  | .keyLen => true
  | .timeLo => true
  | .timeHi => true
  | .step => true
  | .cntLo => true
  | .cntHi => true
  | .aesIv _ => true
  | _ => false

/-- R24: what every register holds after a write: the RW register written, the value; any other, what it held. -/
theorem readReg_write (s : State) (r q : Reg) (v : Word) :
    ({ s with regs := s.regs.write r v } : State).readReg q
      = if r.isRw = true ∧ q = r then v else s.readReg q := by
  cases r with
  | aesIv i =>
    cases q with
    | aesIv j => simp [State.readReg, Regs.write, Words4.get_set s.regs.aesIv i.isLt j.isLt, Reg.isRw, Fin.ext_iff]
    | _ => rfl
  | _ => cases q <;> rfl

/-- R24: what the host reads of a register after a write to an idle block. -/
theorem busRead_write {s : State} (hr : s.rst = false) (hl : s.latched = none) (r q : Reg) (v : Word) :
    ({ s with regs := s.regs.write r v } : State).busRead .w32 q.offset
      = .ok (if r.isRw = true ∧ q = r then v else s.readReg q) := by
  rw [busRead_reg_idle (s := { s with regs := s.regs.write r v }) hr hl, readReg_write]

/-- R24: no register write changes IE. -/
theorem Regs.write_ie (g : Regs) (r : Reg) (v : Word) : (g.write r v).ie = g.ie := by
  cases r <;> rfl

/-- R24: a write to an RW register changes no key. -/
theorem Regs.write_aesKey (g : Regs) {r : Reg} (h : r.isRw = true) (v : Word) : (g.write r v).aesKey = g.aesKey := by
  cases r with
  | aesKey i => simp [Reg.isRw] at h
  | _ => rfl

/-- R23: the operand registers of `statedOperandRegisters`. -/
def operandRegs : List Reg :=
  [.cmd, .srcAddr, .srcLen, .dstAddr, .keyAddr, .keyLen, .timeLo, .timeHi, .step]

/-- R23: the registers of one word that a command may write. -/
def resultRegs : List Reg := [.resLen, .cntLo, .cntHi, .otpCode, .otpLen]

/-- R24: the registers of `Reg.isRw`, in the map's order. -/
def rwRegs : List Reg :=
  [.cmd, .srcAddr, .srcLen, .dstAddr, .keyAddr, .keyLen, .timeLo, .timeHi, .step, .cntLo, .cntHi,
    .aesIv 0, .aesIv 1, .aesIv 2, .aesIv 3]

/-- R24: the RO registers. -/
def roRegs : List Reg :=
  [.id, .version, .resLen, .otpCode, .otpLen, .otpStr 0, .otpStr 1, .otpStr 2,
    .digest 0, .digest 1, .digest 2, .digest 3, .digest 4]

theorem statedOperandRegisters_eq (s : State) :
    statedOperandRegisters s = operandRegs.map (fun r => (r.offset, s.readReg r)) := rfl

theorem statedResultRegisters_eq (s : State) :
    statedResultRegisters s = resultRegs.map (fun r => (r.offset, s.readReg r)) := rfl

/-- R47: an operand register reads its value, idle or busy. -/
theorem busRead_operandReg {s : State} (hr : s.rst = false) {r : Reg} (h : r ∈ operandRegs) :
    s.busRead .w32 r.offset = .ok (s.readReg r) := by
  have hplain : ∀ r ∈ operandRegs, r.isResult = false ∧ r ≠ .status := by decide
  rw [busRead_reg hr, hostReadReg_of_plain s (hplain r h).1 (hplain r h).2]

/-- R24: a write to an RO register of an idle block is ignored. -/
theorem busWrite_roReg {s : State} (hr : s.rst = false) (hl : s.latched = none) {r : Reg} (h : r ∈ roRegs)
    (v : Word) : s.busWrite .w32 r.offset v = .ok s := by
  have hplain : ∀ r ∈ roRegs, r ≠ .ctrl ∧ r ≠ .status := by decide
  have hsame : s.regs.write r v = s.regs := by
    simp only [roRegs, List.mem_cons, List.not_mem_nil, or_false] at h
    rcases h with rfl | rfl | rfl | rfl | rfl | rfl | rfl | rfl | rfl | rfl | rfl | rfl | rfl <;> rfl
  rw [busWrite_reg_idle hr hl (hplain r h).1 (hplain r h).2, hsame]

/-- R25: the words of the string registers, byte by byte, while no command runs. -/
theorem busRead_stringRegister {s : State} (hr : s.rst = false) (hl : s.latched = none) :
    ∀ r ∈ statedStringRegisters s, ∀ k, k < r.2.1 →
      ∃ x, s.busRead .w32 (r.1 + 4 * (k / 4)) = .ok x ∧ r.2.2[k]? = some (x.extractLsb' (8 * (k % 4)) 8) := by
  simp only [statedStringRegisters, List.forall_mem_cons]
  refine ⟨fun k hk => ?_, fun k hk => ?_, fun k hk => ?_, by simp⟩
  · exact ⟨_, busRead_reg_idle hr hl (.otpStr ⟨k / 4, by omega⟩), Words3.bytes_getElem? _ hk⟩
  · exact ⟨_, busRead_reg_idle hr hl (.digest ⟨k / 4, by omega⟩), Words5.bytes_getElem? _ hk⟩
  · exact ⟨_, busRead_reg_idle hr hl (.aesIv ⟨k / 4, by omega⟩), Words4.bytes_getElem? _ hk⟩

/-- R40: a write to AES_KEYi stores every bit in bytes `4i` to `4i + 3` of the key store. -/
theorem Words8.bytes_set (w : Words8) {i j : Nat} (hi : i < 8) (hj : j < 32) (v : Word) :
    (w.set i v).bytes[j]? = if j / 4 = i then some (v.extractLsb' (8 * (j % 4)) 8) else w.bytes[j]? := by
  rw [Words8.bytes_getElem? _ hj, Words8.bytes_getElem? _ hj, Words8.get_set w hi (by omega)]
  split <;> rfl

/-- Settles O21, register by register through `Reg.offset`. -/
theorem registersFollowMapAndAccessType : Obligations.RegistersFollowMapAndAccessType := by
  unfold Obligations.RegistersFollowMapAndAccessType
  intro rwOffs roOffs
  have hrw : rwOffs = rwRegs.map Reg.offset := rfl
  have hro : roOffs = roRegs.map Reg.offset := rfl
  have hplain : ∀ r ∈ rwRegs, r ≠ .ctrl ∧ r ≠ .status ∧ r.isRw = true := by decide
  refine ⟨fun s hr => ⟨?_, fun hl => ⟨?_, busRead_stringRegister hr hl⟩⟩, fun s v off hr hl => ⟨?_, ?_, ?_⟩⟩
  · rw [statedOperandRegisters_eq, List.forall_mem_map]
    exact fun r h => busRead_operandReg hr h
  · rw [statedResultRegisters_eq, List.forall_mem_map]
    exact fun r _ => busRead_reg_idle hr hl r
  · simp only [hrw, List.mem_map]
    rintro ⟨r, h, rfl⟩
    obtain ⟨hc, hs, hisRw⟩ := hplain r h
    refine ⟨_, busWrite_reg_idle hr hl hc hs v, ?_, ?_, Regs.write_aesKey _ hisRw v,
      Regs.write_ie _ r v, rfl, rfl, rfl, hl, rfl, rfl, rfl, rfl⟩
    · rw [busRead_write hr hl, if_pos ⟨hisRw, rfl⟩]
    · rintro _ ⟨q, -, rfl⟩ hq
      rw [busRead_write hr hl, busRead_reg_idle hr hl, if_neg fun hqr => hq (congrArg _ hqr.2)]
  · rw [hro, List.mem_map]
    rintro ⟨r, h, rfl⟩
    exact busWrite_roReg hr hl h v
  · rintro i hi rfl
    refine ⟨_, busWrite_reg_idle hr hl (r := .aesKey ⟨i, hi⟩) nofun nofun v,
      busRead_write hr hl (.aesKey ⟨i, hi⟩) (.aesKey ⟨i, hi⟩) v, fun j hj => ?_, rfl⟩
    exact Words8.bytes_set _ hi hj v

/-! ### RAM accesses -/

/-- R63: lane `j` of a word is its byte `j`. -/
theorem wordBytes_getElem? (v : Word) {j : Nat} (h : j < 4) : (wordBytes v)[j]? = some (v.extractLsb' (8 * j) 8) := by
  interval_cases j <;> rfl

/-- R62: a legal RAM access stays inside RAM. -/
theorem legal_ram_le {w : Width} {a : Nat} (h : w.legalAt (Config.ramWindow + a) = true) :
    a + w.bytes ≤ Config.ramSize := (busTarget_ram (busTarget_legal_ram h)).2

/-- R63: a legal RAM write to a block that is idle and not in reset. -/
theorem busWrite_ram_idle {s : State} {w : Width} {a : Nat} (hr : s.rst = false) (hl : s.latched = none)
    (h : w.legalAt (Config.ramWindow + a) = true) (v : Word) :
    s.busWrite w (Config.ramWindow + a) v
      = .ok { s with ram := s.ram.store a ((wordBytes v).take w.bytes) } := by
  rw [busWrite_of_legal hr h, if_neg (by omega), Nat.add_sub_cancel_left]
  simp [State.hostWriteRam, State.busy, hl]

/-- R63: each lane of a RAM read that answers is what its byte reads as. -/
theorem busRead_ram_lane {s : State} {w : Width} {a : Nat} {x : Word} (hr : s.rst = false)
    (h : w.legalAt (Config.ramWindow + a) = true) (hx : s.busRead w (Config.ramWindow + a) = .ok x) {j : Nat}
    (hj : j < w.bytes) : s.hostReadByte (a + j) j = .ok (x.extractLsb' (8 * j) 8) := by
  rw [busRead_ram hr h] at hx
  cases hb : s.hostReadBytes a 0 w.bytes with
  | error f => simp [hb, Except.map] at hx
  | ok bs =>
    obtain rfl : wordAt bs 0 = x := by simpa [hb, Except.map] using hx
    have hbyte := (hostReadBytes_ok hb).2 j hj
    have hw := Width.bytes_le w
    rw [extractLsb'_wordAt (by omega)]
    simpa using hbyte

/-- R62: a RAM read answers with a value of the access's width unless one of its bytes stops it, the lowest first. -/
theorem busRead_ram_cases {s : State} {w : Width} {a : Nat} (hr : s.rst = false)
    (h : w.legalAt (Config.ramWindow + a) = true) :
    (∃ x, s.busRead w (Config.ramWindow + a) = .ok x ∧ x.toNat < 2 ^ (8 * w.bytes))
    ∨ ∃ k, k < w.bytes ∧ s.ram.byteAt (a + k) = none ∧ s.policy = .fault
        ∧ s.busRead w (Config.ramWindow + a) = .error (.unwrittenHostRead (a + k))
        ∧ ∀ i, i < k → ∃ b, s.hostReadByte (a + i) i = .ok b := by
  rw [busRead_ram hr h]
  cases hb : s.hostReadBytes a 0 w.bytes with
  | ok bs => exact .inl ⟨_, rfl, wordAt_lt (hostReadBytes_ok hb).1 (Width.bytes_le w)⟩
  | error f =>
    obtain ⟨k, hk, he, hlow⟩ := hostReadBytes_error hb
    obtain ⟨hn, hp, rfl⟩ := hostReadByte_error he
    exact .inr ⟨k, hk, hn, hp, rfl, fun i hi => by simpa using hlow i hi⟩

/-- R47: the bytes of RAM outside the source that a B32ENC or AES command in flight may write. -/
theorem inFlightDest_of_output {s : State} {L : Latch} {x : Nat} (hL : s.latched = some L) (hx : x < Config.ramSize)
    (hd : L.dstAddr.toNat ≤ x) (hs : x < L.srcAddr.toNat ∨ L.srcAddr.toNat + L.srcLen.toNat ≤ x)
    (hout : (L.cmd.extractLsb' 0 8 = 0x01 ∧ x < L.dstAddr.toNat + 8 * ((L.srcLen.toNat + 4) / 5))
      ∨ ((L.cmd.extractLsb' 0 8 = 0x20 ∨ L.cmd.extractLsb' 0 8 = 0x21 ∨ L.cmd.extractLsb' 0 8 = 0x22
          ∨ L.cmd.extractLsb' 0 8 = 0x23) ∧ x < L.dstAddr.toNat + L.srcLen.toNat)) :
    s.inFlightDest x = true := by
  have hlen : x < L.dstAddr.toNat + destLength s.ram L (5 * L.srcLen.toNat / 8) := by
    unfold destLength opField
    rcases hout with ⟨hop, hlt⟩ | ⟨hop | hop | hop | hop, hlt⟩ <;> rw [hop] <;> exact hlt
  have hspan : x < L.dstAddr.toNat + writeSpan s.ram L := by unfold writeSpan; omega
  have hsrc : L.inSource x = false := by unfold Latch.inSource; rw [decide_eq_false_iff_not]; omega
  simp [State.inFlightDest, hL, hd, hspan, hsrc]

/-- Settles O20: the store of the value's lanes, and the lanes of a read by what each byte reads as. -/
theorem ramAccessesAreLittleEndian : Obligations.RamAccessesAreLittleEndian := by
  intro s w a v hr h
  have hin := legal_ram_le h
  have hw := Width.bytes_le w
  have hlen : ((wordBytes v).take w.bytes).length = w.bytes := by simp [hw]
  refine ⟨fun hl => ?_, fun hans => ?_, fun j hj => ⟨fun b x hcur hb hx => ?_, fun hcur hn hp => ?_,
    fun x hcur hn hx => ?_, fun L x hL hx hd hs hout => ?_⟩⟩
  · refine ⟨_, busWrite_ram_idle hr hl h v, fun j hj => ?_, fun x hx => ?_, rfl, rfl, rfl, hl⟩
    · rw [Memory.byteAt_store_inside _ _ _ (hlen.symm ▸ hj), List.getElem?_take_of_lt hj,
        wordBytes_getElem? v (by omega)]
    · exact Memory.byteAt_store_outside _ (hlen.symm ▸ hx)
  · obtain hok | ⟨k, hk, hn, hp, -⟩ := busRead_ram_cases hr h
    · exact hok
    · rcases hans with hd | hall
      · simp [hp] at hd
      · simpa [hn] using hall k hk
  · have hlane := busRead_ram_lane hr h hx hj
    rw [hostReadByte_of_not_dest (inFlightDest_of_cannotWrite hcur), hb] at hlane
    exact (Except.ok.inj hlane).symm
  · have hstop : s.hostReadByte (a + j) j = .error (.unwrittenHostRead (a + j)) := by
      rw [hostReadByte_of_not_dest (inFlightDest_of_cannotWrite hcur), hn, hp]
    obtain ⟨x, hx, -⟩ | ⟨k, -, hnk, -, he, hlow⟩ := busRead_ram_cases hr h
    · simp [busRead_ram_lane hr h hx hj] at hstop
    · refine ⟨k, ?_, hnk, he⟩
      by_contra hkj
      obtain ⟨b, hb⟩ := hlow j (by omega)
      simp [hb] at hstop
  · have hlane := busRead_ram_lane hr h hx hj
    rw [hostReadByte_of_not_dest (inFlightDest_of_cannotWrite hcur), hn] at hlane
    cases hp : s.policy with
    | draw => rw [hp] at hlane; exact (Except.ok.inj hlane).symm
    | fault => simp [hp] at hlane
  · have hlane := busRead_ram_lane hr h hx hj
    rw [hostReadByte_of_dest (inFlightDest_of_output hL (by omega) hd hs hout)] at hlane
    exact (Except.ok.inj hlane).symm

/-! ### SHA1 and HMAC -/

/-- R39, R131: the completion of a command that writes DIGEST alone. -/
theorem complete_digest (s : State) (L : Latch) {d : List Byte} (hd : d.length = 20) :
    let t := (s.consume L).complete { digest := some (Words5.ofBytes d), resLen := 0 }
    completedOk s t false ∧ t.results.digest.bytes = d
    ∧ { t.results with digest := s.results.digest } = { s.results with resLen := 0 }
    ∧ t.ram = s.ram ∧ t.regs = s.regs ∧ environmentSame s t :=
  ⟨completedOk_complete s L _, Words5.bytes_ofBytes hd, rfl, rfl, rfl, rfl, rfl, rfl, rfl⟩

/-- R190: SHA1 over a written source succeeds with the digest of its bytes. -/
theorem sha1Body_of_holds {L : Latch} {v : EngineView} {bs : List Byte}
    (h : operandHolds v.ram L.srcAddr L.srcLen bs) :
    sha1Body L v = .ok { digest := some (Words5.ofBytes (sha1 bs)), resLen := 0 } := by
  simp only [sha1Body, checkSource, checkRange_of_le h.2.1, fetchSource_of_holds h, Except.bind_ok, Except.pure_eq_ok]

/-- R192: HMAC over a written source with a key operand that yields `k`. -/
theorem hmacBody_of_holds {L : Latch} {v : EngineView} {key : KeyForm} {k bs : List Byte}
    (h : operandHolds v.ram L.srcAddr L.srcLen bs) (hk : keyOperandIs v.ram L key k) :
    hmacBody key L v = .ok { digest := some (Words5.ofBytes (hmacSha1 k bs)), resLen := 0 } := by
  simp only [hmacBody, checkSource, checkRange_of_le h.2.1, keyBytes_of_operand hk, fetchSource_of_holds h,
    Except.bind_ok, Except.pure_eq_ok]

/-- R186: the key block has 64 bytes. -/
theorem hmacKeyBlock_length (k : List Byte) : (hmacKeyBlock k).length = 64 := by
  unfold hmacKeyBlock
  split
  · simp; omega
  · simp

/-- R10: exclusive-or with a repeated byte is bytewise. -/
theorem xorBytes_replicate {x : List Byte} {n : Nat} (h : x.length = n) (c : Byte) :
    xorBytes x (List.replicate n c) = x.map (· ^^^ c) := by
  subst h
  induction x with
  | nil => rfl
  | cons b x ih => simpa [xorBytes, List.replicate_succ] using ih

/-- R187: the two nested hashes. -/
theorem hmacSha1_eq (k m : List Byte) :
    hmacSha1 k m = sha1 ((hmacKeyBlock k).map (· ^^^ 0x5C) ++ sha1 ((hmacKeyBlock k).map (· ^^^ 0x36) ++ m)) := by
  have hk := hmacKeyBlock_length k
  rw [hmacSha1, xorBytes_replicate hk, xorBytes_replicate hk]

/-- Settles O41: the run of `sha1Body` and its completion, or its range check. -/
theorem sha1WritesDigest : Obligations.Sha1WritesDigest := by
  intro s L hL
  refine ⟨fun bs h => ?_, fun hgt => ?_⟩
  · exact ⟨_, runCommand_of_ok hL (sha1Body_of_holds h), complete_digest s L (sha1_length bs)⟩
  · have herr : sha1Body L s.engineView = .error (.code .range) := by
      rw [sha1Body, checkSource, checkRange_of_gt hgt]
      rfl
    exact ⟨_, runCommand_of_error hL herr, completedErr_errorCompletion s L false .range⟩

/-- Settles O42: the run of `hmacBody`, with the two hashes over the 64-byte key block. -/
theorem hmacWritesDigest : Obligations.HmacWritesDigest := by
  intro s L key k bs hL h hk
  refine ⟨hmacKeyBlock_length k, _, runCommand_of_ok hL (hmacBody_of_holds h hk), ?_⟩
  have hdone := complete_digest s L (hmacSha1_length k bs)
  rw [hmacSha1_eq] at hdone
  rw [hmacSha1_eq]
  exact hdone

/-! ### The host's expressions and statements -/

/-- R62: only a 32-bit access reaches the register space. -/
theorem width_of_busTarget_reg {w : Width} {off o : Nat} (h : busTarget w off = .ok (.reg o)) : w = .w32 := by
  unfold busTarget at h
  split at h
  · simp at h
  · split at h
    · simp at h
    · next hl =>
      split at h
      · next hw =>
        simp only [Width.legalAt, hw, if_true, Bool.not_eq_true', Bool.not_eq_false, Bool.and_eq_true,
          beq_iff_eq] at hl
        exact hl.1
      · simp at h

/-- R63: the low lanes of a word are given by its value modulo `2^(8n)`. -/
theorem take_wordBytes_congr {v u : Word} {n : Nat} (h : v.toNat % 2 ^ (8 * n) = u.toNat % 2 ^ (8 * n)) :
    (wordBytes v).take n = (wordBytes u).take n := by
  refine List.ext_getElem? fun j => ?_
  by_cases hj : j < n ∧ j < 4
  · rw [List.getElem?_take_of_lt hj.1, List.getElem?_take_of_lt hj.1, wordBytes_getElem? v hj.2,
      wordBytes_getElem? u hj.2]
    congr 1
    refine BitVec.eq_of_getLsbD_eq fun i hi => ?_
    have hbit := congrArg (Nat.testBit · (8 * j + i)) h
    simp only [Nat.testBit_mod_two_pow, show 8 * j + i < 8 * n by omega, decide_true, Bool.true_and,
      BitVec.testBit_toNat] at hbit
    simp [hi, hbit]
  · rw [List.getElem?_eq_none (by simp; omega), List.getElem?_eq_none (by simp; omega)]

/-- R62: a bus write depends on its value modulo `2^width` only. -/
theorem busWrite_congr (s : State) {w : Width} (off : Nat) {v u : Word}
    (h : v.toNat % 2 ^ (8 * w.bytes) = u.toNat % 2 ^ (8 * w.bytes)) : s.busWrite w off v = s.busWrite w off u := by
  unfold State.busWrite
  cases ht : busTarget w off with
  | error f => rfl
  | ok tgt =>
    cases tgt with
    | reg o =>
      obtain rfl := width_of_busTarget_reg ht
      have hvu : v = u := by
        apply BitVec.eq_of_toNat_eq
        simpa [Width.bytes, Nat.mod_eq_of_lt v.isLt, Nat.mod_eq_of_lt u.isLt] using h
      rw [hvu]
    | ram a => simp only [take_wordBytes_congr h]

/-- R62, R101: the word of a host write agrees modulo `2^width` with the value of its expression. -/
theorem ofInt_mod_width {e : Int} {w : Width} {v : Word} (h : (v.toNat : Int) = e % 2 ^ (8 * w.bytes)) :
    (BitVec.ofInt 32 e).toNat % 2 ^ (8 * w.bytes) = v.toNat % 2 ^ (8 * w.bytes) := by
  have hdvd : (2 : Int) ^ (8 * w.bytes) ∣ 2 ^ 32 := pow_dvd_pow 2 (by have := Width.bytes_le w; omega)
  have hpos : (0 : Int) < 2 ^ (8 * w.bytes) := by positivity
  zify
  rw [BitVec.toNat_ofInt, Int.toNat_of_nonneg (Int.emod_nonneg _ (by norm_num)), h, Int.emod_emod]
  exact Int.emod_emod_of_dvd e hdvd

/-- R101: AND and OR of non-negative integers are bitwise. -/
theorem evalExpr_bitwise {vars : List (Nat × Int)} {a b : HostExpr} {m n : Nat} (ha : evalExpr vars a = m)
    (hb : evalExpr vars b = n) :
    evalExpr vars (.and a b) = (m &&& n : Nat) ∧ evalExpr vars (.or a b) = (m ||| n : Nat) := by
  simp only [evalExpr, ha, hb]
  exact ⟨rfl, rfl⟩

/-- R101: a shift by a non-negative amount multiplies by a power of two. -/
theorem evalExpr_shl {vars : List (Nat × Int)} {b : HostExpr} {n : Nat} (a : HostExpr) (hb : evalExpr vars b = n) :
    evalExpr vars (.shl a b) = evalExpr vars a * 2 ^ n := by
  simp only [evalExpr, hb]
  rfl

/-- R101: a variable listed in rising order has its listed value. -/
theorem evalExpr_var {vars : List (Nat × Int)} {x : Nat} {v : Int} (hs : vars.Pairwise (fun c d => c.1 < d.1))
    (h : (x, v) ∈ vars) : evalExpr vars (.var x) = v := by
  simp [evalExpr, hostVar, assocGet_of_mem hs h]

/-- R101: a branch moves only the index. -/
theorem HostAgent.jump_eq (h : HostAgent) (taken : Bool) (target : Nat) :
    h.jump taken target = { h with index := if taken = true then target else h.index + 1 } := by
  cases taken <;> rfl

/-- R290: a halted host changes nothing. -/
theorem hostStep_of_halted {s : State} (h : s.host.halted = true) : hostStep s = .next s := by
  unfold HostAgent.halted at h
  unfold hostStep
  split at h
  · next hc => rw [hc]
  · next hc => rw [hc]; rfl
  · simp at h

/-- Settles O59: the evaluation of each operator, and the run of each statement on the host's turn. -/
theorem hostStatementsFollowNotation : Obligations.HostStatementsFollowNotation := by
  refine ⟨fun vars a b => ⟨fun _ => rfl, fun x v => evalExpr_var, rfl, rfl, fun m n => evalExpr_bitwise,
    fun n => evalExpr_shl a, ?_, ?_⟩, fun s h => ?_⟩
  · simp [evalExpr, intBool]
  · simp [evalExpr, intBool]
  · intro u
    refine ⟨fun e target hc => ?_, fun e target hc => ?_, fun w off e hc v hv => ?_, fun hc => ?_⟩
    · rw [step_of_current h hc]
      simp [runStmt, State.withHost, HostAgent.jump_eq, u]
    · rw [step_of_current h hc]
      simp [runStmt, State.withHost, HostAgent.jump_eq, u]
    · have hval : u.busWrite w off (BitVec.ofInt 32 (evalExpr s.host.vars e)) = u.busWrite w off v :=
        busWrite_congr u off (ofInt_mod_width hv)
      have hstep : step s = hostWrite w off e u := step_of_current h hc
      have hvars : u.host = s.host := rfl
      rw [hstep, hostWrite, hvars, hval]
      exact ⟨fun t ht => by rw [ht]; rfl, fun f hf => by rw [hf]⟩
    · exact (step_of_hostTurn h).trans (hostStep_of_halted hc)

end Sys2Proof.Machine

/-! The proofs of the statements about memory, accesses and frames (family 20_memory). -/

namespace Sys2Proof.Machine

/-! ### The window and its accesses -/

/-- Settles O27: BASE is a multiple of the window size, and an offset is an address less BASE. -/
theorem windowAddresses : Obligations.WindowAddresses := by
  have hwin : Config.windowSize = 8192 := rfl
  refine ⟨Nat.mul_mod_right 8192 Config.baseIndex, fun addr off => ?_⟩
  unfold offsetOfAddress
  split
  · rw [Option.some.injEq]; omega
  · simp only [reduceCtorEq, false_iff]; omega

/-- R62: an illegal access inside the window is a bus error. -/
theorem busTarget_of_illegal {w : Width} {off : Nat} (hw : off < Config.windowSize) (hl : w.legalAt off = false) :
    busTarget w off = .error (.busError w off) := by
  rw [busTarget, if_neg (by omega), if_pos (by simp [hl])]

/-- R62: the legal accesses of the window, by its two spaces and the width. -/
theorem legalAt_iff {w : Width} {off : Nat} (h : off < 0x2000) : w.legalAt off = true ↔
    (off < 0x1000 → w = .w32 ∧ off % 4 = 0)
    ∧ (0x1000 ≤ off → (w = .w16 → off % 2 = 0) ∧ (w = .w32 → off % 4 = 0)) := by
  have hram : Config.ramWindow + Config.ramSize = 0x2000 := rfl
  unfold Width.legalAt
  rw [hram]
  by_cases hreg : off < Config.ramWindow
  · have hlow : off < 0x1000 := hreg
    simp [hreg, hlow]
  · have hhigh : 0x1000 ≤ off := Nat.le_of_not_lt hreg
    have hlow : ¬ off < 0x1000 := hreg
    cases w <;> simp [hreg, hhigh, hlow, h, Width.bytes, Nat.mod_one]

/-- R62, R300: a legal write is served, whether or not `rst` is asserted. -/
theorem busWrite_served {s : State} {w : Width} {off : Nat} (hl : w.legalAt off = true) (v : Word) :
    ∃ t, s.busWrite w off v = .ok t := by
  cases hr : s.rst with
  | true => exact ⟨s, (access_in_reset hr hl v).1⟩
  | false => exact ⟨_, busWrite_of_legal hr hl v⟩

/-- Settles O19: what O19 calls illegal is the negation of `legalAt`, which decides where an access goes. -/
theorem illegalAccessesFault : Obligations.IllegalAccessesFault := by
  intro s w off v h illegal
  have hiff : illegal ↔ w.legalAt off = false := by
    rw [← Bool.not_eq_true, legalAt_iff h]
    tauto
  refine ⟨fun hi => ?_, fun hi => ?_⟩
  · have ht := busTarget_of_illegal h (hiff.1 hi)
    simp only [State.busRead, State.busWrite, ht, and_self]
  · exact busWrite_served (by simpa [hiff] using hi) v

/-! ### Read statements -/

/-- R101: an assignment gives its variable the value and keeps every other variable. -/
theorem evalExpr_var_assocSet (vars : List (Nat × Int)) (x y : Nat) (v : Int) :
    evalExpr (assocSet x v vars) (.var y) = if y = x then v else evalExpr vars (.var y) := by
  by_cases h : y = x
  · subst h; simp [evalExpr, hostVar, assocGet_set_same]
  · simp [evalExpr, hostVar, assocGet_set_other h, h]

/-- R67: a host read does not depend on the host steps left before the engine step. -/
theorem busRead_engineDelay (s : State) (n : Nat) (w : Width) (off : Nat) :
    ({ s with engineDelay := n } : State).busRead w off = s.busRead w off :=
  busRead_congr (s := s) (t := { s with engineDelay := n }) rfl (fun _ => rfl) (fun _ _ => rfl) w off

/-- Settles O60: a read statement runs the bus read and assigns its value. -/
theorem hostReadsHaveNoSideEffect : Obligations.HostReadsHaveNoSideEffect := by
  intro s w off x h hc
  have hstep := step_of_current h hc
  simp only [runStmt, hostRead, busRead_engineDelay] at hstep
  refine ⟨fun v hv => ?_, fun f hf => ?_⟩
  · rw [hv] at hstep
    refine ⟨_, hstep, rfl, rfl, rfl, rfl, rfl, rfl, rfl, rfl, rfl, ?_, fun y hy => ?_⟩
    · exact (evalExpr_var_assocSet _ x x _).trans (if_pos rfl)
    · exact (evalExpr_var_assocSet _ x y _).trans (if_neg hy)
  · rw [hstep, hf]

/-! ### The faults of the commands -/

/-- R69: the fault of a command that reads an unwritten byte of its source or of its key (log 17). -/
def unwrittenFault (i : Instr) (L : Latch) (v : EngineView) (f : Fault) : Prop :=
  v.policy = .fault
  ∧ ((f = .unwrittenEngineRead L.srcAddr.toNat ∧ readsSource i ∧ holdsUnwritten v.ram L.srcAddr L.srcLen)
    ∨ (f = .unwrittenEngineRead L.keyAddr.toNat ∧ readsKey i ∧ holdsUnwritten v.ram L.keyAddr L.keyLen))

/-- The fault of the fetch of the source, for a command that reads its source. -/
theorem unwrittenFault_of_fetchSource {i : Instr} {L : Latch} {v : EngineView} {f : Fault} (hi : readsSource i)
    (hr : L.srcAddr.toNat + L.srcLen.toNat ≤ Config.ramSize) (h : fetchSource L v = .error (.fault f)) :
    unwrittenFault i L v f := by
  obtain ⟨hp, hf, hu⟩ := fetchSource_fault h hr
  exact ⟨hp, .inl ⟨hf, hi, hu⟩⟩

/-- The fault of the AES input, for a command that reads its source. -/
theorem unwrittenFault_of_aesInput {i : Instr} {L : Latch} {v : EngineView} {f : Fault} (hi : readsSource i)
    (h : aesInput L v = .error (.fault f)) : unwrittenFault i L v f := by
  obtain ⟨hp, hf, hu⟩ := aesInput_fault h
  exact ⟨hp, .inl ⟨hf, hi, hu⟩⟩

/-- The fault of the fetch of the key, for a command that reads a key. -/
theorem unwrittenFault_of_keyBytes {i : Instr} {L : Latch} {v : EngineView} {key : KeyForm} {f : Fault}
    (hi : readsKey i) (h : keyBytes key L v = .error (.fault f)) : unwrittenFault i L v f := by
  obtain ⟨hp, hf, hu⟩ := keyBytes_fault h
  exact ⟨hp, .inr ⟨hf, hi, hu⟩⟩

theorem b32encBody_fault {a : Alphabet} {L : Latch} {v : EngineView} {f : Fault}
    (h : b32encBody a L v = .error (.fault f)) : unwrittenFault (.b32enc a) L v f := by
  simp only [b32encBody, checkSource, Except.bind_eq_error, checkRange_ne_fault, checkOverlap_ne_fault,
    checkRange_eq_ok, Except.pure_eq_ok, false_or, reduceCtorEq, and_false, exists_false, or_false] at h
  obtain ⟨_, hr, _, -, _, -, h⟩ := h
  exact unwrittenFault_of_fetchSource trivial hr h

theorem b32decBody_fault {a : Alphabet} {L : Latch} {v : EngineView} {f : Fault}
    (h : b32decBody a L v = .error (.fault f)) : unwrittenFault (.b32dec a) L v f := by
  simp only [b32decBody, checkSource, Except.bind_eq_error, checkRange_ne_fault, checkOverlap_ne_fault,
    b32decodeCmd_ne_fault, checkRange_eq_ok, Except.pure_eq_ok, false_or, reduceCtorEq, and_false, exists_false,
    or_false] at h
  obtain ⟨_, hr, h⟩ := h
  exact unwrittenFault_of_fetchSource trivial hr h

theorem sha1Body_fault {L : Latch} {v : EngineView} {f : Fault} (h : sha1Body L v = .error (.fault f)) :
    unwrittenFault .sha1 L v f := by
  simp only [sha1Body, checkSource, Except.bind_eq_error, checkRange_ne_fault, checkRange_eq_ok, Except.pure_eq_ok,
    false_or, reduceCtorEq, and_false, exists_false, or_false] at h
  obtain ⟨_, hr, h⟩ := h
  exact unwrittenFault_of_fetchSource trivial hr h

theorem hmacBody_fault {key : KeyForm} {L : Latch} {v : EngineView} {f : Fault}
    (h : hmacBody key L v = .error (.fault f)) : unwrittenFault (.hmac key) L v f := by
  simp only [hmacBody, checkSource, Except.bind_eq_error, checkRange_ne_fault, checkRange_eq_ok, Except.pure_eq_ok,
    false_or, reduceCtorEq, and_false, exists_false, or_false] at h
  obtain ⟨_, hr, hk | ⟨_, -, h⟩⟩ := h
  · exact unwrittenFault_of_keyBytes trivial hk
  · exact unwrittenFault_of_fetchSource trivial hr h

theorem hotpBody_fault {key : KeyForm} {d : BitVec 4} {L : Latch} {v : EngineView} {f : Fault}
    (h : hotpBody key d L v = .error (.fault f)) : unwrittenFault (.hotp key d) L v f := by
  simp only [hotpBody, Except.bind_eq_error, checkDigits_ne_fault, Except.pure_eq_ok, false_or, reduceCtorEq,
    and_false, exists_false, or_false] at h
  obtain ⟨_, -, hk⟩ := h
  exact unwrittenFault_of_keyBytes trivial hk

theorem totpBody_fault {key : KeyForm} {d : BitVec 4} {L : Latch} {v : EngineView} {f : Fault}
    (h : totpBody key d L v = .error (.fault f)) : unwrittenFault (.totp key d) L v f := by
  simp only [totpBody, Except.bind_eq_error, checkDigits_ne_fault, Except.pure_eq_ok, false_or, reduceCtorEq,
    and_false, exists_false, or_false] at h
  obtain ⟨_, -, hk⟩ := h
  exact unwrittenFault_of_keyBytes trivial hk

/-- A body that computes its writes from a value it obtains first faults only where obtaining the value does. -/
theorem Except.bind_pure_eq_error {ε α β : Type} {x : Except ε α} {g : α → β} {e : ε}
    (h : (x >>= fun a => pure (g a)) = .error e) : x = .error e := by
  simpa [Except.bind_eq_error] using h

/-- R69, R123: every command's step is the run of an `execute` that faults only on an unwritten byte it reads. -/
theorem exec_eq_runCommand_fault (i : Instr) :
    ∃ body : Latch → EngineView → Except Stop Writes,
      (∀ s, exec i s = runCommand i.opcode.isOtp body s)
      ∧ ∀ L v f, body L v = .error (.fault f) → unwrittenFault i L v f := by
  cases i with
  | nop => exact ⟨nopBody, fun _ => rfl, fun L v f h => by simp [nopBody] at h⟩
  | b32enc a => exact ⟨b32encBody a, fun _ => rfl, fun _ _ _ => b32encBody_fault⟩
  | b32dec a => exact ⟨b32decBody a, fun _ => rfl, fun _ _ _ => b32decBody_fault⟩
  | sha1 => exact ⟨sha1Body, fun _ => rfl, fun _ _ _ => sha1Body_fault⟩
  | hmac k => exact ⟨hmacBody k, fun _ => rfl, fun _ _ _ => hmacBody_fault⟩
  | hotp k d => exact ⟨hotpBody k d, fun _ => rfl, fun _ _ _ => hotpBody_fault⟩
  | totp k d => exact ⟨totpBody k d, fun _ => rfl, fun _ _ _ => totpBody_fault⟩
  | aesEcbEnc ks =>
    exact ⟨aesEcbEncBody ks, fun _ => rfl, fun _ _ _ h =>
      unwrittenFault_of_aesInput trivial (Except.bind_pure_eq_error h)⟩
  | aesEcbDec ks =>
    exact ⟨aesEcbDecBody ks, fun _ => rfl, fun _ _ _ h =>
      unwrittenFault_of_aesInput trivial (Except.bind_pure_eq_error h)⟩
  | aesCbcEnc ks =>
    exact ⟨aesCbcEncBody ks, fun _ => rfl, fun _ _ _ h =>
      unwrittenFault_of_aesInput trivial (Except.bind_pure_eq_error h)⟩
  | aesCbcDec ks =>
    exact ⟨aesCbcDecBody ks, fun _ => rfl, fun _ _ _ h =>
      unwrittenFault_of_aesInput trivial (Except.bind_pure_eq_error h)⟩

/-- R69, R270: a command faults only without a latched command, or on an unwritten byte it reads. -/
theorem exec_fault {i : Instr} {s : State} {f : Fault} (h : exec i s = .fault f) :
    (s.latched = none ∧ f = .noCommandLatched)
    ∨ ∃ L, s.latched = some L ∧ unwrittenFault i L s.engineView f := by
  obtain ⟨body, hb, hf⟩ := exec_eq_runCommand_fault i
  rw [hb] at h
  obtain hn | ⟨L, hL, he⟩ := runCommand_fault h
  · exact .inl hn
  · exact .inr ⟨L, hL, hf L _ f he⟩

/-- R123: a latched command completes where no unwritten byte can stop it. -/
theorem exec_completes {i : Instr} {s : State} {L : Latch} (hL : s.latched = some L)
    (h : ∀ f, ¬ unwrittenFault i L s.engineView f) : ∃ t, exec i s = .next t := by
  cases he : exec i s with
  | next t => exact ⟨t, rfl⟩
  | refused r => exact absurd he exec_ne_refused
  | fault f =>
    obtain ⟨hn, -⟩ | ⟨M, hM, hu⟩ := exec_fault he
    · simp [hL] at hn
    · obtain rfl : L = M := by simpa [hL] using hM
      exact absurd hu (h f)

theorem runCommand_of_fault {otp : Bool} {body : Latch → EngineView → Except Stop Writes} {s : State} {L : Latch}
    {f : Fault} (hL : s.latched = some L) (h : body L s.engineView = .error (.fault f)) :
    runCommand otp body s = .fault f := by
  simp [runCommand, hL, h]

/-! ### Unwritten bytes do stop the commands that reach them -/

section UnwrittenSource

variable {L : Latch} {v : EngineView} (hp : v.policy = .fault) (hu : holdsUnwritten v.ram L.srcAddr L.srcLen)
include hp hu

theorem sha1Body_of_unwritten : sha1Body L v = .error (.fault (.unwrittenEngineRead L.srcAddr.toNat)) := by
  simp only [sha1Body, checkSource, checkRange_of_le hu.1, fetchSource_of_unwritten hp hu, Except.bind_ok,
    Except.bind_error]

theorem b32decBody_of_unwritten (a : Alphabet) :
    b32decBody a L v = .error (.fault (.unwrittenEngineRead L.srcAddr.toNat)) := by
  simp only [b32decBody, checkSource, checkRange_of_le hu.1, fetchSource_of_unwritten hp hu, Except.bind_ok,
    Except.bind_error]

/-- R156: B32ENC reads its source once its destination is in range and disjoint from it. -/
theorem b32encBody_of_unwritten (a : Alphabet)
    (hd : L.dstAddr.toNat + encodedLength L.srcLen.toNat ≤ Config.ramSize)
    (ho : disjointRanges L.srcAddr.toNat L.srcLen.toNat L.dstAddr.toNat (encodedLength L.srcLen.toNat)) :
    b32encBody a L v = .error (.fault (.unwrittenEngineRead L.srcAddr.toNat)) := by
  simp only [b32encBody, checkSource, checkRange_of_le hu.1, checkRange_of_le hd,
    checkOverlap_of_not (overlaps_eq_false.2 ho), fetchSource_of_unwritten hp hu, Except.bind_ok, Except.bind_error]

/-- R192: HMAC reads its source once it has its key. -/
theorem hmacBody_of_unwritten_source {key : KeyForm} {k : List Byte} (hk : keyOperandIs v.ram L key k) :
    hmacBody key L v = .error (.fault (.unwrittenEngineRead L.srcAddr.toNat)) := by
  simp only [hmacBody, checkSource, checkRange_of_le hu.1, keyBytes_of_operand hk, fetchSource_of_unwritten hp hu,
    Except.bind_ok, Except.bind_error]

/-- R242: an AES command reads its source once its checks pass. -/
theorem aesInput_of_unwritten {n : Nat} (hc : aesChecks L = .ok n) :
    aesInput L v = .error (.fault (.unwrittenEngineRead L.srcAddr.toNat)) := by
  simp only [aesInput, hc, fetchSource_of_unwritten hp hu, Except.bind_ok, Except.bind_error]

end UnwrittenSource

/-- Every AES command stops where its input does. -/
theorem exec_aes_of_input_fault {i : Instr} {ks : KeySize} {s : State} {L : Latch} {f : Fault}
    (hi : i = .aesEcbEnc ks ∨ i = .aesEcbDec ks ∨ i = .aesCbcEnc ks ∨ i = .aesCbcDec ks)
    (hL : s.latched = some L) (h : aesInput L s.engineView = .error (.fault f)) : exec i s = .fault f := by
  rcases hi with rfl | rfl | rfl | rfl
  · exact runCommand_of_fault (body := aesEcbEncBody ks) hL (by rw [aesEcbEncBody, h]; rfl)
  · exact runCommand_of_fault (body := aesEcbDecBody ks) hL (by rw [aesEcbDecBody, h]; rfl)
  · exact runCommand_of_fault (body := aesCbcEncBody ks) hL (by rw [aesCbcEncBody, h]; rfl)
  · exact runCommand_of_fault (body := aesCbcDecBody ks) hL (by rw [aesCbcDecBody, h]; rfl)

section UnwrittenKey

variable {L : Latch} {v : EngineView} (hp : v.policy = .fault) (hu : holdsUnwritten v.ram L.keyAddr L.keyLen)
include hp hu

/-- R192: HMAC reads its key once its source is in range. -/
theorem hmacBody_of_unwritten_key (key : KeyForm) (hr : L.srcAddr.toNat + L.srcLen.toNat ≤ Config.ramSize) :
    hmacBody key L v = .error (.fault (.unwrittenEngineRead L.keyAddr.toNat)) := by
  simp only [hmacBody, checkSource, checkRange_of_le hr, keyBytes_of_unwritten key hp hu, Except.bind_ok,
    Except.bind_error]

theorem hotpBody_of_unwritten (key : KeyForm) {d : BitVec 4} (hd : d.toNat ≤ 10) :
    hotpBody key d L v = .error (.fault (.unwrittenEngineRead L.keyAddr.toNat)) := by
  simp only [hotpBody, checkDigits_of_le hd, keyBytes_of_unwritten key hp hu, Except.bind_ok, Except.bind_error]

theorem totpBody_of_unwritten (key : KeyForm) {d : BitVec 4} (hd : d.toNat ≤ 10) :
    totpBody key d L v = .error (.fault (.unwrittenEngineRead L.keyAddr.toNat)) := by
  simp only [totpBody, checkDigits_of_le hd, keyBytes_of_unwritten key hp hu, Except.bind_ok, Except.bind_error]

end UnwrittenKey

/-- Settles O16: the faults of each command's `execute`, and its run up to the read that stops it. -/
theorem commandsStopOnlyOnUnwrittenBytes : Obligations.CommandsStopOnlyOnUnwrittenBytes := by
  refine ⟨fun i s => ⟨fun f h => exec_fault h, fun r => exec_ne_refused, fun L hL hno => ?_⟩,
    fun s L hL hp => ⟨fun hu => ?_, fun hu key d => ?_⟩⟩
  · refine exec_completes hL fun f ⟨hp, hf⟩ => ?_
    rcases hno with hdraw | ⟨hsrc, hkey⟩
    · have hpol : s.policy = .fault := hp
      simp [hdraw] at hpol
    · rcases hf with ⟨-, hr, hu⟩ | ⟨-, hr, hu⟩
      · exact hsrc hr hu
      · exact hkey hr hu
  · have hv : s.engineView.policy = .fault := hp
    refine ⟨runCommand_of_fault hL (sha1Body_of_unwritten hv hu),
      fun a => runCommand_of_fault hL (b32decBody_of_unwritten hv hu a),
      fun a hd ho => runCommand_of_fault hL (b32encBody_of_unwritten hv hu a hd ho), fun i ks hi h16 hd ho => ?_,
      fun key k hk => runCommand_of_fault hL (hmacBody_of_unwritten_source hv hu hk)⟩
    exact exec_aes_of_input_fault hi hL (aesInput_of_unwritten hv hu (aesChecks_of h16 hu.1 hd ho))
  · have hv : s.engineView.policy = .fault := hp
    exact ⟨fun hr => runCommand_of_fault hL (hmacBody_of_unwritten_key hv hu key hr),
      fun hd => ⟨runCommand_of_fault hL (hotpBody_of_unwritten hv hu key hd),
        runCommand_of_fault hL (totpBody_of_unwritten hv hu key hd)⟩⟩

/-! ### The frame of the commands that store -/

/-- R131, R132: how a command that stores can complete: an error, or an output, whose length meets `len`, at
L.DST_ADDR, beside it a new AES_IV only where `chains`. -/
inductive StoreOutcome (s : State) (L : Latch) (len : Nat → Prop) (chains : Prop) : State → Prop where
  | failed (c : ErrCode) : StoreOutcome s L len chains ((s.consume L).errorCompletion false c)
  | stored (bs : List Byte) (iv : Option Words4) (hlen : len bs.length) (hiv : ¬ chains → iv = none) :
      StoreOutcome s L len chains ((s.consume L).complete { writeDest L bs with iv := iv })

section Frame

variable {s t : State} {L : Latch} {len : Nat → Prop} {chains : Prop}

/-- An output of a known length changes no byte outside its range. -/
theorem StoreOutcome.ramSameOutside_length {n : Nat} (h : StoreOutcome s L (· = n) chains t) :
    ramSameOutside s t L.dstAddr.toNat n := by
  cases h with
  | failed c => exact fun _ _ => rfl
  | stored bs iv hlen _ =>
    subst hlen
    exact fun x hx => Memory.byteAt_store_outside s.ram hx

/-- R33: an output that fits in RAM is as long as RES_LEN says. -/
theorem StoreOutcome.ramSameOutside_resLen (h : StoreOutcome s L (· ≤ Config.ramSize) chains t) :
    ramSameOutside s t L.dstAddr.toNat t.results.resLen.toNat := by
  cases h with
  | failed c => exact fun _ _ => rfl
  | stored bs iv hlen _ =>
    have hle : bs.length ≤ 4096 := hlen
    have hres : (BitVec.ofNat 32 bs.length).toNat = bs.length := by
      rw [BitVec.toNat_ofNat, Nat.mod_eq_of_lt (by omega)]
    exact fun x hx => Memory.byteAt_store_outside s.ram (hres ▸ hx)

/-- A command that stores changes no register but AES_IV. -/
theorem StoreOutcome.regs_but_iv (h : StoreOutcome s L len chains t) :
    { t.regs with aesIv := s.regs.aesIv } = s.regs := by
  cases h <;> rfl

/-- AES_IV too is kept where nothing chains. -/
theorem StoreOutcome.regs_eq (h : StoreOutcome s L len chains t) (hc : ¬ chains) : t.regs = s.regs := by
  cases h with
  | failed c => rfl
  | stored bs iv _ hiv => rw [hiv hc]; rfl

/-- A command that stores changes no result but RES_LEN, and keeps STEP0 and WBUSY. -/
theorem StoreOutcome.results_and_flags (h : StoreOutcome s L len chains t) :
    { t.results with resLen := s.results.resLen } = s.results
    ∧ t.status.step0 = s.status.step0 ∧ t.status.wbusy = s.status.wbusy := by
  cases h with
  | failed c => exact ⟨rfl, rfl, rfl⟩
  | stored bs iv _ _ => exact ⟨rfl, Bool.or_false _, rfl⟩

/-- A body whose successful writes are such an output has such an outcome. -/
theorem storeOutcome_of_body {body : Latch → EngineView → Except Stop Writes} (hL : s.latched = some L)
    (hb : ∀ w, body L s.engineView = .ok w →
      ∃ bs iv, len bs.length ∧ (¬ chains → iv = none) ∧ w = { writeDest L bs with iv := iv })
    (h : runCommand false body s = .next t) : StoreOutcome s L len chains t := by
  obtain ⟨M, hM, hout⟩ := runCommand_next h
  obtain rfl : L = M := by simpa [hL] using hM
  rcases hout with ⟨w, hw, rfl⟩ | ⟨c, -, rfl⟩
  · obtain ⟨bs, iv, hlen, hiv, rfl⟩ := hb w hw
    exact .stored bs iv hlen hiv
  · exact .failed c

theorem exec_b32enc_outcome {a : Alphabet} (hL : s.latched = some L) (h : exec (.b32enc a) s = .next t) :
    StoreOutcome s L (· = encodedLength L.srcLen.toNat) False t := by
  refine storeOutcome_of_body hL (fun w hw => ?_) h
  obtain ⟨-, -, bs, hbs, rfl⟩ := b32encBody_ok hw
  exact ⟨_, none, by rw [b32encode_length, show bs.length = L.srcLen.toNat from memRead_length hbs],
    fun _ => rfl, rfl⟩

theorem exec_b32dec_outcome {a : Alphabet} (hL : s.latched = some L) (h : exec (.b32dec a) s = .next t) :
    StoreOutcome s L (· ≤ Config.ramSize) False t := by
  refine storeOutcome_of_body hL (fun w hw => ?_) h
  obtain ⟨-, _, bs, -, -, hd, rfl⟩ := b32decBody_ok hw
  exact ⟨bs, none, by omega, fun _ => rfl, rfl⟩

/-- R242: the input of an AES command is its source, cut into blocks. -/
theorem aesInput_total_length {v : EngineView} {p : List (List Byte)} (h : aesInput L v = .ok p) :
    16 * p.length = L.srcLen.toNat := by
  obtain ⟨h16, -, _, -, rfl⟩ := aesInput_ok h
  rw [blocks16_count]
  omega

/-- The outcome of the ECB commands. -/
theorem exec_aesEcb_outcome {i : Instr} {ks : KeySize} (hi : i = .aesEcbEnc ks ∨ i = .aesEcbDec ks)
    (hL : s.latched = some L) (h : exec i s = .next t) : StoreOutcome s L (· = L.srcLen.toNat) False t := by
  rcases hi with rfl | rfl
  · refine storeOutcome_of_body hL (fun w hw => ?_) h
    obtain ⟨p, hp, rfl⟩ := aesEcbEncBody_ok hw
    exact ⟨_, none, by rw [ecbEncrypt_flatten_length, aesInput_total_length hp], fun _ => rfl, rfl⟩
  · refine storeOutcome_of_body hL (fun w hw => ?_) h
    obtain ⟨c, hc, rfl⟩ := aesEcbDecBody_ok hw
    exact ⟨_, none, by rw [ecbDecrypt_flatten_length, aesInput_total_length hc], fun _ => rfl, rfl⟩

/-- The outcome of the CBC commands, which may write AES_IV (R247). -/
theorem exec_aesCbc_outcome {i : Instr} {ks : KeySize} (hi : i = .aesCbcEnc ks ∨ i = .aesCbcDec ks)
    (hL : s.latched = some L) (h : exec i s = .next t) : StoreOutcome s L (· = L.srcLen.toNat) True t := by
  rcases hi with rfl | rfl
  · refine storeOutcome_of_body hL (fun w hw => ?_) h
    obtain ⟨p, hp, rfl⟩ := aesCbcEncBody_ok hw
    exact ⟨_, _, by rw [cbcEncrypt_flatten_length, aesInput_total_length hp], fun hn => absurd trivial hn, rfl⟩
  · refine storeOutcome_of_body hL (fun w hw => ?_) h
    obtain ⟨c, hc, rfl⟩ := aesCbcDecBody_ok hw
    have hblocks := (aesInput_block_length hc).2
    exact ⟨_, _, by rw [cbcDecrypt_flatten_length (Words4.bytes_length _) hblocks, aesInput_total_length hc],
      fun hn => absurd trivial hn, rfl⟩

end Frame

/-- Settles O50: the frame of each storing command's outcome. -/
theorem storingCommandsFrame : Obligations.StoringCommandsFrame := by
  intro i s t L hL h
  refine ⟨?_, ?_, ?_, ?_, ?_, ?_⟩
  · rintro a rfl
    exact (exec_b32enc_outcome hL h).ramSameOutside_length
  · rintro a rfl
    exact (exec_b32dec_outcome hL h).ramSameOutside_resLen
  · rintro ⟨ks, hi | hi | hi | hi⟩
    · exact (exec_aesEcb_outcome (.inl hi) hL h).ramSameOutside_length
    · exact (exec_aesEcb_outcome (.inr hi) hL h).ramSameOutside_length
    · exact (exec_aesCbc_outcome (.inl hi) hL h).ramSameOutside_length
    · exact (exec_aesCbc_outcome (.inr hi) hL h).ramSameOutside_length
  · rintro (⟨a, rfl | rfl⟩ | ⟨ks, hi⟩)
    · exact (exec_b32enc_outcome hL h).regs_eq not_false
    · exact (exec_b32dec_outcome hL h).regs_eq not_false
    · exact (exec_aesEcb_outcome hi hL h).regs_eq not_false
  · rintro ⟨ks, hi⟩
    exact (exec_aesCbc_outcome hi hL h).regs_but_iv
  · rintro (⟨a, rfl | rfl⟩ | ⟨ks, hi | hi | hi⟩)
    · exact (exec_b32enc_outcome hL h).results_and_flags
    · exact (exec_b32dec_outcome hL h).results_and_flags
    · exact (exec_aesEcb_outcome (.inl hi) hL h).results_and_flags
    · exact (exec_aesEcb_outcome (.inr hi) hL h).results_and_flags
    · exact (exec_aesCbc_outcome hi hL h).results_and_flags

end Sys2Proof.Machine

/-! The proofs of the statements about the command word, the assembler, HOTP, the keyed commands and AES (family
30_encoding). -/

namespace Sys2Proof.Machine

/-! ### What the decoder checks (R96) -/

theorem ofByte_code (o : Opcode) : Opcode.ofByte o.code = some o := by cases o <;> decide

/-- R95: an OP value names the operation that has it. -/
theorem ofByte_eq_some {b : Byte} {o : Opcode} : Opcode.ofByte b = some o ↔ o.code = b := by
  refine ⟨fun h => by simpa using List.find?_some h, ?_⟩
  rintro rfl
  exact ofByte_code o

/-- R97(a): the reserved OP values are those of no operation. -/
theorem ofByte_eq_none {b : Byte} (h : ∀ o : Opcode, o.code ≠ b) : Opcode.ofByte b = none :=
  List.find?_eq_none.2 fun o _ => by simpa using h o

/-- R96, R97(b) to (d): the word fails a check on the fields of the operation. -/
def fieldsRefused (o : Opcode) (c : Word) : Bool :=
  c &&& ~~~ (0x000000FF ||| o.allowed) != 0 || (o.keyed && !keyfmtField c && alphField c)
    || (o.isAes && ksField c == 3)

theorem fieldsRefused_eq_false {o : Opcode} {c : Word} : fieldsRefused o c = false ↔
    c &&& ~~~ (0x000000FF ||| o.allowed) = 0 ∧ (o.keyed && !keyfmtField c && alphField c) = false
    ∧ (o.isAes && ksField c == 3) = false := by
  simp only [fieldsRefused, Bool.or_eq_false_iff, bne_eq_false_iff_eq, and_assoc]

/-- R93, R97(e): the word fails the check on DIGITS. -/
def digitsRefused (o : Opcode) (c : Word) : Bool := o.isOtp && decide (11 ≤ (digitsField c).toNat)

/-- R96: the decoder on a word with an assigned OP value. -/
theorem decode_of_code {c : Word} {o : Opcode} (ho : o.code = opField c) :
    decode c = if fieldsRefused o c then .error .badField else if digitsRefused o c then .error .badDigits
      else .ok (o.build c) := by
  rw [decode, ofByte_eq_some.2 ho]
  simp only [fieldsRefused, digitsRefused, Bool.or_eq_true, bne_iff_ne, ite_or]
  congr

/-- R96, R97(a): a word that decodes has an assigned OP value. -/
theorem exists_code_of_decode {c : Word} {i : Instr} (h : decode c = .ok i) : ∃ o : Opcode, o.code = opField c := by
  by_contra hn
  rw [decode, ofByte_eq_none (not_exists.1 hn)] at h
  simp at h

/-! ### Decoding a command's own word (R91, R95) -/

/-- R91, R95: the word of every command has the OP of its operation and no bit its operation does not allow. -/
theorem encodedOp (i : Instr) : Laws.EncodedOp.Statement i := by
  cases i with
  | nop => exact Laws.EncodedOp.nop
  | b32enc a => exact Laws.EncodedOp.b32enc a
  | b32dec a => exact Laws.EncodedOp.b32dec a
  | sha1 => exact Laws.EncodedOp.sha1
  | hmac k => exact Laws.EncodedOp.hmac k
  | hotp k d => exact Laws.EncodedOp.hotp k d
  | totp k d => exact Laws.EncodedOp.totp k d
  | aesEcbEnc ks => exact Laws.EncodedOp.aesEcbEnc ks
  | aesEcbDec ks => exact Laws.EncodedOp.aesEcbDec ks
  | aesCbcEnc ks => exact Laws.EncodedOp.aesCbcEnc ks
  | aesCbcDec ks => exact Laws.EncodedOp.aesCbcDec ks

/-- R91, R93, R96: of a command's word no field is refused, DIGITS only where the command is ill-formed, and the operand
fields read as the command's operands. -/
theorem checks_encode (i : Instr) :
    fieldsRefused i.opcode (encode i) = false ∧ digitsRefused i.opcode (encode i) = !i.wf
    ∧ i.opcode.build (encode i) = i := by
  cases i with
  | nop => decide
  | sha1 => decide
  | b32enc a => cases a <;> decide
  | b32dec a => cases a <;> decide
  | hmac k => rcases k with _ | (_ | _) <;> decide
  | hotp k d => revert d; rcases k with _ | (_ | _) <;> decide
  | totp k d => revert d; rcases k with _ | (_ | _) <;> decide
  | aesEcbEnc ks => cases ks <;> decide
  | aesEcbDec ks => cases ks <;> decide
  | aesCbcEnc ks => cases ks <;> decide
  | aesCbcDec ks => cases ks <;> decide

/-- Settles O1: the word has the command's OP, passes the decoder's checks, and its fields give the operands back. -/
theorem decodeEncodeRoundTrip : Obligations.DecodeEncodeRoundTrip := by
  intro i hwf
  obtain ⟨hcode, -, -⟩ := encodedOp i hwf
  obtain ⟨hfields, hdigits, hbuild⟩ := checks_encode i
  rw [decode_of_code hcode.symm, hfields, hdigits, hwf, hbuild]
  rfl

/-- Settles O5: the words are those of the commands. -/
theorem sampleWordsDecode : Obligations.SampleWordsDecode :=
  ⟨decodeEncodeRoundTrip .nop rfl, decodeEncodeRoundTrip (.b32enc .hex) rfl, decodeEncodeRoundTrip (.b32dec .std) rfl,
    decodeEncodeRoundTrip .sha1 rfl, decodeEncodeRoundTrip (.hmac (.b32 .std)) rfl,
    decodeEncodeRoundTrip (.totp (.b32 .std) 8) rfl, decodeEncodeRoundTrip (.aesCbcDec .k256) rfl⟩

/-! ### The fields of a word that decodes (R91, R96) -/

/-- A field of a word, put back in its place, is the word under the field's mask. -/
theorem extractLsb'_shiftLeft (c : Word) (start len : Nat) :
    (c.extractLsb' start len).setWidth 32 <<< start = c &&& ((BitVec.allOnes len).setWidth 32 <<< start) := by
  refine BitVec.eq_of_getLsbD_eq fun n hn => ?_
  simp only [BitVec.getLsbD_shiftLeft, BitVec.getLsbD_setWidth, BitVec.getLsbD_extractLsb', BitVec.getLsbD_and,
    BitVec.getLsbD_allOnes, hn, decide_true, Bool.true_and]
  by_cases h : n < start
  · simp [h]
  · simp only [h, show start + (n - start) = n by omega, decide_false, Bool.not_false, Bool.true_and]
    ac_rfl

theorem opField_bits (c : Word) : (opField c).setWidth 32 = c &&& 0x000000FF :=
  (BitVec.shiftLeft_zero _).symm.trans (extractLsb'_shiftLeft c 0 8)

theorem digitsBits_digitsField (c : Word) : digitsBits (digitsField c) = c &&& 0x000F0000 :=
  extractLsb'_shiftLeft c 16 4

theorem alphabet_bits_ofBit (c : Word) : (Alphabet.ofBit (alphField c)).bits = c &&& 0x00000100 := by
  have h : c &&& 0x00000100 = if c.getLsbD 8 then 0x00000100 else 0 := BitVec.and_twoPow c 8
  rw [h, alphField]
  cases c.getLsbD 8 <;> rfl

/-- R97(c): KEYFMT and ALPH are the bits of the key form unless ALPH stands without KEYFMT. -/
theorem keyForm_bits_ofBits {c : Word} (h : (!keyfmtField c && alphField c) = false) :
    (KeyForm.ofBits (keyfmtField c) (alphField c)).bits = c &&& 0x00000300 := by
  have hk : c &&& 0x00000200 = if c.getLsbD 9 then 0x00000200 else 0 := BitVec.and_twoPow c 9
  rw [show (0x00000300 : Word) = 0x00000200 ||| 0x00000100 from rfl, BitVec.and_or_distrib_left, hk,
    ← alphabet_bits_ofBit]
  unfold keyfmtField at h ⊢
  generalize alphField c = a at *
  revert h
  cases c.getLsbD 9 <;> cases a <;> decide

/-- R91: the fields of HOTP and TOTP. -/
theorem digits_keyForm_bits {c : Word} (h : (!keyfmtField c && alphField c) = false) :
    digitsBits (digitsField c) ||| (KeyForm.ofBits (keyfmtField c) (alphField c)).bits = c &&& 0x000F0300 := by
  rw [digitsBits_digitsField, keyForm_bits_ofBits h, ← BitVec.and_or_distrib_left]
  rfl

/-- R94, R97(d): KS is the bits of the key size unless it is 3. -/
theorem keySize_bits_ofField {c : Word} (h : (ksField c == 3) = false) :
    (KeySize.ofField (ksField c)).bits = c &&& 0x00003000 := by
  have hks : ∀ k : BitVec 2, (k == 3) = false → (KeySize.ofField k).bits = k.setWidth 32 <<< 12 := by decide
  rw [hks _ h]
  exact extractLsb'_shiftLeft c 12 2

/-- R91, R97(b): a word without bits outside its operation's fields is its OP and those fields. -/
theorem opField_or_allowed {c a : Word} (h : c &&& ~~~ (0x000000FF ||| a) = 0) :
    (opField c).setWidth 32 ||| (c &&& a) = c := by
  rw [opField_bits, ← BitVec.and_or_distrib_left]
  refine BitVec.eq_of_getLsbD_eq fun n hn => ?_
  have hbit := congrArg (BitVec.getLsbD · n) h
  simp only [BitVec.getLsbD_and, BitVec.getLsbD_not, hn, decide_true, Bool.true_and] at hbit ⊢
  revert hbit
  cases c.getLsbD n <;> cases (0x000000FF ||| a).getLsbD n <;> simp

/-- R91, R96: the operands of a word whose fields are not refused have the bits of those fields. -/
theorem fieldBits_build {o : Opcode} {c : Word} (h : fieldsRefused o c = false) :
    (o.build c).fieldBits = c &&& o.allowed := by
  obtain ⟨-, hkey, hks⟩ := fieldsRefused_eq_false.1 h
  cases o with
  | nop => exact (BitVec.and_zero).symm
  | sha1 => exact (BitVec.and_zero).symm
  | b32enc => exact alphabet_bits_ofBit c
  | b32dec => exact alphabet_bits_ofBit c
  | hmac => exact keyForm_bits_ofBits hkey
  | hotp => exact digits_keyForm_bits hkey
  | totp => exact digits_keyForm_bits hkey
  | aesEcbEnc => exact keySize_bits_ofField hks
  | aesEcbDec => exact keySize_bits_ofField hks
  | aesCbcEnc => exact keySize_bits_ofField hks
  | aesCbcDec => exact keySize_bits_ofField hks

theorem opcode_build (o : Opcode) (c : Word) : (o.build c).opcode = o := by cases o <;> rfl

/-- R93: a built command is well formed when DIGITS is not refused. -/
theorem wf_build {o : Opcode} {c : Word} : (o.build c).wf = !digitsRefused o c := by
  have hle : decide ((digitsField c).toNat ≤ 10) = !decide (11 ≤ (digitsField c).toNat) := by
    rw [← decide_not]
    exact decide_eq_decide.2 (by omega)
  cases o with
  | hotp => exact hle
  | totp => exact hle
  | _ => rfl

/-- Settles O2: the word is its OP and its allowed fields, and those are the bits of the operands built from it. -/
theorem encodeDecodeRoundTrip : Obligations.EncodeDecodeRoundTrip := by
  intro c i h
  obtain ⟨o, ho⟩ := exists_code_of_decode h
  rw [decode_of_code ho] at h
  split at h
  · simp at h
  · next hf =>
    split at h
    · simp at h
    · next hd =>
      obtain rfl : o.build c = i := by simpa using h
      rw [Bool.not_eq_true] at hf hd
      have hwf : (o.build c).wf = true := by simp [wf_build, hd]
      refine ⟨hwf, ?_⟩
      obtain ⟨hres, -, -⟩ := fieldsRefused_eq_false.1 hf
      rw [encode, opcode_build, ho, fieldBits_build hf, opField_or_allowed hres]

/-! ### Which words the decoder refuses (R96, R97) -/

/-- R91, R95: the bits outside OP and the fields of an operation. -/
theorem reservedBit_iff (o : Opcode) {n : Nat} (hn : n < 32) :
    (~~~ (0x000000FF ||| o.allowed)).getLsbD n = true ↔ 8 ≤ n ∧ fieldBitAllowed o n = false := by
  revert n
  cases o <;> decide

theorem ne_zero_iff_exists_getLsbD {x : Word} : x ≠ 0 ↔ ∃ n, n < 32 ∧ x.getLsbD n = true := by
  refine ⟨fun h => ?_, ?_⟩
  · by_contra hn
    push Not at hn
    exact h (BitVec.eq_of_getLsbD_eq fun n hlt => by simpa using hn n hlt)
  · rintro ⟨n, -, h⟩ rfl
    simp at h

/-- R97(b): a bit the operation does not allow. -/
theorem reserved_ne_zero_iff {o : Opcode} {c : Word} :
    c &&& ~~~ (0x000000FF ||| o.allowed) ≠ 0
    ↔ ∃ n, 8 ≤ n ∧ n < 32 ∧ c.getLsbD n = true ∧ fieldBitAllowed o n = false := by
  rw [ne_zero_iff_exists_getLsbD]
  refine exists_congr fun n => ?_
  rw [BitVec.getLsbD_and, Bool.and_eq_true]
  constructor
  · rintro ⟨hn, hc, hr⟩
    obtain ⟨h8, ha⟩ := (reservedBit_iff o hn).1 hr
    exact ⟨h8, hn, hc, ha⟩
  · rintro ⟨h8, hn, hc, ha⟩
    exact ⟨hn, hc, (reservedBit_iff o hn).2 ⟨h8, ha⟩⟩

theorem keyed_iff {o : Opcode} : o.keyed = true ↔ o = .hmac ∨ o = .hotp ∨ o = .totp := by cases o <;> decide

theorem isOtp_iff {o : Opcode} : o.isOtp = true ↔ o = .hotp ∨ o = .totp := by cases o <;> decide

theorem isAes_iff {o : Opcode} :
    o.isAes = true ↔ o = .aesEcbEnc ∨ o = .aesEcbDec ∨ o = .aesCbcEnc ∨ o = .aesCbcDec := by cases o <;> decide

/-- R97(b) to (d): the fields the decoder refuses, bit by bit. -/
theorem fieldsRefused_iff {o : Opcode} {c : Word} : fieldsRefused o c = true ↔
    (∃ n, 8 ≤ n ∧ n < 32 ∧ c.getLsbD n = true ∧ fieldBitAllowed o n = false)
    ∨ ((o = .hmac ∨ o = .hotp ∨ o = .totp) ∧ c.getLsbD 9 = false ∧ c.getLsbD 8 = true)
    ∨ ((o = .aesEcbEnc ∨ o = .aesEcbDec ∨ o = .aesCbcEnc ∨ o = .aesCbcDec) ∧ c.extractLsb' 12 2 = 3) := by
  simp only [fieldsRefused, keyfmtField, alphField, ksField, Bool.or_eq_true, bne_iff_ne, reserved_ne_zero_iff,
    Bool.and_eq_true, keyed_iff, isAes_iff, Bool.not_eq_true', beq_iff_eq, or_assoc, and_assoc]

/-- R97(e): the DIGITS the decoder refuses. -/
theorem digitsRefused_iff {o : Opcode} {c : Word} :
    digitsRefused o c = true ↔ (o = .hotp ∨ o = .totp) ∧ 11 ≤ (c.extractLsb' 16 4).toNat := by
  rw [digitsRefused, Bool.and_eq_true, isOtp_iff, decide_eq_true_iff]
  rfl

/-- Settles O3: the stated conditions are the decoder's checks, taken in their order. -/
theorem decodeRefusesExactlyIllegalWords : Obligations.DecodeRefusesExactlyIllegalWords := by
  intro c
  constructor
  · intro hnone
    rw [decode, opField, ofByte_eq_none hnone]
  · intro o ho badField badDigits
    have hfields : fieldsRefused o c = true ↔ badField := fieldsRefused_iff
    have hdigits : digitsRefused o c = true ↔ badDigits := digitsRefused_iff
    rw [decode_of_code ho, ← hfields, ← hdigits]
    refine ⟨fun hf => if_pos hf, fun hf hd => ?_, fun hf hd => ⟨o.build c, ?_, opcode_build o c⟩⟩
    · rw [if_neg hf, if_pos hd]
    · rw [if_neg hf, if_neg hd]

/-! ### The assembler (R100) -/

/-- R93, R95: every well-formed command is in the list of the legal ones. -/
theorem mem_all_of_wf {i : Instr} (h : i.wf = true) : i ∈ Instr.all := by
  revert h
  cases i with
  | nop => decide
  | sha1 => decide
  | b32enc a => cases a <;> decide
  | b32dec a => cases a <;> decide
  | hmac k => rcases k with _ | (_ | _) <;> decide
  | hotp k d => revert d; rcases k with _ | (_ | _) <;> decide
  | totp k d => revert d; rcases k with _ | (_ | _) <;> decide
  | aesEcbEnc ks => cases ks <;> decide
  | aesEcbDec ks => cases ks <;> decide
  | aesCbcEnc ks => cases ks <;> decide
  | aesCbcDec ks => cases ks <;> decide

/-- R100: no two legal commands share a spelling. -/
theorem spelling_nodup : (Instr.all.map Instr.spelling).Nodup := by decide +kernel

theorem assemble_spelling {i : Instr} (h : i ∈ Instr.all) : assemble i.spelling = some (encode i) := by
  have hfind : ∃ j, Instr.all.find? (fun j => j.spelling == i.spelling) = some j :=
    Option.isSome_iff_exists.1 (List.find?_isSome.2 ⟨i, h, beq_self_eq_true _⟩)
  obtain ⟨j, hj⟩ := hfind
  have hs : j.spelling = i.spelling := by simpa using List.find?_some hj
  obtain rfl : j = i := List.inj_on_of_nodup_map spelling_nodup (List.mem_of_find?_eq_some hj) h hs
  rw [assemble, hj]
  rfl

/-- Settles O4: the spelling finds its one command in the table, and the word decodes to that command. -/
theorem assemblerRoundTrip : Obligations.AssemblerRoundTrip := by
  intro i hwf
  refine ⟨assemble_spelling (mem_all_of_wf hwf), ?_⟩
  rw [disassemble, decodeEncodeRoundTrip i hwf]

/-! ### HOTP (R193 to R200) -/

/-- R200: HOTP with a key operand that yields `k` and a legal DIGITS. -/
theorem hotpBody_of_key {L : Latch} {v : EngineView} {key : KeyForm} {k : List Byte} {d : BitVec 4}
    (hk : keyOperandIs v.ram L key k) (hd : d.toNat ≤ 10) :
    hotpBody key d L v = .ok (otpWrites k L.cnt.toNat (digitCount d)) := by
  simp only [hotpBody, checkDigits_of_le hd, keyBytes_of_operand hk, Except.bind_ok, Except.pure_eq_ok]

/-- R193 to R200: the result registers after the writes of HOTP, whatever CNT and STEP0 they carry (R208). -/
theorem applyWrites_otpWrites (r : Results) (k : List Byte) (counter : Nat) {D : Nat} (hD : D ≤ 10) (cnt : Option DWord)
    (step0 : Bool) :
    let t := r.applyWrites { otpWrites k counter D with cnt := cnt, step0 := step0 }
    let digest := hmacSha1 k (beBytes 8 counter)
    let code := dynamicTruncate digest % 10 ^ D
    t.digest.bytes = digest ∧ t.otpCode.toNat = code ∧ t.otpLen.toNat = D
    ∧ t.otpStr.bytes = decimalString code D ++ List.replicate (12 - D) 0x00 ∧ t.resLen = 0 := by
  intro t digest code
  have hcode : code < 2 ^ 32 := (hotpCode_lt digest D).2
  have hstr : (decimalString code D ++ List.replicate (12 - D) (0x00 : Byte)).length = 12 := by simp; omega
  exact ⟨Words5.bytes_ofBytes (hmacSha1_length _ _), (BitVec.toNat_ofNat _ _).trans (Nat.mod_eq_of_lt hcode),
    (BitVec.toNat_ofNat _ _).trans (Nat.mod_eq_of_lt (by omega)), Words3.bytes_ofBytes hstr, rfl⟩

/-- Settles O43: the run of `hotpBody` and the result registers after its writes. -/
theorem hotpWritesCode : Obligations.HotpWritesCode := by
  intro s L key d k hL hk hd D digest code
  obtain ⟨hdigest, hcode, hlen, hstr, hres⟩ :=
    applyWrites_otpWrites s.results k L.cnt.toNat (digitCount_le hd) none false
  exact ⟨_, runCommand_of_ok hL (hotpBody_of_key hk hd), completedOk_complete s L _, hdigest, hcode, hlen, hstr, hres,
    rfl, rfl, rfl, rfl, rfl, rfl⟩

/-! ### The errors of the keyed commands (R274) -/

/-- R272: a command whose `execute` raises an error ends in its error completion. -/
theorem runCommand_completedErr {otp : Bool} {body : Latch → EngineView → Except Stop Writes} {s : State} {L : Latch}
    {c : ErrCode} (hL : s.latched = some L) (h : body L s.engineView = raise c) :
    ∃ t, runCommand otp body s = .next t ∧ completedErr s t otp c :=
  ⟨_, runCommand_of_error hL h, completedErr_errorCompletion s L otp c⟩

/-- R188: a key range that does not fit. -/
theorem keyBytes_of_range {L : Latch} (key : KeyForm) (v : EngineView)
    (h : Config.ramSize < L.keyAddr.toNat + L.keyLen.toNat) : keyBytes key L v = raise .range := by
  rw [keyBytes, fetchKey, checkRange_of_gt h]
  rfl

/-- R188: key text that does not decode. -/
theorem keyBytes_of_text {L : Latch} {v : EngineView} {a : Alphabet} {text : List Byte} {c : ErrCode}
    (ht : operandHolds v.ram L.keyAddr L.keyLen text) (hc : b32decode a text = .error c) :
    keyBytes (.b32 a) L v = raise c := by
  simp only [keyBytes, fetchKey_of_holds ht, Except.bind_ok, b32decodeCmd_of_error hc]

/-- R192, R200, R208: an error of the key operand is the error of every keyed command that has passed its checks before
the key. -/
theorem keyed_of_keyError {s : State} {L : Latch} {key : KeyForm} {d : BitVec 4} {c : ErrCode} (hL : s.latched = some L)
    (hd : d.toNat ≤ 10) (hk : keyBytes key L s.engineView = raise c) :
    (L.srcAddr.toNat + L.srcLen.toNat ≤ Config.ramSize →
      ∃ t, exec (.hmac key) s = .next t ∧ completedErr s t false c)
    ∧ (∃ t, exec (.hotp key d) s = .next t ∧ completedErr s t true c)
    ∧ ∃ t, exec (.totp key d) s = .next t ∧ completedErr s t true c := by
  refine ⟨fun hs => runCommand_completedErr hL ?_, runCommand_completedErr hL ?_, runCommand_completedErr hL ?_⟩
  · rw [hmacBody, checkSource, checkRange_of_le hs, hk]
    rfl
  · rw [hotpBody, checkDigits_of_le hd, hk]
    rfl
  · rw [totpBody, checkDigits_of_le hd, hk]
    rfl

/-- R93, R274: DIGITS of 11 or more is the first error of HOTP and TOTP. -/
theorem otp_of_badDigits {s : State} {L : Latch} (key : KeyForm) {d : BitVec 4} (hL : s.latched = some L)
    (hd : 11 ≤ d.toNat) :
    (∃ t, exec (.hotp key d) s = .next t ∧ completedErr s t true .badDigits)
    ∧ ∃ t, exec (.totp key d) s = .next t ∧ completedErr s t true .badDigits := by
  refine ⟨runCommand_completedErr hL ?_, runCommand_completedErr hL ?_⟩
  · rw [hotpBody, checkDigits_of_ge hd]
    rfl
  · rw [totpBody, checkDigits_of_ge hd]
    rfl

/-- R274: the source range is the first check of HMAC. -/
theorem hmac_of_sourceRange {s : State} {L : Latch} (key : KeyForm) (hL : s.latched = some L)
    (h : Config.ramSize < L.srcAddr.toNat + L.srcLen.toNat) :
    ∃ t, exec (.hmac key) s = .next t ∧ completedErr s t false .range := by
  refine runCommand_completedErr hL ?_
  rw [hmacBody, checkSource, checkRange_of_gt h]
  rfl

/-- Settles O45: the checks before the key, then the two errors of the key operand. -/
theorem keyedCommandErrors : Obligations.KeyedCommandErrors := by
  intro s L key d hL
  exact ⟨otp_of_badDigits key hL, hmac_of_sourceRange key hL,
    fun hrange hd => keyed_of_keyError hL hd (keyBytes_of_range key s.engineView hrange),
    fun _ _ _ htext herr hd => keyed_of_keyError hL hd (keyBytes_of_text htext herr)⟩

/-! ### Whose step it is (R123, R312) -/

/-- Settles O6: the engine's turn and the host's exclude each other. -/
theorem stepRunsDecodedCommand : Obligations.StepRunsDecodedCommand := by
  refine ⟨fun s L i hL hdelay hi => ?_, fun s h => ?_⟩
  · have hturn : s.engineTurn = true := (engineTurn_iff s).2 ⟨by simp [hL], hdelay⟩
    simp only [step, hturn, if_true, engineStep, hL, hi]
  · rw [step_of_hostTurn h, countHostStep_eq]

/-! ### The inverse cipher undoes the cipher (R239) -/

theorem AesState.mapColumns_mapColumns {f g : Column → Column} (h : ∀ c, g (f c) = c) (s : AesState) :
    (s.mapColumns f).mapColumns g = s := by
  simp [AesState.mapColumns, h]

/-- R235: the byte substitution and the row rotation of a round, and those of an inverse round, undo each other. -/
theorem invSubBytes_invShiftRows_cancel (s : AesState) :
    invSubBytes (invShiftRows (shiftRows (subBytes s))) = s
    ∧ shiftRows (subBytes (invSubBytes (invShiftRows s))) = s := by
  rw [(invShiftRows_shiftRows _).1, (invSubBytes_subBytes _).1, (invSubBytes_subBytes _).2,
    (invShiftRows_shiftRows _).2]
  exact ⟨rfl, rfl⟩

/-- R239: an inverse round undoes the round with the same key, up to the substitution and rotation that follow. -/
theorem aesInvRound_aesRound (k s : AesState) :
    aesInvRound k (shiftRows (subBytes (aesRound k s))) = shiftRows (subBytes s) := by
  simp only [aesInvRound, aesRound, (invSubBytes_invShiftRows_cancel _).1, addRoundKey_twice,
    AesState.mapColumns_mapColumns fun c => (invMixColumn_mixColumn c).1]

/-- R238: a round undoes the inverse round with the same key, up to the substitution and rotation before it. -/
theorem aesRound_aesInvRound (k s : AesState) :
    aesRound k (invSubBytes (invShiftRows (aesInvRound k s))) = invSubBytes (invShiftRows s) := by
  simp only [aesInvRound, aesRound, (invSubBytes_invShiftRows_cancel _).2,
    AesState.mapColumns_mapColumns fun c => (invMixColumn_mixColumn c).2, addRoundKey_twice]

/-- The inverse rounds, in the opposite order, undo the rounds. -/
theorem foldr_aesInvRound_foldl_aesRound (k : Nat → AesState) (js : List Nat) (s : AesState) :
    js.foldr (fun j st => aesInvRound (k j) st)
      (shiftRows (subBytes (js.foldl (fun st j => aesRound (k j) st) s))) = shiftRows (subBytes s) := by
  induction js generalizing s with
  | nil => rfl
  | cons j js ih => rw [List.foldr_cons, List.foldl_cons, ih, aesInvRound_aesRound]

/-- The rounds undo the inverse rounds in the opposite order. -/
theorem foldl_aesRound_foldr_aesInvRound (k : Nat → AesState) (js : List Nat) (s : AesState) :
    js.foldl (fun st j => aesRound (k j) st)
      (invSubBytes (invShiftRows (js.foldr (fun j st => aesInvRound (k j) st) s))) = invSubBytes (invShiftRows s) := by
  induction js generalizing s with
  | nil => rfl
  | cons j js ih => rw [List.foldr_cons, List.foldl_cons, aesRound_aesInvRound, ih]

/-- R239: under any words the inverse cipher and the cipher undo each other. -/
theorem invCipherState_cipherState (nr : Nat) (w : List Column) (s : AesState) :
    invCipherState nr w (cipherState nr w s) = s ∧ cipherState nr w (invCipherState nr w s) = s := by
  constructor
  · rw [invCipherState, cipherState, addRoundKey_twice, foldr_aesInvRound_foldl_aesRound (fun j => roundKey w (j + 1)),
      (invSubBytes_invShiftRows_cancel _).1, addRoundKey_twice]
  · rw [invCipherState, cipherState, addRoundKey_twice, foldl_aesRound_foldr_aesInvRound (fun j => roundKey w (j + 1)),
      (invSubBytes_invShiftRows_cancel _).2, addRoundKey_twice]

theorem aesDecrypt_aesEncrypt (ks : KeySize) (key : List Byte) {x : List Byte} (hx : x.length = 16) :
    aesDecrypt ks key (aesEncrypt ks key x) = x ∧ aesEncrypt ks key (aesDecrypt ks key x) = x := by
  simp only [aesDecrypt, aesEncrypt, loadState_storeState, invCipherState_cipherState, storeState_loadState hx,
    and_self]

/-! ### The words of the key schedule (R237) -/

/-- R237: byte `r` of word `i` of the key expansion. -/
def scheduleByte (ks : KeySize) (key : List Byte) (i r : Nat) : Byte :=
  ((expandKey ks key).getD i zeroColumn).row r

/-- R94: the key length and the round count. -/
theorem keySizes_eq_stated (ks : KeySize) : keyWords ks = statedNk ks ∧ roundCount ks = statedNr ks := by
  cases ks <;> exact ⟨rfl, rfl⟩

theorem keyWords_pos (ks : KeySize) : 0 < keyWords ks := by cases ks <;> decide

theorem loadColumn_row {input : List Byte} {c r : Nat} (hr : r < 4) (h : 4 * c + r < input.length) :
    input[4 * c + r]? = some ((loadColumn input c).row r) := by
  have hrow : (loadColumn input c).row r = input.getD (4 * c + r) 0 := by interval_cases r <;> rfl
  rw [hrow, List.getD_eq_getElem _ _ h, List.getElem?_eq_getElem h]

/-- R237: the first words are the key's own. -/
theorem expandKey_getD_of_lt (ks : KeySize) (key : List Byte) {i : Nat} (h : i < keyWords ks) :
    (expandKey ks key).getD i zeroColumn = loadColumn key i := by
  rw [expandKey, List.getD_eq_getElem?_getD, keyExtend_getElem? _ _ _ (by simpa)]
  simp [h]

theorem rotWord_row (t : Column) {r : Nat} (hr : r < 4) : (rotWord t).row r = t.row ((r + 1) % 4) := by
  interval_cases r <;> rfl

/-- R237: byte `r` of the schedule core of a word, with the round constants listed from the first. -/
theorem keyScheduleCore_row {nk i : Nat} (hnk : 0 < nk) (hi : nk ≤ i) (t : Column) {r : Nat} (hr : r < 4) :
    (keyScheduleCore nk i t).row r =
      if i % nk = 0 then
        sbox (t.row ((r + 1) % 4)) ^^^
          (if r = 0 then
            ([0x01, 0x02, 0x04, 0x08, 0x10, 0x20, 0x40, 0x80, 0x1b, 0x36] : List Byte).getD (i / nk - 1) 0
          else 0)
      else if nk = 8 ∧ i % nk = 4 then sbox (t.row r)
      else t.row r := by
  obtain ⟨q, hq⟩ : ∃ q, i / nk = q + 1 := Nat.exists_eq_succ_of_ne_zero (Nat.div_pos hi hnk).ne'
  unfold keyScheduleCore
  split
  · rw [Column.row_xor, subWord, Column.row_map, rotWord_row t hr, rcon, hq, Nat.add_sub_cancel, List.getD_cons_succ]
    congr 1
    interval_cases r <;> rfl
  · split
    · simp [subWord]
    · rfl

/-- R237: the model's key expansion is the stated one. -/
theorem aesStatedSchedule_scheduleByte {ks : KeySize} {key : List Byte} (hk : key.length = 4 * keyWords ks) :
    aesStatedSchedule ks key (scheduleByte ks key) := by
  have h256 : ks = .k256 ↔ keyWords ks = 8 := by cases ks <;> decide
  simp only [aesStatedSchedule, ← (keySizes_eq_stated ks).1, ← (keySizes_eq_stated ks).2]
  constructor
  · intro i r hi hr
    rw [scheduleByte, expandKey_getD_of_lt ks key hi]
    exact loadColumn_row hr (by omega)
  · intro i r hi hlt hr
    have hrec := keyExtend_recurrence (nk := keyWords ks) (n := 4 * (roundCount ks + 1) - keyWords ks)
      (w := ((List.range (keyWords ks)).map (loadColumn key)).reverse) (t := i) (keyWords_pos ks) (by simp) (by simpa)
      (by simp; omega)
    simp only [List.length_reverse, List.length_map, List.length_range] at hrec
    rw [scheduleByte, expandKey, hrec, Column.row_xor, keyScheduleCore_row (keyWords_pos ks) hi _ hr]
    simp only [h256]
    rfl

/-! ### The rounds on the bytes of the state (R238) -/

/-- R236: the two coefficients of MixColumns are products in GF(2^8). -/
theorem xtime_mul3_eq_gfMul (a : Byte) : xtime a = gfMul a 2 ∧ mul3 a = gfMul a 3 := by
  revert a
  decide +kernel

/-- R236: row `r` of MixColumns: 2, 3, 1, 1 from the diagonal on. -/
theorem mixColumn_row (a : Column) {r : Nat} (hr : r < 4) :
    (mixColumn a).row r =
      gfMul (a.row r) 2 ^^^ gfMul (a.row ((r + 1) % 4)) 3 ^^^ a.row ((r + 2) % 4) ^^^ a.row ((r + 3) % 4) := by
  simp only [← (xtime_mul3_eq_gfMul _).1, ← (xtime_mul3_eq_gfMul _).2]
  interval_cases r <;> simp only [mixColumn, Column.row] <;>
    simp only [BitVec.xor_assoc, BitVec.xor_comm, Byte.xor_left_comm]

theorem mapColumns_mixColumn_cell (s : AesState) {r : Nat} (hr : r < 4) (c : Nat) :
    (s.mapColumns mixColumn).cell r c =
      gfMul (s.cell r c) 2 ^^^ gfMul (s.cell ((r + 1) % 4) c) 3 ^^^ s.cell ((r + 2) % 4) c
        ^^^ s.cell ((r + 3) % 4) c := by
  rcases c with _ | _ | _ | _ <;> exact mixColumn_row _ hr

/-- R238: one middle round, byte by byte. -/
theorem aesRound_cell (k s : AesState) {r c : Nat} (hr : r < 4) (hc : c < 4) :
    (aesRound k s).cell r c =
      gfMul (sbox (s.cell r ((c + r) % 4))) 2
        ^^^ gfMul (sbox (s.cell ((r + 1) % 4) ((c + (r + 1) % 4) % 4))) 3
        ^^^ sbox (s.cell ((r + 2) % 4) ((c + (r + 2) % 4) % 4))
        ^^^ sbox (s.cell ((r + 3) % 4) ((c + (r + 3) % 4) % 4)) ^^^ k.cell r c := by
  have hm (n : Nat) : n % 4 < 4 := Nat.mod_lt n (by decide)
  simp only [aesRound, addRoundKey_cell _ _ hr hc, mapColumns_mixColumn_cell _ hr, shiftRows_subBytes_cell _ hr hc,
    shiftRows_subBytes_cell _ (hm _) hc]

/-- R238: the state after round `j`, under the words `w`. -/
def stateAfterRound (w : List Column) (s : AesState) (j : Nat) : AesState :=
  (List.range j).foldl (fun st i => aesRound (roundKey w (i + 1)) st) (addRoundKey (roundKey w 0) s)

theorem stateAfterRound_zero (w : List Column) (s : AesState) :
    stateAfterRound w s 0 = addRoundKey (roundKey w 0) s := rfl

theorem stateAfterRound_succ (w : List Column) (s : AesState) (j : Nat) :
    stateAfterRound w s (j + 1) = aesRound (roundKey w (j + 1)) (stateAfterRound w s j) := by
  simp only [stateAfterRound, List.range_succ, List.foldl_append, List.foldl_cons, List.foldl_nil]

/-- R238: the model's cipher is the stated one. -/
theorem aesStatedCipher_aesEncrypt (ks : KeySize) (key : List Byte) {x : List Byte} (hx : x.length = 16) :
    aesStatedCipher ks (scheduleByte ks key) x (aesEncrypt ks key x) := by
  simp only [aesStatedCipher, ← (keySizes_eq_stated ks).2]
  refine ⟨fun j r c => (stateAfterRound (expandKey ks key) (loadState x) j).cell r c, ?_, ?_, ?_⟩
  · intro r c hr hc
    refine ⟨_, loadState_cell hx hr hc, ?_⟩
    dsimp only
    rw [stateAfterRound_zero, addRoundKey_cell _ _ hr hc, roundKey_cell _ _ _ hc, Nat.mul_zero, Nat.zero_add]
    rfl
  · intro j r c _ hr hc
    dsimp only
    rw [stateAfterRound_succ, aesRound_cell _ _ hr hc, roundKey_cell _ _ _ hc]
    rfl
  · intro r c hr hc
    have hcell : (cipherState (roundCount ks) (expandKey ks key) (loadState x)).cell r c =
        sbox ((stateAfterRound (expandKey ks key) (loadState x) (roundCount ks - 1)).cell r ((c + r) % 4))
          ^^^ scheduleByte ks key (4 * roundCount ks + c) r := by
      rw [cipherState, addRoundKey_cell _ _ hr hc, roundKey_cell _ _ _ hc, shiftRows_subBytes_cell _ hr hc]
      rfl
    rw [aesEncrypt, storeState_getElem? _ hr hc, hcell]

/-- Settles O53: the words of the model's key expansion are the stated ones, and each round and inverse round with
the same words cancel. -/
theorem aesFollowsRoundsAndInverts : Obligations.AesFollowsRoundsAndInverts := by
  refine ⟨keySizes_eq_stated, fun ks key hk => ⟨⟨scheduleByte ks key, ?_, fun x => aesStatedCipher_aesEncrypt ks key⟩,
    fun x hx => ⟨aesEncrypt_length ks key x, aesDecrypt_aesEncrypt ks key hx⟩⟩⟩
  exact aesStatedSchedule_scheduleByte (by rw [hk, (keySizes_eq_stated ks).1])

end Sys2Proof.Machine

/-! The proofs of the statements about what the commands share: START and BUSY, writes while busy, completion, errors
and frames (family 40_command_common). -/

namespace Sys2Proof.Machine

/-! ### Completion (R120, R123) -/

/-- R123, R272, R276: every engine step that answers leaves the block idle with DONE set, and keeps IE, WBUSY and the
environment. -/
theorem engineStep_completes {s t : State} (h : engineStep s = .next t) :
    t.busy = false ∧ t.status.done = true ∧ t.irq = s.regs.ie ∧ t.status.wbusy = s.status.wbusy
    ∧ environmentSame s t := by
  obtain ⟨L, -, ⟨i, -, hi⟩ | ⟨c, -, rfl⟩⟩ := engineStep_cases h
  · obtain ⟨body, hb⟩ := exec_eq_runCommand i
    rw [hb] at hi
    obtain ⟨M, -, ⟨w, -, rfl⟩ | ⟨c, -, rfl⟩⟩ := runCommand_next hi
    · exact ⟨rfl, rfl, Bool.and_true _, rfl, rfl, rfl, rfl, rfl⟩
    · exact ⟨rfl, rfl, Bool.and_true _, rfl, rfl, rfl, rfl, rfl⟩
  · exact ⟨rfl, rfl, Bool.and_true _, rfl, rfl, rfl, rfl, rfl⟩

theorem step_of_engineTurn {s : State} (h : s.engineTurn = true) : step s = engineStep s := by
  rw [step, if_pos h]

/-- Settles O8: on the engine's turn the step is the engine's. -/
theorem engineStepCompletesCommand : Obligations.EngineStepCompletesCommand := by
  intro s t hturn h
  rw [step_of_engineTurn hturn] at h
  exact engineStep_completes h

/-! ### START and the writes while a command runs (R121, R122, R126) -/

/-- Settles O9: the write is an accepted START. -/
theorem acceptedStartLatchesOperands : Obligations.AcceptedStartLatchesOperands := by
  intro s v hr hl h0 h1
  exact ⟨_, busWrite_ctrl hr v, by rw [writeCtrl_start hl h0 h1]; exact ⟨rfl, rfl, rfl, rfl, rfl⟩⟩

/-- R45(b): a latched command is BUSY = 1. -/
theorem busy_of_latched {s : State} (h : s.latched ≠ none) : s.busy = true := Option.isSome_iff_ne_none.2 h

/-- R122: bit 0 of a CTRL write to a busy block is an ignored START. -/
theorem writeCtrl_start_busy {s : State} {v : Word} (hb : s.busy = true) (h0 : v.getLsbD 0 = true)
    (h1 : v.getLsbD 1 = false) : s.writeCtrl v = s.ignoreStart (v.getLsbD 2) := by
  simp only [State.writeCtrl, h0, h1, hb, if_true, Bool.false_eq_true, if_false]

/-- R126: a write to the register space of a busy block is dropped, but for CTRL and STATUS. -/
theorem hostWriteReg_busy {s : State} {off : Nat} (hb : s.busy = true) (hc : off ≠ 0x008) (hs : off ≠ 0x00C)
    (v : Word) : s.hostWriteReg off v = s.dropWrite := by
  unfold State.hostWriteReg
  split
  · next ho => exact absurd (Reg.offset_of_ofOffset ho).symm hc
  · next ho => exact absurd (Reg.offset_of_ofOffset ho).symm hs
  · exact if_pos hb
  · exact if_pos hb

/-- R126: so is a write to RAM. -/
theorem hostWriteRam_busy {s : State} (hb : s.busy = true) (a : Nat) (bs : List Byte) :
    s.hostWriteRam a bs = s.dropWrite := if_pos hb

/-- Settles O10, by the cases of a CTRL write. -/
theorem startWhileBusyIsIgnored : Obligations.StartWhileBusyIsIgnored := by
  intro s v hr hl
  rw [busWrite_ctrl hr]
  refine ⟨fun h0 h1 => ?_, fun h1 => ⟨s.softReset, ?_, rfl, rfl, rfl, rfl⟩⟩
  · rw [writeCtrl_start_busy (busy_of_latched hl) h0 h1]
    rfl
  · rw [writeCtrl_softReset h1]

/-- Settles O11: where a legal write goes, and that a busy block drops it there. -/
theorem writesWhileBusyAreDropped : Obligations.WritesWhileBusyAreDropped := by
  intro s w off v hr hl hlegal
  have hb := busy_of_latched hl
  rw [busWrite_of_legal hr hlegal]
  refine ⟨fun hc hs => ?_, ?_⟩
  · rw [hostWriteReg_busy hb hc hs, hostWriteRam_busy hb, ite_self]
    rfl
  · rintro rfl
    rfl

/-! ### What a host step leaves of a running command (R72, R120, R126) -/

/-- R120, R126: `t` keeps the command that runs in `s`, what it reads, and every register but IE. -/
def keepsCommand (s t : State) : Prop :=
  t.latched = s.latched ∧ t.ram = s.ram ∧ t.results = s.results ∧ { t.regs with ie := s.regs.ie } = s.regs
  ∧ t.engineDelay = s.engineDelay

/-- R300, R302: no command runs, and every register, flag and result has its reset value. -/
def isReset (t : State) : Prop :=
  t.latched = none ∧ t.regs = Regs.reset ∧ t.status = Status.reset ∧ t.results = Results.reset

/-- A bus write to a busy block keeps the running command or resets the block. -/
theorem WriteEffect.keeps_or_resets {s t : State} (h : WriteEffect s t) (hb : s.busy = true) :
    keepsCommand s t ∨ isReset t := by
  have hidle : s.busy ≠ false := by simp [hb]
  cases h with
  | none => exact .inl ⟨rfl, rfl, rfl, rfl, rfl⟩
  | softReset => exact .inr ⟨rfl, rfl, rfl, rfl⟩
  | ignoreStart ie _ => exact .inl ⟨rfl, rfl, rfl, rfl, rfl⟩
  | setIe ie => exact .inl ⟨rfl, rfl, rfl, rfl, rfl⟩
  | clearStatus v => exact .inl ⟨rfl, rfl, rfl, rfl, rfl⟩
  | drop _ => exact .inl ⟨rfl, rfl, rfl, rfl, rfl⟩
  | acceptStart ie h => exact absurd h hidle
  | writeReg r v h => exact absurd h hidle
  | storeRam a bs h _ => exact absurd h hidle

/-- A host step of a busy block keeps the running command or resets the block. -/
theorem HostEffect.keeps_or_resets {s t : State} (h : HostEffect s t) (hb : s.busy = true) :
    keepsCommand s t ∨ isReset t := by
  cases h with
  | idle => exact .inl ⟨rfl, rfl, rfl, rfl, rfl⟩
  | move i => exact .inl ⟨rfl, rfl, rfl, rfl, rfl⟩
  | read i x v => exact .inl ⟨rfl, rfl, rfl, rfl, rfl⟩
  | write i u hw _ => exact hw.keeps_or_resets hb
  | pin i level =>
    cases level with
    | true => exact .inr ⟨rfl, rfl, rfl, rfl⟩
    | false => exact .inl ⟨rfl, rfl, rfl, rfl, rfl⟩

/-- Settles O12: the host's step, with one host step of the delay used up, keeps the command or resets the block. -/
theorem runningCommandIsProtected : Obligations.RunningCommandIsProtected := by
  intro s t hl hturn h
  have hdelay : s.engineDelay ≠ 0 := fun h0 => by
    simp [(engineTurn_iff s).2 ⟨hl, h0⟩] at hturn
  obtain ⟨he, -⟩ | ⟨-, hh⟩ := step_cases h
  · simp [hturn] at he
  rw [countHostStep_eq, if_neg hl] at hh
  obtain ⟨hlatch, hram, hres, hregs, hd⟩ | hreset := hh.keeps_or_resets (busy_of_latched hl)
  · refine .inl ⟨hlatch, hram, hres, hregs, ?_⟩
    rw [hd]
    exact Nat.succ_pred hdelay
  · exact .inr hreset

/-! ### What makes the block busy or idle (R120, R123, R300, R302) -/

/-- R121, R302: how a write of `v` to CTRL changes whether a command is latched: a soft reset, or a START of an idle
block. -/
def ctrlChangesLatch (s t : State) (v : Word) : Prop :=
  (v.getLsbD 1 = true ∧ t.latched = none) ∨ (v.getLsbD 0 = true ∧ v.getLsbD 1 = false ∧ s.latched = none)

theorem writeCtrl_latched (s : State) (v : Word) :
    (s.writeCtrl v).latched = s.latched ∨ ctrlChangesLatch s (s.writeCtrl v) v := by
  cases h1 : v.getLsbD 1 with
  | true => exact .inr (.inl ⟨h1, by rw [writeCtrl_softReset h1]; rfl⟩)
  | false =>
    cases h0 : v.getLsbD 0 with
    | false => exact .inl (by rw [writeCtrl_ie h0 h1])
    | true =>
      cases hb : s.busy with
      | true => exact .inl (by rw [writeCtrl_start_busy hb h0 h1]; rfl)
      | false => exact .inr (.inr ⟨h0, h1, (State.not_busy_iff s).1 hb⟩)

/-- R24, R42: a write to the register space outside CTRL latches and drops no command. -/
theorem hostWriteReg_latched {s : State} {off : Nat} (hc : off ≠ 0x008) (v : Word) :
    (s.hostWriteReg off v).latched = s.latched := by
  unfold State.hostWriteReg
  split
  · next ho => exact absurd (Reg.offset_of_ofOffset ho).symm hc
  · rfl
  · split <;> rfl
  · split <;> rfl

theorem hostWriteRam_latched (s : State) (a : Nat) (bs : List Byte) : (s.hostWriteRam a bs).latched = s.latched := by
  unfold State.hostWriteRam
  split <;> rfl

/-- R62: a write that is served is legal. -/
theorem legalAt_of_busWrite {s t : State} {w : Width} {off : Nat} {v : Word} (h : s.busWrite w off v = .ok t) :
    w.legalAt off = true := by
  by_contra hl
  rw [Bool.not_eq_true] at hl
  unfold State.busWrite busTarget at h
  rw [hl] at h
  split at h
  · simp at h
  · next htgt => split at htgt <;> simp at htgt

/-- R62: the accesses that reach CTRL have 32 bits. -/
theorem width_of_legalAt_ctrl {w : Width} (h : w.legalAt 0x008 = true) : w = .w32 := by
  revert h
  cases w <;> decide

/-- Only a 32-bit write to CTRL, while `rst` is not asserted, can change whether a command is latched. -/
theorem busWrite_latched {s t : State} {w : Width} {off : Nat} {v : Word} (h : s.busWrite w off v = .ok t) :
    t.latched = s.latched ∨ (w = .w32 ∧ off = 0x008 ∧ s.rst = false ∧ ctrlChangesLatch s t v) := by
  have hl := legalAt_of_busWrite h
  cases hr : s.rst with
  | true => exact .inl (by rw [(busWrite_effect h).2 hr])
  | false =>
    rw [busWrite_of_legal hr hl, Except.ok.injEq] at h
    subst h
    by_cases hc : off = 0x008
    · subst hc
      exact (writeCtrl_latched s v).imp_right fun hchange => ⟨width_of_legalAt_ctrl hl, rfl, rfl, hchange⟩
    · split
      · exact .inl (hostWriteReg_latched hc v)
      · exact .inl (hostWriteRam_latched s _ _)

/-- The word a write statement puts on the bus (R101). -/
abbrev writtenWord (s : State) (e : HostExpr) : Word := BitVec.ofInt 32 (evalExpr s.host.vars e)

/-- R22, R101: a host step that changes whether a command is latched asserts `rst` or writes CTRL. -/
theorem hostStep_latched {s t : State} (h : hostStep s = .next t) :
    t.latched = s.latched
    ∨ (s.host.current = some (.pin true) ∧ t.latched = none)
    ∨ ∃ e, s.host.current = some (.write .w32 0x008 e) ∧ s.rst = false ∧ ctrlChangesLatch s t (writtenWord s e) := by
  unfold hostStep at h
  cases hc : s.host.current with
  | none => rw [hc] at h; simp only [Host.Outcome.next.injEq] at h; exact .inl (by rw [h])
  | some st =>
    simp only [hc] at h
    cases st with
    | write w off e =>
      simp only [runStmt, hostWrite] at h
      split at h
      · next u hu =>
        obtain rfl := Host.Outcome.next.inj h
        obtain hsame | ⟨rfl, rfl, hr, hchange⟩ := busWrite_latched hu
        · exact .inl hsame
        · exact .inr (.inr ⟨e, rfl, hr, hchange⟩)
      · simp at h
    | read w off x =>
      simp only [runStmt, hostRead] at h
      split at h
      · obtain rfl := Host.Outcome.next.inj h
        exact .inl rfl
      · simp at h
    | bnz e target => obtain rfl := Host.Outcome.next.inj h; exact .inl rfl
    | bz e target => obtain rfl := Host.Outcome.next.inj h; exact .inl rfl
    | halt => obtain rfl := Host.Outcome.next.inj h; exact .inl rfl
    | pin level =>
      obtain rfl := Host.Outcome.next.inj h
      cases level with
      | true => exact .inr (.inl ⟨rfl, rfl⟩)
      | false => exact .inl rfl

/-- The same for a step of the machine that is not the engine's. -/
theorem step_latched {s t : State} (hturn : s.engineTurn = false) (h : step s = .next t) :
    t.latched = s.latched
    ∨ (s.host.current = some (.pin true) ∧ t.latched = none)
    ∨ ∃ e, s.host.current = some (.write .w32 0x008 e) ∧ s.rst = false ∧ ctrlChangesLatch s t (writtenWord s e) := by
  rw [step, hturn, if_neg Bool.false_ne_true, countHostStep_eq] at h
  have hhost := hostStep_latched h
  exact hhost

/-- Settles O13, by what a step that is not the engine's can do to the latch. -/
theorem onlyStartMakesBusyOnlyEngineOrResetMakesIdle : Obligations.OnlyStartMakesBusyOnlyEngineOrResetMakesIdle := by
  intro s t h
  refine ⟨fun hidle hbusy => ?_, fun hbusy hidle => ?_⟩
  · rw [State.not_busy_iff] at hidle
    have ht : t.latched ≠ none := Option.isSome_iff_ne_none.1 hbusy
    have hturn : s.engineTurn = false := by simp [← Bool.not_eq_true, engineTurn_iff, hidle]
    obtain hsame | ⟨-, hn⟩ | ⟨e, hc, hr, ⟨-, hn⟩ | ⟨h0, h1, -⟩⟩ := step_latched hturn h
    · exact absurd (hsame.trans hidle) ht
    · exact absurd hn ht
    · exact absurd hn ht
    · exact ⟨e, hc, h0, h1, hr⟩
  · rw [State.not_busy_iff] at hidle
    have hs : s.latched ≠ none := Option.isSome_iff_ne_none.1 hbusy
    cases hturn : s.engineTurn with
    | true => exact .inl rfl
    | false =>
      obtain hsame | ⟨hc, -⟩ | ⟨e, hc, -, ⟨h1, -⟩ | ⟨-, -, hn⟩⟩ := step_latched hturn h
      · exact absurd (hsame.symm.trans hidle) hs
      · exact .inr (.inr hc)
      · exact .inr (.inl ⟨e, hc, h1⟩)
      · exact absurd hn hs

/-! ### A latched command finishes (R120, R312) -/

theorem core_step : Host.Core.step Sys2Proof.core = step := rfl

theorem run_succ {k : Nat} {s t : State} (h : step s = .next t) :
    Host.Core.run Sys2Proof.core (k + 1) s = Host.Core.run Sys2Proof.core k t := by
  simp only [Host.Core.run, core_step, h]

/-- A run that answers began with a step that answers. -/
theorem run_succ_eq_next {k : Nat} {s u : State} (h : Host.Core.run Sys2Proof.core (k + 1) s = .next u) :
    ∃ t, step s = .next t ∧ Host.Core.run Sys2Proof.core k t = .next u := by
  cases hs : step s with
  | next t => exact ⟨t, rfl, (run_succ hs).symm.trans h⟩
  | fault r => simp only [Host.Core.run, core_step, hs, reduceCtorEq] at h
  | refused r => simp only [Host.Core.run, core_step, hs, reduceCtorEq] at h

/-- R312: by induction on the host steps left before the engine step: each uses one up or resets the block. -/
theorem latched_finishes (n : Nat) {s u : State} (hn : s.engineDelay = n) (hl : s.latched ≠ none)
    (h : Host.Core.run Sys2Proof.core (n + 1) s = .next u) :
    ∃ k, k ≤ n + 1 ∧ ∃ t : State, Host.Core.run Sys2Proof.core k s = .next t ∧ t.busy = false := by
  induction n generalizing s with
  | zero =>
    obtain ⟨t, hstep, -⟩ := run_succ_eq_next h
    have hturn := (engineTurn_iff s).2 ⟨hl, hn⟩
    exact ⟨1, le_rfl, t, run_succ hstep, (engineStepCompletesCommand s t hturn hstep).1⟩
  | succ n ih =>
    obtain ⟨t, hstep, hrun⟩ := run_succ_eq_next h
    have hturn : s.engineTurn = false := by simp [← Bool.not_eq_true, engineTurn_iff, hn]
    obtain ⟨hlatch, -, -, -, hd⟩ | ⟨hidle, -⟩ := runningCommandIsProtected s t hl hturn hstep
    · obtain ⟨k, hk, v, hv, hbusy⟩ := ih (by omega) (hlatch ▸ hl) hrun
      exact ⟨k + 1, by omega, v, (run_succ hstep).trans hv, hbusy⟩
    · exact ⟨1, by omega, t, run_succ hstep, (State.not_busy_iff t).2 hidle⟩

/-- Settles O14, by induction on the delay. -/
theorem latchedCommandFinishes : Obligations.LatchedCommandFinishes :=
  fun s _ hb h => latched_finishes s.engineDelay rfl (Option.isSome_iff_ne_none.1 hb) h

/-! ### NOP, and the results of the Base32 commands (R135, R156, R160) -/

/-- Settles O40: NOP's only write is RES_LEN. -/
theorem nopOnlyCompletes : Obligations.NopOnlyCompletes := by
  intro s L hL
  exact ⟨_, runCommand_of_ok (otp := false) (body := nopBody) hL rfl, completedOk_complete s L _, rfl, rfl, rfl,
    rfl, rfl, rfl, rfl⟩

/-- R31, R33, R132: the completion of a command that writes an output of `bs` at its destination and nothing else. -/
theorem complete_writeDest (s : State) (L : Latch) (bs : List Byte) :
    let t := (s.consume L).complete (writeDest L bs)
    completedOk s t false ∧ t.ram.holds L.dstAddr.toNat bs ∧ ramSameOutside s t L.dstAddr.toNat bs.length
    ∧ t.results = { s.results with resLen := BitVec.ofNat 32 bs.length } ∧ t.regs = s.regs ∧ environmentSame s t :=
  ⟨completedOk_complete s L _, Memory.store_holds s.ram _ bs, fun _ hx => Memory.byteAt_store_outside s.ram hx, rfl,
    rfl, rfl, rfl, rfl, rfl⟩

/-- R156: B32ENC over a written source, with a destination in range and disjoint from it. -/
theorem b32encBody_of_holds {L : Latch} {v : EngineView} {bs : List Byte} (a : Alphabet)
    (h : operandHolds v.ram L.srcAddr L.srcLen bs)
    (hd : L.dstAddr.toNat + encodedLength L.srcLen.toNat ≤ Config.ramSize)
    (ho : disjointRanges L.srcAddr.toNat L.srcLen.toNat L.dstAddr.toNat (encodedLength L.srcLen.toNat)) :
    b32encBody a L v = .ok (writeDest L (b32encode a bs)) := by
  simp only [b32encBody, checkSource, checkRange_of_le h.2.1, checkRange_of_le hd,
    checkOverlap_of_not (overlaps_eq_false.2 ho), fetchSource_of_holds h, Except.bind_ok, Except.pure_eq_ok]

/-- R160: B32DEC over a written text that decodes to `out`: the checks of its destination are left. -/
theorem b32decBody_of_holds {L : Latch} {v : EngineView} {a : Alphabet} {text out : List Byte}
    (h : operandHolds v.ram L.srcAddr L.srcLen text) (hdec : b32decode a text = .ok out) :
    b32decBody a L v = (do
      checkRange L.dstAddr.toNat out.length
      checkOverlap L.srcAddr.toNat L.srcLen.toNat L.dstAddr.toNat out.length false
      return writeDest L out) := by
  simp only [b32decBody, checkSource, checkRange_of_le h.2.1, fetchSource_of_holds h, b32decodeCmd_eq_ok.2 hdec,
    Except.bind_ok]

/-- Settles O36: the run of `b32encBody` and its completion. -/
theorem b32EncWritesEncoding : Obligations.B32EncWritesEncoding := by
  intro s L a bs hL h hd ho
  have hlen : (b32encode a bs).length = 8 * ((L.srcLen.toNat + 4) / 5) := by rw [b32encode_length, h.1]; rfl
  have hdone := complete_writeDest s L (b32encode a bs)
  rw [hlen] at hdone
  exact ⟨_, runCommand_of_ok hL (b32encBody_of_holds a h hd ho), hdone⟩

/-- Settles O37: the run of `b32decBody` and its completion. -/
theorem b32DecWritesDecoding : Obligations.B32DecWritesDecoding := by
  intro s L a text out hL h hdec hd ho
  have hbody : b32decBody a L s.engineView = .ok (writeDest L out) := by
    rw [b32decBody_of_holds h hdec, checkRange_of_le hd, Except.bind_ok, checkOverlap_of_not (overlaps_eq_false.2 ho)]
    rfl
  exact ⟨_, runCommand_of_ok hL hbody, complete_writeDest s L out⟩

/-! ### The errors of the Base32 and AES commands (R156, R160, R242, R274) -/

/-- R129: an overlap that is not exactly in place, or not allowed to be. -/
theorem checkOverlap_of_overlap {a n b m : Nat} {inPlace : Bool} (h : ¬ disjointRanges a n b m)
    (hp : inPlace = true → a ≠ b) : checkOverlap a n b m inPlace = raise .overlap := by
  have hov : overlaps a n b m = true := by rwa [← overlaps_eq_false, Bool.not_eq_false] at h
  have hplace : (inPlace && a == b && n == m) = false := by
    cases inPlace with
    | false => rfl
    | true => simp [hp rfl]
  rw [checkOverlap, hov, hplace]
  rfl

/-- A sequence ends with the error its first part raises. -/
theorem raise_bind {α β : Type} (c : ErrCode) (f : α → Except Stop β) : (raise c >>= f) = raise c := rfl

/-- Settles O38: the run of each body up to the check that fails. -/
theorem base32CommandErrors : Obligations.Base32CommandErrors := by
  intro s L a hL n m
  refine ⟨fun hs => ⟨?_, ?_⟩, fun hs hd => ?_, fun hs hd ho => ?_, fun text h => ⟨fun c hdec => ?_, fun out hdec =>
    ⟨fun hd => ?_, fun hd ho => ?_⟩⟩⟩ <;> refine runCommand_completedErr hL ?_
  · rw [b32encBody, checkSource, checkRange_of_gt hs, raise_bind]
  · rw [b32decBody, checkSource, checkRange_of_gt hs, raise_bind]
  · have hd' : checkRange L.dstAddr.toNat (encodedLength L.srcLen.toNat) = raise .range := checkRange_of_gt hd
    rw [b32encBody, checkSource, checkRange_of_le hs, Except.bind_ok, hd', raise_bind]
  · have hd' : checkRange L.dstAddr.toNat (encodedLength L.srcLen.toNat) = .ok () := checkRange_of_le hd
    have ho' : checkOverlap L.srcAddr.toNat L.srcLen.toNat L.dstAddr.toNat (encodedLength L.srcLen.toNat) false
        = raise .overlap := checkOverlap_of_overlap ho (by simp)
    rw [b32encBody, checkSource, checkRange_of_le hs, Except.bind_ok, hd', Except.bind_ok, ho', raise_bind]
  · rw [b32decBody, checkSource, checkRange_of_le h.2.1, Except.bind_ok, fetchSource_of_holds h, Except.bind_ok,
      b32decodeCmd_of_error hdec, raise_bind]
  · rw [b32decBody_of_holds h hdec, checkRange_of_gt hd, raise_bind]
  · rw [b32decBody_of_holds h hdec, checkRange_of_le hd, Except.bind_ok, checkOverlap_of_overlap ho (by simp),
      raise_bind]

/-- R242: an error of the checks is the error of each of the four AES commands. -/
theorem aes_of_checksError {i : Instr} {s : State} {L : Latch} {c : ErrCode}
    (hi : ∃ ks, i = .aesEcbEnc ks ∨ i = .aesEcbDec ks ∨ i = .aesCbcEnc ks ∨ i = .aesCbcDec ks)
    (hL : s.latched = some L) (h : aesChecks L = raise c) : ∃ t, exec i s = .next t ∧ completedErr s t false c := by
  have hin : aesInput L s.engineView = raise c := by rw [aesInput, h, raise_bind]
  obtain ⟨ks, rfl | rfl | rfl | rfl⟩ := hi <;> refine runCommand_completedErr hL ?_
  · rw [aesEcbEncBody, hin, raise_bind]
  · rw [aesEcbDecBody, hin, raise_bind]
  · rw [aesCbcEncBody, hin, raise_bind]
  · rw [aesCbcDecBody, hin, raise_bind]

/-- Settles O58: the checks of R242 up to the one that fails. -/
theorem aesCommandErrors : Obligations.AesCommandErrors := by
  intro s L i hL hi n
  refine ⟨fun hlen => ?_, fun hlen hr => ?_, fun hlen hs hd hne ho => ?_⟩ <;> refine aes_of_checksError hi hL ?_
  · rw [aesChecks, if_pos hlen, raise_bind]
  · rw [aesChecks, if_neg (not_not.2 hlen), Except.bind_ok]
    by_cases hs : Config.ramSize < L.srcAddr.toNat + L.srcLen.toNat
    · rw [checkRange_of_gt hs, raise_bind]
    · have hd := hr.resolve_left hs
      rw [checkRange_of_le (Nat.le_of_not_lt hs), Except.bind_ok, checkRange_of_gt hd, raise_bind]
  · have hplace : L.srcAddr.toNat ≠ L.dstAddr.toNat := fun he => hne (BitVec.eq_of_toNat_eq he.symm)
    rw [aesChecks, if_neg (not_not.2 hlen), Except.bind_ok, checkRange_of_le hs, Except.bind_ok, checkRange_of_le hd,
      Except.bind_ok, checkOverlap_of_overlap ho fun _ => hplace, raise_bind]

/-! ### Which writes a command makes (R131, R132) -/

/-- R131: the operations that write DIGEST. -/
def writesDigest : Opcode → Bool
  | .sha1 => true
  | .hmac => true
  | .hotp => true
  | .totp => true
  | _ => false

/-- R131: the operations that write AES_IV, for at least one block (R247). -/
def writesIv : Opcode → Bool
  | .aesCbcEnc => true
  | .aesCbcDec => true
  | _ => false

/-- R132: the operations that write RAM. -/
def writesRam : Opcode → Bool
  | .b32enc => true
  | .b32dec => true
  | o => o.isAes

/-- R131, R132: the writes of a successful command are to the registers and the RAM of its operation, and to no
others. -/
structure Writes.OfOperation (w : Writes) (o : Opcode) (L : Latch) : Prop where
  digest : w.digest.isSome = writesDigest o
  otp : w.otp.isSome = o.isOtp
  cnt : w.cnt.isSome = decide (o = .totp)
  step0 : o ≠ .totp → w.step0 = false
  ram : w.ram.isSome = writesRam o
  resLen : writesRam o = false → w.resLen = 0
  iv : w.iv.isSome = (writesIv o && decide (L.srcLen ≠ 0))

/-- R247: a CBC command chains when it has a block. -/
theorem chainedIv_isSome {L : Latch} {cs : List (List Byte)} (h : 16 * cs.length = L.srcLen.toNat) :
    (chainedIv cs).isSome = decide (L.srcLen ≠ 0) := by
  have hempty : cs = [] ↔ L.srcLen = 0 := by
    rw [← List.length_eq_zero_iff, ← BitVec.toNat_inj]
    change cs.length = 0 ↔ L.srcLen.toNat = 0
    omega
  rw [chainedIv, Option.isSome_map, Bool.eq_iff_iff, List.getLast?_isSome, decide_eq_true_iff]
  exact not_congr hempty

/-- The writes of a command that stores an output, with a new AES_IV where it chains. -/
theorem writeDest_ofOperation {o : Opcode} {L : Latch} {iv : Option Words4} (bs : List Byte) (hram : writesRam o = true)
    (hiv : iv.isSome = (writesIv o && decide (L.srcLen ≠ 0))) :
    ({ writeDest L bs with iv := iv } : Writes).OfOperation o L := by
  have hno : writesDigest o = false ∧ o.isOtp = false ∧ o ≠ .totp := by
    revert hram
    cases o <;> decide
  obtain ⟨hdigest, hotp, htotp⟩ := hno
  exact ⟨hdigest.symm, hotp.symm, (decide_eq_false htotp).symm, fun _ => rfl, hram.symm, fun h => by simp [hram] at h,
    hiv⟩

/-- R123, R131: every command's step is the run of an `execute` whose successful writes are those of its operation. -/
theorem exec_eq_runCommand_ofOperation (i : Instr) :
    ∃ body : Latch → EngineView → Except Stop Writes,
      (∀ s, exec i s = runCommand i.opcode.isOtp body s) ∧ ∀ L v w, body L v = .ok w → w.OfOperation i.opcode L := by
  cases i with
  | nop =>
    refine ⟨nopBody, fun _ => rfl, fun L v w h => ?_⟩
    rw [nopBody_ok h]
    exact ⟨rfl, rfl, rfl, fun _ => rfl, rfl, fun _ => rfl, rfl⟩
  | b32enc a =>
    refine ⟨b32encBody a, fun _ => rfl, fun L v w h => ?_⟩
    obtain ⟨-, -, bs, -, rfl⟩ := b32encBody_ok h
    exact writeDest_ofOperation _ rfl rfl
  | b32dec a =>
    refine ⟨b32decBody a, fun _ => rfl, fun L v w h => ?_⟩
    obtain ⟨-, _, bs, -, -, -, rfl⟩ := b32decBody_ok h
    exact writeDest_ofOperation bs rfl rfl
  | sha1 =>
    refine ⟨sha1Body, fun _ => rfl, fun L v w h => ?_⟩
    obtain ⟨m, -, rfl⟩ := sha1Body_ok h
    exact ⟨rfl, rfl, rfl, fun _ => rfl, rfl, fun _ => rfl, rfl⟩
  | hmac k =>
    refine ⟨hmacBody k, fun _ => rfl, fun L v w h => ?_⟩
    obtain ⟨_, _, -, -, rfl⟩ := hmacBody_ok h
    exact ⟨rfl, rfl, rfl, fun _ => rfl, rfl, fun _ => rfl, rfl⟩
  | hotp k d =>
    refine ⟨hotpBody k d, fun _ => rfl, fun L v w h => ?_⟩
    obtain ⟨-, _, -, rfl⟩ := hotpBody_ok h
    exact ⟨rfl, rfl, rfl, fun _ => rfl, rfl, fun _ => rfl, rfl⟩
  | totp k d =>
    refine ⟨totpBody k d, fun _ => rfl, fun L v w h => ?_⟩
    obtain ⟨-, _, -, rfl⟩ := totpBody_ok h
    exact ⟨rfl, rfl, rfl, fun hne => absurd rfl hne, rfl, fun _ => rfl, rfl⟩
  | aesEcbEnc ks =>
    refine ⟨aesEcbEncBody ks, fun _ => rfl, fun L v w h => ?_⟩
    obtain ⟨p, -, rfl⟩ := aesEcbEncBody_ok h
    exact writeDest_ofOperation _ rfl rfl
  | aesEcbDec ks =>
    refine ⟨aesEcbDecBody ks, fun _ => rfl, fun L v w h => ?_⟩
    obtain ⟨c, -, rfl⟩ := aesEcbDecBody_ok h
    exact writeDest_ofOperation _ rfl rfl
  | aesCbcEnc ks =>
    refine ⟨aesCbcEncBody ks, fun _ => rfl, fun L v w h => ?_⟩
    obtain ⟨p, hp, rfl⟩ := aesCbcEncBody_ok h
    refine writeDest_ofOperation _ rfl (chainedIv_isSome ?_)
    rw [cbcEncrypt_count, aesInput_total_length hp]
  | aesCbcDec ks =>
    refine ⟨aesCbcDecBody ks, fun _ => rfl, fun L v w h => ?_⟩
    obtain ⟨c, hc, rfl⟩ := aesCbcDecBody_ok h
    exact writeDest_ofOperation _ rfl (chainedIv_isSome (aesInput_total_length hc))

/-! ### What the writes make of the registers, the results and RAM (R131) -/

theorem Memory.applyWrites_of_none (m : Memory) {w : Writes} (h : w.ram = none) : m.applyWrites w = m := by
  simp [Memory.applyWrites, h]

/-- Without a write of AES_IV no register changes but CNT. -/
theorem Regs.applyWrites_but_cnt (r : Regs) {w : Writes} (h : w.iv = none) :
    { r.applyWrites w with cntLo := r.cntLo, cntHi := r.cntHi } = r := by
  simp [Regs.applyWrites, h]

theorem Regs.applyWrites_of_none (r : Regs) {w : Writes} (hi : w.iv = none) (hc : w.cnt = none) :
    r.applyWrites w = r := by
  simp [Regs.applyWrites, hi, hc]

theorem Results.applyWrites_digest_of_none (r : Results) {w : Writes} (h : w.digest = none) :
    (r.applyWrites w).digest = r.digest := by
  simp [Results.applyWrites, h]

theorem Results.applyWrites_otp_of_none (r : Results) {w : Writes} (h : w.otp = none) :
    (r.applyWrites w).otpCode = r.otpCode ∧ (r.applyWrites w).otpLen = r.otpLen
    ∧ (r.applyWrites w).otpStr = r.otpStr := by
  simp [Results.applyWrites, h]

/-- A write of DIGEST leaves nothing of what it held. -/
theorem Results.applyWrites_digest_congr (r r' : Results) {w : Writes} (h : w.digest.isSome = true) :
    (r'.applyWrites w).digest = (r.applyWrites w).digest := by
  obtain ⟨d, hd⟩ := Option.isSome_iff_exists.1 h
  simp [Results.applyWrites, hd]

/-- A write of the OTP registers leaves nothing of what they held. -/
theorem Results.applyWrites_otp_congr (r r' : Results) {w : Writes} (h : w.otp.isSome = true) :
    (r'.applyWrites w).otpCode = (r.applyWrites w).otpCode ∧ (r'.applyWrites w).otpLen = (r.applyWrites w).otpLen
    ∧ (r'.applyWrites w).otpStr = (r.applyWrites w).otpStr := by
  obtain ⟨o, ho⟩ := Option.isSome_iff_exists.1 h
  simp [Results.applyWrites, ho]

/-- A write of CNT leaves nothing of what it held. -/
theorem Regs.applyWrites_cnt_congr (r r' : Regs) {w : Writes} (h : w.cnt.isSome = true) :
    (r'.applyWrites w).cntLo = (r.applyWrites w).cntLo ∧ (r'.applyWrites w).cntHi = (r.applyWrites w).cntHi := by
  obtain ⟨c, hc⟩ := Option.isSome_iff_exists.1 h
  simp [Regs.applyWrites, hc]

/-- A write of AES_IV leaves nothing of what it held. -/
theorem Regs.applyWrites_iv_congr (r r' : Regs) {w : Writes} (h : w.iv.isSome = true) :
    (r'.applyWrites w).aesIv = (r.applyWrites w).aesIv := by
  obtain ⟨iv, hiv⟩ := Option.isSome_iff_exists.1 h
  simp [Regs.applyWrites, hiv]

/-- R131, R132: an operation that stores no output does not chain. -/
theorem writesIv_of_not_writesRam {o : Opcode} (h : writesRam o = false) : writesIv o = false := by
  revert h
  cases o <;> decide

theorem opcode_eq_totp {i : Instr} (h : i.opcode = .totp) : ∃ k d, i = .totp k d := by
  cases i with
  | totp k d => exact ⟨k, d, rfl⟩
  | _ => simp [Instr.opcode] at h

/-- Settles O49: the writes of the operation on success, the error completion otherwise. -/
theorem hashCommandsStoreNothing : Obligations.HashCommandsStoreNothing := by
  intro i s t hi h
  have hnoRam : writesRam i.opcode = false := by
    obtain rfl | rfl | ⟨k, rfl⟩ | ⟨k, d, rfl⟩ | ⟨k, d, rfl⟩ := hi <;> rfl
  have hnotOtp : (i = .nop ∨ i = .sha1 ∨ ∃ k, i = .hmac k) → i.opcode.isOtp = false := by
    rintro (rfl | rfl | ⟨k, rfl⟩) <;> rfl
  obtain ⟨body, hb, hof⟩ := exec_eq_runCommand_ofOperation i
  rw [hb] at h
  obtain ⟨L, -, ⟨w, hw, rfl⟩ | ⟨c, -, rfl⟩⟩ := runCommand_next h
  · have hop := hof L _ w hw
    have hram : w.ram = none := by simpa [hnoRam] using hop.ram
    have hiv : w.iv = none := by simpa [writesIv_of_not_writesRam hnoRam] using hop.iv
    refine ⟨fun x => ?_, Regs.applyWrites_but_cnt _ hiv, fun hne => ?_, fun hnop => ?_, fun hno => ?_,
      hop.resLen hnoRam, rfl⟩
    · rw [State.complete_ram, Memory.applyWrites_of_none _ hram, State.consume_ram]
    · have hop' : i.opcode ≠ .totp := fun he => by
        obtain ⟨k, d, hkd⟩ := opcode_eq_totp he
        exact hne k d hkd
      have hcnt : w.cnt = none := by simpa [hop'] using hop.cnt
      exact ⟨Regs.applyWrites_of_none _ hiv hcnt, by simp [hop.step0 hop']⟩
    · subst hnop
      have hd : w.digest = none := by simpa [Instr.opcode, writesDigest] using hop.digest
      exact Results.applyWrites_digest_of_none _ hd
    · have ho : w.otp = none := by simpa [hnotOtp hno] using hop.otp
      exact Results.applyWrites_otp_of_none _ ho
  · refine ⟨fun _ => rfl, rfl, fun _ => ⟨rfl, rfl⟩, fun _ => Results.failed_digest _ _, fun hno => ?_,
      Results.failed_resLen _ _, rfl⟩
    rw [hnotOtp hno]
    exact ⟨rfl, rfl, rfl⟩

/-- Settles O15: `execute` sees the latch and RAM only, and each result it writes is written whole. -/
theorem outcomeDependsOnlyOnLatchAndRam : Obligations.OutcomeDependsOnlyOnLatchAndRam := by
  intro i s s' t L hL hlatch hram hpolicy hdraws h
  have hL' : s'.latched = some L := hlatch.trans hL
  have hview : s'.engineView = s.engineView := by simp only [State.engineView, hram, hpolicy, hdraws]
  have hotp : ((∃ k d, i = .hotp k d) ∨ ∃ k d, i = .totp k d) → i.opcode.isOtp = true := by
    rintro (⟨k, d, rfl⟩ | ⟨k, d, rfl⟩) <;> rfl
  obtain ⟨body, hb, hof⟩ := exec_eq_runCommand_ofOperation i
  rw [hb] at h
  obtain ⟨M, hM, hout⟩ := runCommand_next h
  obtain rfl : L = M := by simpa [hL] using hM
  rw [← hview] at hout
  obtain ⟨w, hw, rfl⟩ | ⟨c, hc, rfl⟩ := hout
  · have hop := hof L _ w hw
    have hsame : s'.ram.applyWrites w = s.ram.applyWrites w := by rw [hram]
    refine ⟨_, (hb s').trans (runCommand_of_ok hL' hw), hsame, rfl, rfl, rfl, rfl, rfl, ⟨w.step0, rfl, rfl⟩,
      fun hi => Results.applyWrites_otp_congr _ _ (hop.otp.trans (hotp hi)), fun _ => ⟨fun hi => ?_, fun hi => ?_,
        fun hi hlen => ?_⟩⟩
    · have hhash : writesDigest i.opcode = true := by
        obtain rfl | ⟨k, rfl⟩ | ⟨k, d, rfl⟩ | ⟨k, d, rfl⟩ := hi <;> rfl
      exact Results.applyWrites_digest_congr _ _ (hop.digest.trans hhash)
    · obtain ⟨k, d, rfl⟩ := hi
      exact Regs.applyWrites_cnt_congr _ _ hop.cnt
    · have hiv : writesIv i.opcode = true := by obtain ⟨ks, rfl | rfl⟩ := hi <;> rfl
      exact Regs.applyWrites_iv_congr _ _ (by rw [hop.iv, hiv, decide_eq_true hlen]; rfl)
  · refine ⟨_, (hb s').trans (runCommand_of_error hL' hc), hram, rfl, rfl, rfl, rfl, ?_,
      ⟨false, (Bool.or_false _).symm, (Bool.or_false _).symm⟩, fun hi => ?_, fun hok => by simp at hok⟩
    · simp
    · rw [hotp hi]
      exact ⟨rfl, rfl, rfl⟩

end Sys2Proof.Machine

/-! The proofs of the statements about the Base32 codec (family 41_base32). -/

namespace Sys2Proof.Machine

/-! ### Groups and bits (R151) -/

/-- R155: induction along the groups of the encoder: a last one of fewer than five bytes, a full one before the rest. -/
theorem groups_induction {P : List Byte → Prop} (last : ∀ b : List Byte, b.length < 5 → P b)
    (group : ∀ b0 b1 b2 b3 b4 rest, P rest → P (b0 :: b1 :: b2 :: b3 :: b4 :: rest)) : ∀ b, P b
  | [] => last _ (by simp)
  | [_] => last _ (by simp)
  | [_, _] => last _ (by simp)
  | [_, _, _] => last _ (by simp)
  | [_, _, _, _] => last _ (by simp)
  | b0 :: b1 :: b2 :: b3 :: b4 :: rest => group b0 b1 b2 b3 b4 rest (groups_induction last group rest)

theorem bitOf_append_left {p : List Byte} (b : List Byte) {i : Nat} (h : i < 8 * p.length) :
    bitOf (p ++ b) i = bitOf p i := by
  unfold bitOf; rw [List.getD_append _ _ _ _ (by omega)]

theorem bitOf_take {b : List Byte} {n i : Nat} (h : i < 8 * (b.take n).length) : bitOf (b.take n) i = bitOf b i := by
  conv_rhs => rw [← List.take_append_drop n b, bitOf_append_left _ h]

/-- R151: byte strings of one length are equal when their bits are. -/
theorem eq_of_bitOf_eq {b c : List Byte} (hl : b.length = c.length)
    (h : ∀ i, i < 8 * b.length → bitOf b i = bitOf c i) : b = c := by
  refine List.ext_getElem hl fun n hb hc => BitVec.eq_of_getLsbD_eq fun j hj => ?_
  have := h (8 * n + (7 - j)) (by omega)
  simpa only [bitOf, show (8 * n + (7 - j)) / 8 = n by omega, show 7 - (8 * n + (7 - j)) % 8 = j by omega,
    List.getD_eq_getElem _ _ hb, List.getD_eq_getElem _ _ hc] using this

/-! ### The symbol values of a byte string (R153, R154) -/

theorem symbolValue_lt (b : List Byte) (k : Nat) : symbolValue b k < 32 := by
  have h0 := (bitOf b (5 * k)).toNat_le
  have h1 := (bitOf b (5 * k + 1)).toNat_le
  have h2 := (bitOf b (5 * k + 2)).toNat_le
  have h3 := (bitOf b (5 * k + 3)).toNat_le
  have h4 := (bitOf b (5 * k + 4)).toNat_le
  unfold symbolValue; omega

/-- R151: the bits of a symbol value. -/
theorem symbolValue_testBit (b : List Byte) (k : Nat) {j : Nat} (hj : j < 5) :
    (symbolValue b k).testBit (4 - j) = bitOf b (5 * k + j) := by
  have bits : ∀ x0 x1 x2 x3 x4 : Bool, ∀ j : Fin 5,
      (16 * x0.toNat + 8 * x1.toNat + 4 * x2.toNat + 2 * x3.toNat + x4.toNat).testBit (4 - j)
        = [x0, x1, x2, x3, x4][j] := by decide
  have := bits (bitOf b (5 * k)) (bitOf b (5 * k + 1)) (bitOf b (5 * k + 2)) (bitOf b (5 * k + 3))
    (bitOf b (5 * k + 4)) ⟨j, hj⟩
  rw [symbolValue, this]
  interval_cases j <;> rfl

/-- R151: symbol value `k` of a byte string, as the byte the codec holds it in. -/
def symbolByte (b : List Byte) (k : Nat) : Byte := BitVec.ofNat 8 (symbolValue b k)

@[simp] theorem symbolByte_toNat (b : List Byte) (k : Nat) : (symbolByte b k).toNat = symbolValue b k :=
  Nat.mod_eq_of_lt (Nat.lt_trans (symbolValue_lt b k) (by decide))

/-- R153, R154: the values of the symbols that encode a byte string. -/
def symbolBytes (b : List Byte) : List Byte :=
  (List.range (8 * (b.length / 5) + symbolsOf (b.length % 5))).map (symbolByte b)

@[simp] theorem symbolBytes_length (b : List Byte) :
    (symbolBytes b).length = 8 * (b.length / 5) + symbolsOf (b.length % 5) := by simp [symbolBytes]

theorem symbolBytes_getElem? {b : List Byte} {k : Nat} {v : Byte} (h : (symbolBytes b)[k]? = some v) :
    v = symbolByte b k := by
  obtain ⟨hk, rfl⟩ := List.getElem?_eq_some_iff.1 h
  simp [symbolBytes]

theorem symbolBytes_lt {b : List Byte} {v : Byte} (h : v ∈ symbolBytes b) : v.toNat < 32 := by
  obtain ⟨k, -, rfl⟩ := List.mem_map.1 h
  rw [symbolByte_toNat]
  exact symbolValue_lt b k

/-- R154: the eight symbols of a group are the first eight symbol values of a byte string that begins with it. -/
theorem groupSymbols_eq_symbolBytes (b0 b1 b2 b3 b4 : Byte) (rest : List Byte) :
    groupSymbols b0 b1 b2 b3 b4 = (List.range 8).map (symbolByte (b0 :: b1 :: b2 :: b3 :: b4 :: rest)) := by
  refine List.ext_getElem (by simp) fun k hk _ => BitVec.eq_of_toNat_eq ?_
  rw [groupSymbols_value (List.getElem?_eq_getElem hk) rest]
  simp

/-- R153: a full group's symbols come before those of the rest. -/
theorem symbolBytes_group (b0 b1 b2 b3 b4 : Byte) (rest : List Byte) :
    symbolBytes (b0 :: b1 :: b2 :: b3 :: b4 :: rest) = groupSymbols b0 b1 b2 b3 b4 ++ symbolBytes rest := by
  have hlen : (b0 :: b1 :: b2 :: b3 :: b4 :: rest).length = rest.length + 5 := rfl
  have hshift (k : Nat) : symbolByte (b0 :: b1 :: b2 :: b3 :: b4 :: rest) (8 + k) = symbolByte rest k := by
    rw [Nat.add_comm]
    exact congrArg (BitVec.ofNat 8) (symbolValue_append (p := [b0, b1, b2, b3, b4]) rfl rest k)
  rw [symbolBytes, hlen, Nat.add_mod_right, show 8 * ((rest.length + 5) / 5) + symbolsOf (rest.length % 5)
    = 8 + (8 * (rest.length / 5) + symbolsOf (rest.length % 5)) by omega, List.range_add, List.map_append,
    ← groupSymbols_eq_symbolBytes, List.map_map, symbolBytes]
  exact congrArg _ (List.map_congr_left fun k _ => hshift k)

/-! ### What the encoder gives (R155) -/

/-- R155: the encoding of a last group of fewer than five bytes, filled with zeros to five. -/
theorem b32encode_last (a : Alphabet) {b : List Byte} (h : b.length < 5) :
    b32encode a b = ((groupSymbols (b.getD 0 0) (b.getD 1 0) (b.getD 2 0) (b.getD 3 0) 0).take
      (symbolsOf b.length)).map (encodeChar a) ++ List.replicate (padsOf b.length) padChar := by
  match b, h with
  | [], _ | [_], _ | [_, _], _ | [_, _, _], _ | [_, _, _, _], _ => rfl

theorem zeroFilled_eq {b : List Byte} (h : b.length < 5) :
    [b.getD 0 0, b.getD 1 0, b.getD 2 0, b.getD 3 0, 0] = b ++ List.replicate (5 - b.length) 0 := by
  match b, h with
  | [], _ | [_], _ | [_, _], _ | [_, _, _], _ | [_, _, _, _], _ => rfl

theorem symbolBytes_last {b : List Byte} (h : b.length < 5) :
    symbolBytes b
      = (groupSymbols (b.getD 0 0) (b.getD 1 0) (b.getD 2 0) (b.getD 3 0) 0).take (symbolsOf b.length) := by
  have hs : symbolsOf b.length ≤ 8 := by unfold symbolsOf; split_ifs <;> omega
  have hfill : symbolByte (b ++ List.replicate (5 - b.length) 0) = symbolByte b := by
    funext k; rw [symbolByte, symbolValue_zeros, symbolByte]
  rw [groupSymbols_eq_symbolBytes _ _ _ _ _ [], zeroFilled_eq h, hfill, ← List.map_take, List.take_range,
    Nat.min_eq_left hs, symbolBytes, Nat.div_eq_of_lt h, Nat.mod_eq_of_lt h, Nat.mul_zero, Nat.zero_add]

/-- R153, R155: an encoding is the characters of the symbol values, then the pads. -/
theorem b32encode_eq (a : Alphabet) (b : List Byte) :
    b32encode a b = (symbolBytes b).map (encodeChar a) ++ List.replicate (padsOf (b.length % 5)) padChar := by
  induction b using groups_induction with
  | last b h => rw [b32encode_last a h, symbolBytes_last h, Nat.mod_eq_of_lt h]
  | group b0 b1 b2 b3 b4 rest ih =>
    rw [b32encode, ih, symbolBytes_group, List.map_append, List.append_assoc]
    simp only [List.length_cons, Nat.add_mod_right, Nat.add_assoc, Nat.reduceAdd]

/-! ### What the decoder answers (R157, R158) -/

theorem padRunOk_iff {p : Nat} : padRunOk p = true ↔ p = 0 ∨ p = 1 ∨ p = 3 ∨ p = 4 ∨ p = 6 := by
  simp [padRunOk, or_assoc]

theorem remainderOk_iff {r : Nat} : remainderOk r = true ↔ r = 0 ∨ r = 2 ∨ r = 4 ∨ r = 5 ∨ r = 7 := by
  simp [remainderOk, or_assoc]

theorem dataChars_eq_of_isPadRun {t : List Byte} {p : Nat} (h : isPadRun t p) :
    dataChars t = t.take (t.length - p) := by rw [dataChars, padRun_eq_of_isPadRun h]

/-- R158(2): every character before the padding run is in the alphabet. -/
def dataInAlphabet (a : Alphabet) (t : List Byte) : Prop := ∀ c ∈ dataChars t, (decodeChar a c).toNat ≤ 31

theorem any_outside_iff {a : Alphabet} {t : List Byte} :
    (dataChars t).any (fun c => decide (31 < (decodeChar a c).toNat)) = true ↔ ¬ dataInAlphabet a t := by
  simp [dataInAlphabet]

section Checks
variable {a : Alphabet} {t : List Byte}

theorem b32decode_of_bad_pad (hp : ¬ padRunOk (padRun t) = true) : b32decode a t = .error .b32Pad := by
  simp [b32decode, hp]

variable (hp : padRunOk (padRun t) = true)
include hp

theorem b32decode_of_bad_char (hc : ¬ dataInAlphabet a t) : b32decode a t = .error .b32Char := by
  rw [b32decode, if_neg (by simp [hp]), if_pos (any_outside_iff.2 hc)]

theorem b32decode_of_bad_remainder (hc : dataInAlphabet a t) (hr : ¬ remainderOk ((dataChars t).length % 8) = true) :
    b32decode a t = .error .b32Rem := by
  rw [b32decode, if_neg (by simp [hp]), if_neg (any_outside_iff.not_left.2 hc), if_pos (by simpa using hr)]

theorem b32decode_of_checks (hc : dataInAlphabet a t) (hr : remainderOk ((dataChars t).length % 8) = true) :
    b32decode a t = .ok (decodeGroups ((dataChars t).map (decodeChar a))) := by
  rw [b32decode, if_neg (by simp [hp]), if_neg (any_outside_iff.not_left.2 hc), if_neg (by simp [hr])]

end Checks

/-! ### The bits the decoding loop gives (R159) -/

theorem getD_lt_32 {v : List Byte} (h : ∀ x ∈ v, x.toNat < 32) (k : Nat) : (v.getD k 0).toNat < 32 := by
  by_cases hk : k < v.length
  · rw [List.getD_eq_getElem _ _ hk]; exact h _ (List.getElem_mem hk)
  · rw [List.getD_eq_default _ _ (by omega)]; decide

/-- R159: the bits of a last group of symbol values, filled with zeros to eight. -/
theorem decodeFinal_bit {v : List Byte} (h : ∀ x ∈ v, x.toNat < 32) {i : Nat} (hi : i < 8 * (decodeFinal v).length) :
    bitOf (decodeFinal v) i = (v.getD (i / 5) 0).getLsbD (4 - i % 5) := by
  have h40 : i < 40 := by
    have : (decodeFinal v).length ≤ 5 := List.length_take_le' _ _
    omega
  rw [decodeFinal, bitOf_take hi, groupBytes_bit (by simp only [List.forall_mem_cons, getD_lt_32 h, List.not_mem_nil,
    false_implies, implies_true, and_self]) h40]
  have hk : i / 5 < 8 := by omega
  generalize i / 5 = k at hk
  interval_cases k <;> rfl

/-- R151, R159: bit `i` of a decode is bit `i mod 5`, most significant first, of symbol value `i div 5`. -/
theorem decodeGroups_bit {v : List Byte} (h : ∀ x ∈ v, x.toNat < 32) {i : Nat} (hi : i < 8 * (decodeGroups v).length) :
    bitOf (decodeGroups v) i = (v.getD (i / 5) 0).getLsbD (4 - i % 5) := by
  induction v using decodeGroups.induct generalizing i with
  | case1 v0 v1 v2 v3 v4 v5 v6 v7 rest ih =>
    have hgroup : ∀ x ∈ [v0, v1, v2, v3, v4, v5, v6, v7], x.toNat < 32 := fun x hx =>
      h x (List.mem_append_left rest hx)
    have hrest : ∀ x ∈ rest, x.toNat < 32 := fun x hx =>
      h x (List.mem_append_right [v0, v1, v2, v3, v4, v5, v6, v7] hx)
    rw [decodeGroups, List.length_append, groupBytes_length] at hi
    rw [decodeGroups]
    obtain h40 | h40 := Nat.lt_or_ge i 40
    · rw [bitOf_append_left _ h40, groupBytes_bit hgroup h40, ← List.getD_append _ rest _ _ (by simp; omega)]
      rfl
    · obtain ⟨j, rfl⟩ := Nat.exists_eq_add_of_le h40
      refine (bitOf_append _ _ j).trans ?_
      rw [ih hrest (by omega), show (40 + j) / 5 = j / 5 + 8 by omega, show (40 + j) % 5 = j % 5 by omega]
      rfl
  | case2 v hv =>
    rw [decodeGroups.eq_2 v hv] at hi ⊢
    exact decodeFinal_bit h hi

/-- R151, R159: the symbol that a bit of a decode comes from is one of those decoded. -/
theorem symbol_of_decoded_bit {v : List Byte} {i : Nat} (hi : i < 8 * (decodeGroups v).length) : i / 5 < v.length := by
  have hb : ∀ r, r < 8 → 8 * byteCount r ≤ 5 * r := by decide
  have := hb (v.length % 8) (Nat.mod_lt _ (by decide))
  rw [decodeGroups_length] at hi
  omega

/-! ### Decoding an encoding (R164) -/

/-- R153, R159: the symbol values of a byte string decode to as many bytes as it has. -/
theorem decodeGroups_symbolBytes_length (b : List Byte) : (decodeGroups (symbolBytes b)).length = b.length := by
  have hS : ∀ r, r < 5 → symbolsOf r < 8 ∧ byteCount (symbolsOf r) = r := by decide
  obtain ⟨hlt, hcount⟩ := hS (b.length % 5) (Nat.mod_lt _ (by decide))
  rw [decodeGroups_length, symbolBytes_length, Nat.mul_add_mod, Nat.mod_eq_of_lt hlt, hcount]
  omega

/-- R151, R164: the symbol values of a byte string decode to it: both have the same bits. -/
theorem decodeGroups_symbolBytes (b : List Byte) : decodeGroups (symbolBytes b) = b := by
  refine eq_of_bitOf_eq (decodeGroups_symbolBytes_length b) fun i hi => ?_
  have hk := symbol_of_decoded_bit hi
  rw [decodeGroups_bit (fun _ => symbolBytes_lt) hi, List.getD_eq_getElem _ _ hk,
    symbolBytes_getElem? (List.getElem?_eq_getElem hk), ← BitVec.testBit_toNat, symbolByte_toNat,
    symbolValue_testBit b _ (Nat.mod_lt _ (by decide)), Nat.div_add_mod]

/-- R157: the pads after characters that are no pads are the padding run. -/
theorem isPadRun_append_replicate {d : List Byte} (h : ∀ c ∈ d, c ≠ padChar) (p : Nat) :
    isPadRun (d ++ List.replicate p padChar) p := by
  have hlen : (d ++ List.replicate p padChar).length = d.length + p := by simp
  refine ⟨by omega, fun i h1 h2 => ?_, fun h1 => ?_⟩
  · rw [List.getElem?_append_right (by omega), List.getElem?_replicate, if_pos (by omega)]; rfl
  · rw [List.getElem?_append_left (by omega)]
    exact fun hc => h _ (List.mem_of_getElem? hc) rfl

/-- R153, R157: the padding run of an encoding is its pads. -/
theorem isPadRun_b32encode (a : Alphabet) (b : List Byte) : isPadRun (b32encode a b) (padsOf (b.length % 5)) := by
  rw [b32encode_eq]
  refine isPadRun_append_replicate (fun c hc => ?_) _
  obtain ⟨v, hv, rfl⟩ := List.mem_map.1 hc
  exact (decodeChar_encodeChar a v (symbolBytes_lt hv)).2

theorem dataChars_b32encode (a : Alphabet) (b : List Byte) :
    dataChars (b32encode a b) = (symbolBytes b).map (encodeChar a) := by
  rw [dataChars_eq_of_isPadRun (isPadRun_b32encode a b), b32encode_eq]
  exact List.take_left' (by simp)

/-- Settles O35: an encoding passes the three checks, and its symbol values decode to the bytes. -/
theorem base32RoundTrip : Obligations.Base32RoundTrip := by
  intro a b
  have hdec : ∀ v ∈ symbolBytes b, decodeChar a (encodeChar a v) = v := fun v hv =>
    (decodeChar_encodeChar a v (symbolBytes_lt hv)).1
  have hr : ∀ r, r < 5 → padRunOk (padsOf r) = true ∧ symbolsOf r < 8 ∧ remainderOk (symbolsOf r) = true := by decide
  obtain ⟨hp, hlt, hrem⟩ := hr (b.length % 5) (Nat.mod_lt _ (by decide))
  rw [← padRun_eq_of_isPadRun (isPadRun_b32encode a b)] at hp
  have hc : dataInAlphabet a (b32encode a b) := by
    intro c hc
    rw [dataChars_b32encode] at hc
    obtain ⟨v, hv, rfl⟩ := List.mem_map.1 hc
    rw [hdec v hv]
    exact Nat.le_of_lt_succ (symbolBytes_lt hv)
  have hmap : ((symbolBytes b).map (encodeChar a)).map (decodeChar a) = symbolBytes b := by
    rw [List.map_map]
    exact (List.map_congr_left hdec).trans (List.map_id _)
  rw [b32decode_of_checks hp hc, dataChars_b32encode, hmap, decodeGroups_symbolBytes]
  rw [dataChars_b32encode, List.length_map, symbolBytes_length, Nat.mul_add_mod, Nat.mod_eq_of_lt hlt, hrem]

/-! ### The characters of an encoding and the decode tables (R150, R152, R163) -/

/-- R152, R163: the decode tables are the stated ones. -/
theorem decodeChar_toNat (a : Alphabet) (c : Byte) : (decodeChar a c).toNat = statedSymbol a c.toNat := by
  revert c; cases a <;> decide +kernel

/-- R150: the characters of the standard alphabet: `A` to `Z`, `2` to `7`. -/
theorem encodeChar_std {v : Byte} (h : v.toNat < 32) :
    (0x41 ≤ (encodeChar .std v).toNat ∧ (encodeChar .std v).toNat ≤ 0x5A)
    ∨ (0x32 ≤ (encodeChar .std v).toNat ∧ (encodeChar .std v).toNat ≤ 0x37) := by
  revert v; decide +kernel

/-- R150: the characters of the extended-hex alphabet: `0` to `9`, `A` to `V`. -/
theorem encodeChar_hex {v : Byte} (h : v.toNat < 32) :
    (0x30 ≤ (encodeChar .hex v).toNat ∧ (encodeChar .hex v).toNat ≤ 0x39)
    ∨ (0x41 ≤ (encodeChar .hex v).toNat ∧ (encodeChar .hex v).toNat ≤ 0x56) := by
  revert v; decide +kernel

/-- Settles O33: symbol `k` is the character of symbol value `k`, and its decoding is that value. -/
theorem encodingHasStatedSymbolsAndPads : Obligations.EncodingHasStatedSymbolsAndPads := by
  intro a b
  refine ⟨⟨(symbolBytes b).map (encodeChar a), b32encode_eq a b, by simp, fun k c hc => ?_⟩, b32encode_length a b⟩
  obtain ⟨v, hv, rfl⟩ := Option.map_eq_some_iff.1 (List.getElem?_map .. ▸ hc)
  have hlt := symbolBytes_lt (List.mem_of_getElem? hv)
  refine ⟨?_, ?_, ?_⟩
  · rw [← decodeChar_toNat, (decodeChar_encodeChar a v hlt).1, symbolBytes_getElem? hv, symbolByte_toNat]
  · rintro rfl; exact encodeChar_std hlt
  · rintro rfl; exact encodeChar_hex hlt

/-! ### The checks over a stated padding run (R157, R158) -/

/-- R158(2): `dataInAlphabet` in terms of positions before a stated padding run. -/
theorem dataInAlphabet_iff {a : Alphabet} {t : List Byte} {p : Nat} (h : isPadRun t p) :
    dataInAlphabet a t ↔ ∀ i c, i < t.length - p → t[i]? = some c → (decodeChar a c).toNat ≤ 31 := by
  simp only [dataInAlphabet, dataChars_eq_of_isPadRun h, List.mem_iff_getElem?, List.getElem?_take]
  constructor
  · intro hall i c hi hc
    exact hall c ⟨i, by rw [if_pos hi, hc]⟩
  · rintro hall c ⟨i, hi⟩
    split at hi
    · next hlt => exact hall i c hlt hi
    · simp at hi

theorem dataChars_length {t : List Byte} {p : Nat} (h : isPadRun t p) : (dataChars t).length = t.length - p := by
  rw [dataChars_eq_of_isPadRun h, List.length_take]
  omega

/-- R159: B(R) for the remainder of a text. -/
theorem byteCount_of_lt {r : Nat} (h : r < 8) :
    byteCount r = if r = 2 then 1 else if r = 4 then 2 else if r = 5 then 3 else if r = 7 then 4 else 0 := by
  revert r; decide

/-- R151, R159: each bit of a decode of `t`, from the character it comes from. -/
theorem decoded_bit {a : Alphabet} {t : List Byte} (hc : dataInAlphabet a t) {i : Nat}
    (hi : i < 8 * (decodeGroups ((dataChars t).map (decodeChar a))).length) :
    ∃ c, (dataChars t)[i / 5]? = some c
      ∧ bitOf (decodeGroups ((dataChars t).map (decodeChar a))) i = (decodeChar a c).getLsbD (4 - i % 5) := by
  have hk : i / 5 < (dataChars t).length := by simpa using symbol_of_decoded_bit hi
  have h32 : ∀ v ∈ (dataChars t).map (decodeChar a), v.toNat < 32 := by
    intro v hv
    obtain ⟨c, hmem, rfl⟩ := List.mem_map.1 hv
    exact Nat.lt_succ_of_le (hc c hmem)
  refine ⟨_, List.getElem?_eq_getElem hk, ?_⟩
  rw [decodeGroups_bit h32 hi, List.getD_eq_getElem _ _ (by simpa using hk), List.getElem_map]

/-- Settles O34: the branches of `b32decode`, and the bits of its decoding loop. -/
theorem decodeChecksInOrder : Obligations.DecodeChecksInOrder := by
  refine ⟨decodeChar_toNat, fun a t p h => ?_⟩
  intro padOk charsOk q remOk
  have hpad : padRunOk (padRun t) = true ↔ padOk := by rw [padRun_eq_of_isPadRun h, padRunOk_iff]
  have hchars : dataInAlphabet a t ↔ charsOk := dataInAlphabet_iff h
  have hrem : remainderOk ((dataChars t).length % 8) = true ↔ remOk := by rw [dataChars_length h, remainderOk_iff]
  rw [← hpad, ← hchars, ← hrem]
  refine ⟨b32decode_of_bad_pad, b32decode_of_bad_char, b32decode_of_bad_remainder, fun hp hc hr =>
    ⟨_, b32decode_of_checks hp hc hr, ?_, fun i hi => ?_⟩⟩
  · rw [decodeGroups_length, List.length_map, dataChars_length h, byteCount_of_lt (Nat.mod_lt _ (by decide))]
  · obtain ⟨c, hchar, hbit⟩ := decoded_bit hc hi
    have hk : i / 5 < q := (List.getElem?_eq_some_iff.1 hchar).1.trans_eq (dataChars_length h)
    rw [dataChars_eq_of_isPadRun h, List.getElem?_take, if_pos hk] at hchar
    exact ⟨c, hchar, hk, hbit⟩

end Sys2Proof.Machine

/-! The proofs of the statements about SHA-1, HMAC and one-time passwords (family 42_sha_hmac_otp). -/

namespace Sys2Proof.Machine

/-! ### Big-endian encodings (R10) -/

/-- R10: the byte of weight `256^k` of a value, where it lies inside a word of `n` bits. -/
theorem ofNat_div_eq_extractLsb' (v : Nat) {n k : Nat} (h : 8 * k + 8 ≤ n) :
    BitVec.ofNat 8 (v / 256 ^ k) = (BitVec.ofNat n v).extractLsb' (8 * k) 8 := by
  refine BitVec.eq_of_getLsbD_eq fun i hi => ?_
  have hpow : 256 ^ k = 2 ^ (8 * k) := (pow_mul 2 8 k).symm
  simp only [hpow, BitVec.getLsbD_ofNat, BitVec.getLsbD_extractLsb', Nat.testBit_div_two_pow, hi,
    show 8 * k + i < n by omega, decide_true, Bool.true_and, Nat.add_comm i]

theorem beBytes_four (v : Nat) : beBytes 4 v = bigEndian4 (BitVec.ofNat 32 v) := by
  have hbyte (k : Nat) (hk : 8 * k + 8 ≤ 32) := ofNat_div_eq_extractLsb' v hk
  change [BitVec.ofNat 8 (v / 256 ^ 3), BitVec.ofNat 8 (v / 256 ^ 2), BitVec.ofNat 8 (v / 256 ^ 1),
    BitVec.ofNat 8 (v / 256 ^ 0)] = _
  rw [hbyte 3 (by decide), hbyte 2 (by decide), hbyte 1 (by decide), hbyte 0 (by decide)]
  rfl

/-- R10: be_8 is be_4 of the two halves. -/
theorem beBytes_eight (v : Nat) : beBytes 8 v = bigEndian8 (BitVec.ofNat 64 v) := by
  have hhigh : (BitVec.ofNat 64 v).extractLsb' 32 32 = BitVec.ofNat 32 (v / 256 ^ 4) := by
    refine BitVec.eq_of_toNat_eq ?_
    simp only [BitVec.extractLsb'_toNat, BitVec.toNat_ofNat, Nat.shiftRight_eq_div_pow]
    omega
  have hlow : (BitVec.ofNat 64 v).extractLsb' 0 32 = BitVec.ofNat 32 v := by
    refine BitVec.eq_of_toNat_eq ?_
    simp only [BitVec.extractLsb'_toNat, BitVec.toNat_ofNat, Nat.shiftRight_eq_div_pow]
    omega
  rw [bigEndian8, hhigh, hlow, ← beBytes_four, ← beBytes_four]
  simp [beBytes, List.range_succ, Nat.div_div_eq_div_mul]

/-- A positional expansion, most significant place first: its last place stands for the value itself, the places before
it for the quotient by the base. -/
theorem map_range_div_pow_succ (f : Nat → Byte) (base n v : Nat) :
    (List.range (n + 1)).map (fun i => f (v / base ^ (n + 1 - 1 - i)))
      = (List.range n).map (fun i => f (v / base / base ^ (n - 1 - i))) ++ [f v] := by
  simp only [List.range_succ, List.map_append, List.map_cons, List.map_nil, Nat.add_sub_cancel, Nat.sub_self, pow_zero,
    Nat.div_one]
  congr 1
  refine List.map_congr_left fun i hi => ?_
  have hexp : n - 1 - i + 1 = n - i := by have := List.mem_range.1 hi; omega
  rw [Nat.div_div_eq_div_mul, ← pow_succ', hexp]

theorem beBytes_succ (n v : Nat) : beBytes (n + 1) v = beBytes n (v / 256) ++ [BitVec.ofNat 8 v] :=
  map_range_div_pow_succ (BitVec.ofNat 8) 256 n v

theorem beVal_concat (b : List Byte) (c : Byte) : beVal (b ++ [c]) = 256 * beVal b + c.toNat := by
  simp only [beVal, List.foldl_append, List.foldl_cons, List.foldl_nil]

/-- R10: the big-endian encoding of the value of a byte string is the string. -/
theorem beBytes_beVal (b : List Byte) : beBytes b.length (beVal b) = b := by
  induction b using List.reverseRecOn with
  | nil => rfl
  | append_singleton b c ih =>
    have hc := c.isLt
    have hlast : BitVec.ofNat 8 (256 * beVal b + c.toNat) = c := by
      refine BitVec.eq_of_toNat_eq ?_
      rw [BitVec.toNat_ofNat]
      omega
    rw [List.length_append, List.length_singleton, beBytes_succ, beVal_concat, hlast,
      show (256 * beVal b + c.toNat) / 256 = beVal b by omega, ih]

theorem bigEndian4_beVal {b : List Byte} (h : b.length = 4) : bigEndian4 (BitVec.ofNat 32 (beVal b)) = b := by
  rw [← beBytes_four, ← h, beBytes_beVal]

/-! ### The padded message (R181) -/

theorem sha1Pad_length (m : List Byte) : (sha1Pad m).length = m.length + 1 + sha1ZeroPad m.length + 8 := by
  simp only [sha1Pad, List.length_append, List.length_singleton, List.length_replicate, beBytes_length]

/-- R181: the padding has the least number of zeros that fills the last block. -/
theorem sha1ZeroPad_least (n : Nat) :
    (n + 1 + sha1ZeroPad n + 8) % 64 = 0 ∧ ∀ y, y < sha1ZeroPad n → (n + 1 + y + 8) % 64 ≠ 0 := by
  unfold sha1ZeroPad
  exact ⟨by omega, fun y hy => by omega⟩

/-! ### The message schedule (R184) -/

/-- R184: the recurrence of the message schedule, on its words newest first. -/
def followsSchedule (w : List Word) : Prop :=
  ∀ i, i + 16 < w.length → w.getD i 0 =
    rotl32 (w.getD (i + 3) 0 ^^^ w.getD (i + 8) 0 ^^^ w.getD (i + 14) 0 ^^^ w.getD (i + 16) 0) 1

/-- Extending a schedule keeps its words and follows the recurrence. -/
theorem sha1Extend_spec (n : Nat) {w : List Word} (h : followsSchedule w) :
    followsSchedule (sha1Extend n w) ∧ (sha1Extend n w).length = n + w.length ∧ w <:+ sha1Extend n w := by
  induction n generalizing w with
  | zero => exact ⟨h, (Nat.zero_add _).symm, List.suffix_rfl⟩
  | succ n ih =>
    obtain ⟨hfollows, hlen, hsuffix⟩ := ih (w :=
      rotl32 (w.getD 2 0 ^^^ w.getD 7 0 ^^^ w.getD 13 0 ^^^ w.getD 15 0) 1 :: w) fun i hi => by
        cases i with
        | zero => rfl
        | succ i => exact h i (by rw [List.length_cons] at hi; omega)
    exact ⟨hfollows, by rw [sha1Extend, hlen, List.length_cons]; omega, (List.suffix_cons _ _).trans hsuffix⟩

section Schedule
variable {block : List Word} (hb : block.length = 16)
include hb

theorem sha1Extend_block : followsSchedule (sha1Extend 64 block.reverse)
    ∧ (sha1Extend 64 block.reverse).length = 80 ∧ block.reverse <:+ sha1Extend 64 block.reverse := by
  have hlen : block.reverse.length = 16 := by rw [List.length_reverse, hb]
  have hspec := sha1Extend_spec 64 (w := block.reverse) fun i hi => by omega
  rwa [hlen] at hspec

theorem sha1Schedule_length : (sha1Schedule block).length = 80 := by
  rw [sha1Schedule, List.length_reverse, (sha1Extend_block hb).2.1]

/-- R184: the first sixteen words are the block's. -/
theorem sha1Schedule_getD_of_lt {j : Nat} (hj : j < 16) : (sha1Schedule block).getD j 0 = block.getD j 0 := by
  obtain ⟨newer, hnewer⟩ := (sha1Extend_block hb).2.2
  rw [sha1Schedule, ← hnewer, List.reverse_append, List.reverse_reverse, List.getD_append _ _ _ _ (by omega)]

/-- R184: every later word is the rotated exclusive-or of four words before it. -/
theorem sha1Schedule_recurrence {t : Nat} (h16 : 16 ≤ t) (h80 : t < 80) :
    let W := fun i => (sha1Schedule block).getD i 0
    W t = rotl32 (W (t - 3) ^^^ W (t - 8) ^^^ W (t - 14) ^^^ W (t - 16)) 1 := by
  obtain ⟨hfollows, hlen, -⟩ := sha1Extend_block hb
  have hrev (i : Nat) (hi : i < 80) :
      (sha1Schedule block).getD i 0 = (sha1Extend 64 block.reverse).getD (79 - i) 0 := by
    rw [sha1Schedule, List.getD_eq_getElem?_getD, List.getElem?_reverse (by omega), hlen,
      List.getD_eq_getElem?_getD]
  have hstep := hfollows (79 - t) (by omega)
  rw [show 79 - t + 3 = 79 - (t - 3) by omega, show 79 - t + 8 = 79 - (t - 8) by omega,
    show 79 - t + 14 = 79 - (t - 14) by omega, show 79 - t + 16 = 79 - (t - 16) by omega] at hstep
  dsimp only
  rw [hrev t h80, hrev (t - 3) (by omega), hrev (t - 8) (by omega), hrev (t - 14) (by omega),
    hrev (t - 16) (by omega), hstep]

end Schedule

/-! ### The rounds and the blocks (R183, R184, R185) -/

/-- R183, R184: the model's round is the stated one. -/
theorem sha1StatedRound_sha1Round (t : Nat) (w : Word) (x : HashState) : sha1StatedRound t w x (sha1Round x t w) := by
  have hle (n : Nat) : (t ≤ n) = (t < n + 1) := propext Nat.lt_succ_iff.symm
  simp only [sha1StatedRound, hle]
  exact ⟨rfl, rfl, rfl, rfl, rfl⟩

/-- R184: the rounds of a list of schedule words end with the round of its last word. -/
theorem sha1Rounds_concat (h : HashState) (t : Nat) (ws : List Word) (w : Word) :
    sha1Rounds h t (ws ++ [w]) = sha1Round (sha1Rounds h t ws) (t + ws.length) w := by
  induction ws generalizing h t with
  | nil => rfl
  | cons v ws ih =>
    rw [List.cons_append, sha1Rounds, ih, sha1Rounds, List.length_cons, Nat.add_assoc, Nat.add_comm 1]

/-- R184: round `t` takes the working variables after `t` rounds to those after `t + 1`. -/
theorem sha1Rounds_take_succ (h : HashState) {ws : List Word} {t : Nat} (ht : t < ws.length) :
    sha1Rounds h 0 (ws.take (t + 1)) = sha1Round (sha1Rounds h 0 (ws.take t)) t (ws.getD t 0) := by
  rw [← List.take_append_getElem ht, sha1Rounds_concat, List.length_take_of_le ht.le, Nat.zero_add,
    List.getD_eq_getElem _ _ ht]

/-- R184: the compression of a block, given the sixteen words that its bytes encode. -/
theorem sha1StatedBlock_sha1Block {bytes : List Byte} {block : List Word} (hb : block.length = 16)
    (hw : ∀ j, j < 16 → bigEndian4 (block.getD j 0) = (bytes.drop (4 * j)).take 4) (h : HashState) :
    sha1StatedBlock bytes h (sha1Block h block) := by
  have hlen := sha1Schedule_length hb
  refine ⟨fun t => (sha1Schedule block).getD t 0, fun t => sha1Rounds h 0 ((sha1Schedule block).take t),
    fun j hj => ?_, fun t => sha1Schedule_recurrence hb, rfl, fun t ht => ?_, ?_⟩
  · rw [← hw j hj, ← sha1Schedule_getD_of_lt hb hj]
  · dsimp only
    rw [sha1Rounds_take_succ h (by omega)]
    exact sha1StatedRound_sha1Round t _ _
  · dsimp only
    rw [List.take_of_length_le hlen.le, sha1Block]

/-- R181: word `j` of block `i` of a message encodes its four bytes there. -/
theorem bigEndian4_sha1BlockWords {p : List Byte} {i j : Nat} (hi : i < p.length / 64) (hj : j < 16) :
    bigEndian4 ((sha1BlockWords p i).getD j 0) = (((p.drop (64 * i)).take 64).drop (4 * j)).take 4 := by
  have hword : (sha1BlockWords p i).getD j 0 = BitVec.ofNat 32 (beVal (slice p (64 * i + 4 * j) 4)) := by
    simp [sha1BlockWords, hj]
  rw [hword, bigEndian4_beVal (by simp [slice]; omega), slice, List.drop_take, List.drop_drop, List.take_take,
    Nat.min_eq_left (by omega)]

/-- R182, R184: the hash value after the first `i` blocks of a padded message. -/
def hashAfterBlocks (p : List Byte) (i : Nat) : HashState :=
  (List.range i).foldl (fun h j => sha1Block h (sha1BlockWords p j)) sha1Init

theorem hashAfterBlocks_succ (p : List Byte) (i : Nat) :
    hashAfterBlocks p (i + 1) = sha1Block (hashAfterBlocks p i) (sha1BlockWords p i) := by
  simp only [hashAfterBlocks, List.range_succ, List.foldl_append, List.foldl_cons, List.foldl_nil]

/-- R185: the digest is the big-endian encoding of the five words. -/
theorem digest_eq_bigEndian4 (h : HashState) :
    h.digest = bigEndian4 h.a ++ bigEndian4 h.b ++ bigEndian4 h.c ++ bigEndian4 h.d ++ bigEndian4 h.e := by
  simp only [HashState.digest, beBytes_four, BitVec.ofNat_toNat, BitVec.setWidth_eq]

/-- Settles O39: the padding, and block by block the model's compression. -/
theorem sha1PadsAndCompresses : Obligations.Sha1PadsAndCompresses := by
  intro m
  obtain ⟨hfull, hleast⟩ := sha1ZeroPad_least m.length
  refine ⟨⟨sha1ZeroPad m.length, by rw [sha1Pad, beBytes_eight], by rwa [sha1Pad_length], hleast⟩,
    hashAfterBlocks (sha1Pad m), rfl, fun i hi => ?_, ?_⟩
  · rw [hashAfterBlocks_succ]
    exact sha1StatedBlock_sha1Block (by simp [sha1BlockWords]) (fun j => bigEndian4_sha1BlockWords hi) _
  · rw [← digest_eq_bigEndian4]
    rfl

/-! ### Truncation and the decimal string (R196, R198) -/

/-- R196: the truncated value from the five bytes it depends on. -/
theorem dynamicTruncate_eq (d : List Byte) :
    let o := (d.getD 19 0 &&& 0x0F).toNat
    dynamicTruncate d = (d.getD o 0).toNat % 128 * 2 ^ 24 + (d.getD (o + 1) 0).toNat * 2 ^ 16
      + (d.getD (o + 2) 0).toNat * 2 ^ 8 + (d.getD (o + 3) 0).toNat := by
  intro o
  have htop (b : Byte) : (b &&& 0x7F).toNat = b.toNat % 128 := by
    rw [BitVec.toNat_and]; exact Nat.and_two_pow_sub_one_eq_mod b.toNat 7
  simp only [dynamicTruncate, beVal, List.foldl_cons, List.foldl_nil, htop, o]
  omega

/-- R196: the offset is at most 15, so the four bytes from it on lie in a 20-byte digest. -/
theorem truncationOffset_le (b : Byte) : (b &&& 0x0F).toNat ≤ 15 := by
  rw [BitVec.toNat_and]; exact Nat.and_le_right

/-- R198: the last digit stands for the remainder by 10, the digits before it for the quotient. -/
theorem decimalString_succ (code D : Nat) :
    decimalString code (D + 1) = decimalString (code / 10) D ++ [BitVec.ofNat 8 (0x30 + code % 10)] :=
  map_range_div_pow_succ (fun v => BitVec.ofNat 8 (0x30 + v % 10)) 10 D code

theorem decimalValue_concat (s : List Byte) (c : Byte) :
    decimalValue (s ++ [c]) = 10 * decimalValue s + (c.toNat - 0x30) := by
  simp only [decimalValue, List.foldl_append, List.foldl_cons, List.foldl_nil]

theorem digit_toNat {v : Nat} (h : v < 10) : (BitVec.ofNat 8 (0x30 + v)).toNat = 0x30 + v := by
  rw [BitVec.toNat_ofNat, Nat.mod_eq_of_lt (by omega)]

/-- R198: the string of a code spells it. -/
theorem decimalValue_decimalString {code D : Nat} (h : code < 10 ^ D) : decimalValue (decimalString code D) = code := by
  induction D generalizing code with
  | zero =>
    obtain rfl : code = 0 := Nat.lt_one_iff.1 h
    rfl
  | succ D ih =>
    rw [decimalString_succ, decimalValue_concat, ih (by rw [pow_succ] at h; omega),
      digit_toNat (Nat.mod_lt _ (by decide))]
    omega

/-- R198: every character of a code's string is a decimal digit. -/
theorem decimalString_digits {code D : Nat} {c : Byte} (h : c ∈ decimalString code D) :
    0x30 ≤ c.toNat ∧ c.toNat ≤ 0x39 := by
  obtain ⟨i, -, rfl⟩ := List.mem_map.1 h
  have hlt : code / 10 ^ (D - 1 - i) % 10 < 10 := Nat.mod_lt _ (by decide)
  rw [digit_toNat hlt]
  omega

/-- Settles O46: the nested hashes, the counter's bytes, the bytes of the truncation, and the digits. -/
theorem otpCodeFormat : Obligations.OtpCodeFormat := by
  refine ⟨hmacSha1_eq, fun c => ?_, fun d hd => ?_, fun code D h =>
    ⟨decimalString_length code D, decimalValue_decimalString h, fun c => decimalString_digits⟩⟩
  · rw [beBytes_eight, BitVec.ofNat_toNat, BitVec.setWidth_eq]
  · have hget (i : Nat) (hi : i < 20) : d[i]? = some (d.getD i 0) := by
      rw [List.getElem?_eq_getElem (by omega), List.getD_eq_getElem]
    have ho := truncationOffset_le (d.getD 19 0)
    exact ⟨_, _, _, _, _, hget 19 (by decide), hget _ (by omega), hget _ (by omega), hget _ (by omega),
      hget _ (by omega), dynamicTruncate_eq d, dynamicTruncate_lt d⟩

/-! ### TOTP (R205 to R211) -/

/-- R205, R206: the counter of TOTP, a STEP of 0 counting as 1. -/
def windowNumber (L : Latch) : Nat := L.time.toNat / max L.step.toNat 1

theorem totpCounter_eq (time step : Nat) : totpCounter time step = time / max step 1 := by
  unfold totpCounter
  split
  · next h => rw [Nat.max_eq_left h]
  · next h => rw [Nat.max_eq_right (by omega)]

/-- R34, R36: the counter fits CNT. -/
theorem windowNumber_toNat (L : Latch) : (BitVec.ofNat 64 (windowNumber L)).toNat = windowNumber L := by
  rw [BitVec.toNat_ofNat]
  exact Nat.mod_eq_of_lt ((Nat.div_le_self _ _).trans_lt L.time.isLt)

/-- R208: the writes of a successful TOTP with the key bytes `k`. -/
def totpWrites (L : Latch) (k : List Byte) (d : BitVec 4) : Writes :=
  { otpWrites k (windowNumber L) (digitCount d) with
    cnt := some (BitVec.ofNat 64 (windowNumber L)), step0 := L.step == 0 }

/-- R208: TOTP with a key operand that yields `k` and a legal DIGITS. -/
theorem totpBody_of_key {L : Latch} {v : EngineView} {key : KeyForm} {k : List Byte} {d : BitVec 4}
    (hk : keyOperandIs v.ram L key k) (hd : d.toNat ≤ 10) : totpBody key d L v = .ok (totpWrites L k d) := by
  simp only [totpBody, checkDigits_of_le hd, keyBytes_of_operand hk, Except.bind_ok, Except.pure_eq_ok,
    totpCounter_eq]
  rfl

/-- R36, R210: TOTP's writes leave its counter in CNT. -/
theorem applyWrites_totpWrites_cnt (r : Regs) (L : Latch) (k : List Byte) (d : BitVec 4) :
    let t := r.applyWrites (totpWrites L k d)
    t.cntHi ++ t.cntLo = BitVec.ofNat 64 (windowNumber L) :=
  BitVec.extractLsb'_append_extractLsb'

/-- R36: the value of CNT from its two registers. -/
theorem toNat_cntHi_append_cntLo (hi lo : Word) : (hi ++ lo).toNat = hi.toNat * 2 ^ 32 + lo.toNat := by
  rw [BitVec.toNat_append, ← Nat.shiftLeft_add_eq_or_of_lt lo.isLt, Nat.shiftLeft_eq]

/-- Settles O44: the run of `totpBody`, and the result registers and CNT after its writes. -/
theorem totpWritesCodeAndCounter : Obligations.TotpWritesCodeAndCounter := by
  intro s L key d k hL hk hd D C digest code
  have hcnt := congrArg BitVec.toNat (applyWrites_totpWrites_cnt s.regs L k d)
  rw [toNat_cntHi_append_cntLo, windowNumber_toNat] at hcnt
  obtain ⟨hdigest, hcode, hlen, hstr, hres⟩ := applyWrites_otpWrites s.results k (windowNumber L) (digitCount_le hd)
    (some (BitVec.ofNat 64 (windowNumber L))) (L.step == 0)
  exact ⟨_, runCommand_of_ok hL (totpBody_of_key hk hd), completedOk_complete s L _, hdigest, hcode, hlen, hstr, hres,
    hcnt, rfl, rfl, rfl, rfl, rfl, rfl⟩

/-- R205, R211: TOTP reads TIME only through the number of its window. -/
theorem totpBody_congr_time {L : Latch} {time : DWord} (key : KeyForm) (d : BitVec 4) (v : EngineView)
    (h : windowNumber { L with time := time } = windowNumber L) :
    totpBody key d { L with time := time } v = totpBody key d L v := by
  have hcounter : totpCounter time.toNat L.step.toNat = totpCounter L.time.toNat L.step.toNat := by
    rw [totpCounter_eq, totpCounter_eq]
    exact h
  simp only [totpBody, hcounter]
  rfl

/-- Settles O47: both TIME values give the same `execute`, and its completion drops the latch. -/
theorem totpIsConstantInWindow : Obligations.TotpIsConstantInWindow := by
  intro s t L key d time hL h hwindow
  obtain ⟨M, hM, hout⟩ := runCommand_next h
  obtain rfl : L = M := by simpa [hL] using hM
  have hbody := totpBody_congr_time key d s.engineView hwindow
  have hlatched : ({ s with latched := some { L with time := time } } : State).latched
      = some { L with time := time } := rfl
  rcases hout with ⟨w, hw, rfl⟩ | ⟨c, hc, rfl⟩
  · have hrun := runCommand_of_ok (otp := true) (body := totpBody key d) hlatched (hbody.trans hw)
    exact hrun
  · have hrun := runCommand_of_error (otp := true) (body := totpBody key d) hlatched (hbody.trans hc)
    exact hrun

/-- R208, R210: a TOTP that ends without an error made its writes. -/
theorem exec_totp_of_no_error {s t : State} {L : Latch} {key : KeyForm} {d : BitVec 4} {k : List Byte}
    (hL : s.latched = some L) (hk : keyOperandIs s.ram L key k) (h : exec (.totp key d) s = .next t)
    (herr : t.status.err = false) : d.toNat ≤ 10 ∧ t = (s.consume L).complete (totpWrites L k d) := by
  obtain ⟨M, hM, hout⟩ := runCommand_next h
  obtain rfl : L = M := by simpa [hL] using hM
  rcases hout with ⟨w, hw, rfl⟩ | ⟨c, -, rfl⟩
  · obtain ⟨hd, -⟩ := totpBody_ok hw
    rw [totpBody_of_key hk hd, Except.ok.injEq] at hw
    exact ⟨hd, by rw [hw]⟩
  · simp at herr

/-- Settles O48: HOTP makes the OTP writes of TOTP for the counter that TOTP wrote to CNT. -/
theorem hotpReproducesTotp : Obligations.HotpReproducesTotp := by
  intro s t u L M key d k hL hk h herr hM hcnt hku
  obtain ⟨hd, rfl⟩ := exec_totp_of_no_error hL hk h herr
  have hC := congrArg BitVec.toNat (applyWrites_totpWrites_cnt s.regs L k d)
  rw [windowNumber_toNat] at hC
  have hM' : M.cnt.toNat = windowNumber L := (congrArg BitVec.toNat hcnt).trans hC
  have hbody := hotpBody_of_key (v := u.engineView) hku hd
  rw [hM'] at hbody
  exact ⟨hC, _, runCommand_of_ok hM hbody, rfl, rfl, rfl, rfl, rfl⟩

end Sys2Proof.Machine

/-! The proofs of the statements about AES: the tables, CBC, and the four commands (family 43_aes). -/

namespace Sys2Proof.Machine

/-! ### Multiplication in GF(2^8) (R233, R234, R236) -/

/-- R233: the inverse of the affine map of the S-box. -/
def sboxAffineInverse (b : Byte) : Byte :=
  b.rotateLeft 1 ^^^ b.rotateLeft 3 ^^^ b.rotateLeft 6 ^^^ 0x05

theorem sboxAffine_sboxAffineInverse (b : Byte) : sboxAffine (sboxAffineInverse b) = b := by
  revert b
  decide +kernel

/-- R233: what the affine map takes to `SBOX[x]` is the inverse of `x` in GF(2^8). -/
theorem gfMul_sboxAffineInverse_sbox (x : Byte) : gfMul x (sboxAffineInverse (sbox x)) = if x = 0 then 0 else 1 := by
  revert x
  decide +kernel

theorem sboxAffineInverse_sbox_zero : sboxAffineInverse (sbox 0) = 0 := by decide

/-- R234: ISBOX undoes SBOX on a byte, read off the byte substitution of a state that holds it. -/
theorem invSbox_sbox (x : Byte) : invSbox (sbox x) = x :=
  congrArg (fun s : AesState => s.c0.r0)
    (invSubBytes_subBytes ⟨⟨x, x, x, x⟩, ⟨x, x, x, x⟩, ⟨x, x, x, x⟩, ⟨x, x, x, x⟩⟩).1

/-- Settles O51: the inverse of `x` is what the affine map takes to `SBOX[x]`. -/
theorem sboxIsAffineOfInverse : Obligations.SboxIsAffineOfInverse := by
  intro x
  refine ⟨invSbox_sbox x, sboxAffineInverse (sbox x), gfMul_sboxAffineInverse_sbox x, ?_,
    (sboxAffine_sboxAffineInverse _).symm⟩
  rintro rfl
  exact sboxAffineInverse_sbox_zero

/-- R236: the coefficients of InvMixColumns are products in GF(2^8). -/
theorem invMixColumn_coefficients_eq_gfMul (a : Byte) :
    mul9 a = gfMul a 9 ∧ mul11 a = gfMul a 11 ∧ mul13 a = gfMul a 13 ∧ mul14 a = gfMul a 14 := by
  revert a
  decide +kernel

/-- Settles O52: the two coefficients of MixColumns and the four of InvMixColumns. -/
theorem columnCoefficientsAreFieldProducts : Obligations.ColumnCoefficientsAreFieldProducts := by
  intro a
  obtain ⟨h2, h3⟩ := xtime_mul3_eq_gfMul a
  exact ⟨h2, h3, invMixColumn_coefficients_eq_gfMul a⟩

/-! ### CBC (R246, R247) -/

theorem xorBytes_xorBytes_right {x y : List Byte} (h : x.length = y.length) : xorBytes (xorBytes x y) y = x := by
  refine List.ext_getElem (by simp [h]) fun i _ _ => ?_
  simp [xorBytes]

/-- R246: by induction on the blocks, each chained to the ciphertext block before it. -/
theorem cbcDecrypt_cbcEncrypt (ks : KeySize) (key : List Byte) {iv : List Byte} {ps : List (List Byte)}
    (hiv : iv.length = 16) (hps : ∀ p ∈ ps, p.length = 16) :
    cbcDecrypt ks key iv (cbcEncrypt ks key iv ps) = ps := by
  induction ps generalizing iv with
  | nil => rfl
  | cons p ps ih =>
    obtain ⟨hp, hps⟩ := List.forall_mem_cons.1 hps
    have hblock : (xorBytes p iv).length = 16 := by simp [hp, hiv]
    rw [cbcEncrypt, cbcDecrypt, (aesDecrypt_aesEncrypt ks key hblock).1, xorBytes_xorBytes_right (hp.trans hiv.symm),
      ih (aesEncrypt_length ks key _) hps]

/-- Settles O54: block by block, the decryption undoes the cipher and the chaining. -/
theorem cbcDecryptInvertsEncrypt : Obligations.CbcDecryptInvertsEncrypt :=
  fun ks key _ _ hiv hps => cbcDecrypt_cbcEncrypt ks key hiv hps

/-- R246: the block before the next one. -/
theorem cipherBefore_cons_succ (iv c : List Byte) (cs : List (List Byte)) (i : Nat) :
    cipherBefore iv (c :: cs) (i + 1) = cipherBefore c cs i := by
  cases i <;> rfl

/-- R246: the model's CBC encryption is the stated one, by induction on the blocks. -/
theorem cbcStatedEncrypt_cbcEncrypt (ks : KeySize) (key iv : List Byte) (ps : List (List Byte)) :
    cbcStatedEncrypt ks key iv ps (cbcEncrypt ks key iv ps) := by
  refine ⟨cbcEncrypt_count ks key iv ps, fun i p hp => ?_⟩
  induction ps generalizing iv i with
  | nil => simp at hp
  | cons q ps ih =>
    cases i with
    | zero =>
      obtain rfl : q = p := Option.some.inj hp
      rfl
    | succ i =>
      rw [cbcEncrypt, List.getElem?_cons_succ, cipherBefore_cons_succ]
      exact ih _ i hp

/-- R246: the model's CBC decryption is the stated one. -/
theorem cbcStatedDecrypt_cbcDecrypt (ks : KeySize) (key iv : List Byte) (cs : List (List Byte)) :
    cbcStatedDecrypt ks key iv cs (cbcDecrypt ks key iv cs) := by
  refine ⟨cbcDecrypt_count ks key iv cs, fun i c hc => ?_⟩
  induction cs generalizing iv i with
  | nil => simp at hc
  | cons q cs ih =>
    cases i with
    | zero =>
      obtain rfl : q = c := Option.some.inj hc
      rfl
    | succ i =>
      rw [cbcDecrypt, List.getElem?_cons_succ, cipherBefore_cons_succ]
      exact ih _ i hc

/-- R247: AES_IV after the ciphertext blocks `cs`, from what it held. -/
def ivAfter (iv : Words4) (cs : List (List Byte)) : Words4 := (chainedIv cs).getD iv

/-- R247: AES_IV holds the last ciphertext block, or what it held. -/
theorem ivAfter_bytes (iv : Words4) {cs : List (List Byte)} (h : ∀ c ∈ cs, c.length = 16) :
    (ivAfter iv cs).bytes = cs.getLast?.getD iv.bytes := by
  rw [ivAfter, chainedIv]
  cases hlast : cs.getLast? with
  | none => rfl
  | some c => exact Words4.bytes_ofBytes (h c (List.mem_of_getLast? hlast))

/-- R247: AES_IV after a message in two parts. -/
theorem ivAfter_append (iv : Words4) (cs ds : List (List Byte)) :
    ivAfter iv (cs ++ ds) = ivAfter (ivAfter iv cs) ds := by
  simp only [ivAfter, chainedIv, List.getLast?_append]
  cases ds.getLast? <;> rfl

/-- R246, R247: CBC encryption of a message in two parts, the second from the AES_IV that the first leaves. -/
theorem cbcEncrypt_append_ivAfter (ks : KeySize) (key : List Byte) (iv : Words4) (ps qs : List (List Byte)) :
    cbcEncrypt ks key iv.bytes (ps ++ qs) = cbcEncrypt ks key iv.bytes ps
      ++ cbcEncrypt ks key (ivAfter iv (cbcEncrypt ks key iv.bytes ps)).bytes qs := by
  rw [cbcEncrypt_append, ivAfter_bytes iv (cbcEncrypt_block_length ks key iv.bytes ps)]

/-! ### The commands on operands that pass the checks (R240 to R247) -/

/-- R121, R242: a command is latched whose source reads as `bs` and whose operands pass the checks of the AES
commands. -/
structure AesReady (s : State) (L : Latch) (bs : List Byte) : Prop where
  latched : s.latched = some L
  source : operandHolds s.ram L.srcAddr L.srcLen bs
  whole : L.srcLen.toNat % 16 = 0
  dest : L.dstAddr.toNat + L.srcLen.toNat ≤ Config.ramSize
  place : L.dstAddr = L.srcAddr ∨ disjointRanges L.srcAddr.toNat L.srcLen.toNat L.dstAddr.toNat L.srcLen.toNat

/-- R242: the blocks of a source. -/
abbrev sourceBlocks (L : Latch) (bs : List Byte) : List (List Byte) := blocks16 bs (L.srcLen.toNat / 16)

/-- R244: the ciphertext blocks of AES_CBC_ENC over the source `bs`. -/
def cbcCiphertext (ks : KeySize) (L : Latch) (bs : List Byte) : List (List Byte) :=
  cbcEncrypt ks (aesKeyBytes L ks) L.iv.bytes (sourceBlocks L bs)

theorem cbcReady.aesReady {s : State} {L : Latch} {bs : List Byte} (h : cbcReady s L bs) : AesReady s L bs := by
  obtain ⟨hL, -, hs, h16, hd, ho⟩ := h
  exact ⟨hL, hs, h16, hd, ho.imp_right .inr⟩

section Ready
variable {s : State} {L : Latch} {bs : List Byte} (h : AesReady s L bs)
include h

theorem AesReady.source_length : bs.length = 16 * (L.srcLen.toNat / 16) := by
  have hlen := h.source.1
  have h16 := h.whole
  omega

theorem AesReady.blocks : (sourceBlocks L bs).flatten = bs ∧ ∀ b ∈ sourceBlocks L bs, b.length = 16 :=
  ⟨blocks16_flatten h.source_length, blocks16_block_length h.source_length⟩

/-- R243: as many whole blocks as the source has fill a range of SRC_LEN bytes. -/
theorem AesReady.sixteen_mul_blocks : 16 * (sourceBlocks L bs).length = L.srcLen.toNat := by
  rw [blocks16_count, ← h.source_length, h.source.1]

theorem AesReady.input : aesInput L s.engineView = .ok (sourceBlocks L bs) :=
  aesInput_of_holds h.source (aesChecks_of h.whole h.source.2.1 h.dest h.place)

/-- R240: the run of AES_ECB_ENC. -/
theorem AesReady.exec_ecbEnc (ks : KeySize) : exec (.aesEcbEnc ks) s = .next ((s.consume L).complete
    (writeDest L (ecbEncrypt ks (aesKeyBytes L ks) (sourceBlocks L bs)).flatten)) :=
  runCommand_of_ok h.latched (by rw [aesEcbEncBody, h.input]; rfl)

/-- R241: the run of AES_ECB_DEC. -/
theorem AesReady.exec_ecbDec (ks : KeySize) : exec (.aesEcbDec ks) s = .next ((s.consume L).complete
    (writeDest L (ecbDecrypt ks (aesKeyBytes L ks) (sourceBlocks L bs)).flatten)) :=
  runCommand_of_ok h.latched (by rw [aesEcbDecBody, h.input]; rfl)

/-- R244: the run of AES_CBC_ENC. -/
theorem AesReady.exec_cbcEnc (ks : KeySize) : exec (.aesCbcEnc ks) s = .next ((s.consume L).complete
    { writeDest L (cbcCiphertext ks L bs).flatten with iv := chainedIv (cbcCiphertext ks L bs) }) :=
  runCommand_of_ok h.latched (by rw [aesCbcEncBody, h.input]; rfl)

theorem AesReady.cbcCiphertext_length (ks : KeySize) : (cbcCiphertext ks L bs).flatten.length = L.srcLen.toNat := by
  rw [cbcCiphertext, cbcEncrypt_flatten_length, h.sixteen_mul_blocks]

/-- R245: the run of AES_CBC_DEC. -/
theorem AesReady.exec_cbcDec (ks : KeySize) : exec (.aesCbcDec ks) s = .next ((s.consume L).complete
    { writeDest L (cbcDecrypt ks (aesKeyBytes L ks) L.iv.bytes (sourceBlocks L bs)).flatten with
      iv := chainedIv (sourceBlocks L bs) }) :=
  runCommand_of_ok h.latched (by rw [aesCbcDecBody, h.input]; rfl)

end Ready

/-- R33, R132: the completion of a command that writes as many bytes as its source has and no register. -/
theorem complete_writeDest_srcLen (s : State) (L : Latch) {out : List Byte} (hlen : out.length = L.srcLen.toNat) :
    let t := (s.consume L).complete (writeDest L out)
    completedOk s t false ∧ t.ram.holds L.dstAddr.toNat out ∧ ramSameOutside s t L.dstAddr.toNat L.srcLen.toNat
    ∧ t.results = { s.results with resLen := L.srcLen } ∧ t.regs = s.regs ∧ environmentSame s t := by
  have hdone := complete_writeDest s L out
  rwa [hlen, BitVec.ofNat_toNat, BitVec.setWidth_eq] at hdone

/-- R247: the completion of a command that chains to the ciphertext blocks `cs`: AES_IV besides. -/
theorem complete_writeDest_chained (s : State) (L : Latch) {out : List Byte} (hlen : out.length = L.srcLen.toNat)
    {cs : List (List Byte)} (hcs : ∀ c ∈ cs, c.length = 16) :
    let t := (s.consume L).complete { writeDest L out with iv := chainedIv cs }
    completedOk s t false ∧ t.ram.holds L.dstAddr.toNat out ∧ ramSameOutside s t L.dstAddr.toNat L.srcLen.toNat
    ∧ t.results = { s.results with resLen := L.srcLen } ∧ { t.regs with aesIv := s.regs.aesIv } = s.regs
    ∧ (∀ c, cs.getLast? = some c → t.regs.aesIv.bytes = c) ∧ (cs = [] → t.regs.aesIv = s.regs.aesIv)
    ∧ environmentSame s t := by
  obtain ⟨hok, hram, hframe, hres, -, henv⟩ := complete_writeDest_srcLen s L hlen
  refine ⟨hok, hram, hframe, hres, rfl, fun c hc => ?_, ?_, henv⟩
  · have hiv := ivAfter_bytes s.regs.aesIv hcs
    rwa [hc] at hiv
  · rintro rfl
    rfl

/-- Settles O56: the run of each command and its completion. -/
theorem aesEcbCommandsTransformBlocks : Obligations.AesEcbCommandsTransformBlocks := by
  intro s L ks bs hL hs h16 hd ho key blocks
  have h : AesReady s L bs := ⟨hL, hs, h16, hd, ho⟩
  exact ⟨h.blocks,
    ⟨_, h.exec_ecbEnc ks,
      complete_writeDest_srcLen s L (by rw [ecbEncrypt_flatten_length, h.sixteen_mul_blocks])⟩,
    ⟨_, h.exec_ecbDec ks,
      complete_writeDest_srcLen s L (by rw [ecbDecrypt_flatten_length, h.sixteen_mul_blocks])⟩⟩

/-- Settles O57: the run of each command, its completion, and the chaining of its blocks. -/
theorem aesCbcCommandsChainBlocks : Obligations.AesCbcCommandsChainBlocks := by
  intro s L ks bs hL hs h16 hd ho key blocks enc dec
  have h : AesReady s L bs := ⟨hL, hs, h16, hd, ho⟩
  have hblocks := h.blocks.2
  have hdec : dec.flatten.length = L.srcLen.toNat := by
    rw [cbcDecrypt_flatten_length (Words4.bytes_length _) hblocks, h.sixteen_mul_blocks]
  exact ⟨h.blocks, cbcStatedEncrypt_cbcEncrypt ks key L.iv.bytes blocks,
    cbcStatedDecrypt_cbcDecrypt ks key L.iv.bytes blocks,
    ⟨_, h.exec_cbcEnc ks, complete_writeDest_chained s L (h.cbcCiphertext_length ks)
      (cbcEncrypt_block_length ks key L.iv.bytes blocks)⟩,
    ⟨_, h.exec_cbcDec ks, complete_writeDest_chained s L hdec hblocks⟩⟩

/-! ### CBC encryption across two commands (R247, R309) -/

/-- R309: the blocks of a message in two parts, each a whole number of blocks. -/
theorem sourceBlocks_append {s u v : State} {L M N : Latch} {bs cs : List Byte} (hs : AesReady s L bs)
    (hu : AesReady u M cs) (hv : AesReady v N (bs ++ cs)) :
    sourceBlocks N (bs ++ cs) = sourceBlocks L bs ++ sourceBlocks M cs := by
  have hcount : N.srcLen.toNat / 16 = L.srcLen.toNat / 16 + M.srcLen.toNat / 16 := by
    have hlen := hv.source_length
    rw [List.length_append, hs.source_length, hu.source_length] at hlen
    omega
  rw [sourceBlocks, hcount, blocks16_append _ _ hs.source_length]

/-- R244, R247: what AES_CBC_ENC leaves at its destination and in AES_IV, from the latched AES_IV. -/
theorem cbcReady.exec_cbcEnc {s : State} {L : Latch} {bs : List Byte} (h : cbcReady s L bs) (ks : KeySize) :
    ∃ t, exec (.aesCbcEnc ks) s = .next t ∧ (cbcCiphertext ks L bs).flatten.length = bs.length
      ∧ t.ram.holds L.dstAddr.toNat (cbcCiphertext ks L bs).flatten
      ∧ t.regs.aesIv = ivAfter L.iv (cbcCiphertext ks L bs) := by
  have hready := h.aesReady
  obtain ⟨-, hiv, -⟩ := h
  refine ⟨_, hready.exec_cbcEnc ks, (hready.cbcCiphertext_length ks).trans hready.source.1.symm,
    Memory.store_holds s.ram _ _, ?_⟩
  rw [← hiv]
  rfl

/-- Settles O55: the three runs; the ciphertext of the whole message, and AES_IV after it, split at the end of the first
part. -/
theorem cbcChainsAcrossCommands : Obligations.CbcChainsAcrossCommands := by
  intro ks s u v t L M N bs cs hs hu hv hMkey hNkey hNiv hrun hMiv
  obtain ⟨t₀, ht, hclen, hc, htIv⟩ := hs.exec_cbcEnc ks
  obtain ⟨t', ht', hdlen, hd, ht'Iv⟩ := hu.exec_cbcEnc ks
  obtain ⟨w, hw, -, hcd, hwIv⟩ := hv.exec_cbcEnc ks
  obtain rfl : t₀ = t := Host.Outcome.next.inj (ht.symm.trans hrun)
  have hchain : M.iv = ivAfter L.iv (cbcCiphertext ks L bs) := hMiv.trans htIv
  have hsplit : cbcCiphertext ks N (bs ++ cs) = cbcCiphertext ks L bs ++ cbcCiphertext ks M cs := by
    rw [cbcCiphertext, sourceBlocks_append hs.aesReady hu.aesReady hv.aesReady, cbcEncrypt_append_ivAfter,
      cbcCiphertext, cbcCiphertext, hchain]
    simp only [cbcCiphertext, aesKeyBytes, hNkey, hMkey, hNiv]
  rw [hsplit, List.flatten_append] at hcd
  rw [hsplit, hNiv, ivAfter_append, ← hchain, ← ht'Iv] at hwIv
  exact ⟨t', w, ht', hw, _, _, hclen, hdlen, hc, hd, hcd, hwIv⟩

end Sys2Proof.Machine

/-! The proof of the statement about error completions (family 60_exceptions). -/

namespace Sys2Proof.Machine

/-! ### Whose error writes the OTP sentinel (R272) -/

theorem isOtp_eq_decide (o : Opcode) : o.isOtp = decide (o = .hotp ∨ o = .totp) := by cases o <;> rfl

/-- R95: the OP values of HOTP and TOTP. -/
theorem isOtp_eq_decide_code (o : Opcode) : o.isOtp = decide (o.code = 0x12 ∨ o.code = 0x13) := by cases o <;> rfl

/-- R272: the OP byte alone says whether an undecodable word is one of HOTP or TOTP; a reserved value is not. -/
theorem isOtpWord_eq_decide (c : Word) : isOtpWord c = decide (opField c = 0x12 ∨ opField c = 0x13) := by
  cases ho : Opcode.ofByte (opField c) with
  | some o =>
    rw [isOtpWord, ho, ← code_of_ofByte ho]
    exact isOtp_eq_decide_code o
  | none =>
    have hreserved : ¬ (opField c = 0x12 ∨ opField c = 0x13) := by
      rintro (h | h)
      · exact absurd (h ▸ ho) (by decide)
      · exact absurd (h ▸ ho) (by decide)
    rw [isOtpWord, ho, decide_eq_false hreserved]

/-! ### The two error completions (R123, R124, R272) -/

/-- R124: the engine's step on a latched word that does not decode. -/
theorem step_of_decode_error {s : State} {L : Latch} {c : ErrCode} (hL : s.latched = some L)
    (hdelay : s.engineDelay = 0) (hc : decode L.cmd = .error c) : step s = .next (s.badCommand L c) := by
  rw [step_of_engineTurn ((engineTurn_iff s).2 ⟨by simp [hL], hdelay⟩)]
  simp only [engineStep, hL, hc]

/-- R123: a successful completion leaves ERR = 0, so a command that ends with ERR = 1 ended in the error completion. -/
theorem completedErr_of_exec_err {i : Instr} {s t : State} (h : exec i s = .next t) (herr : t.status.err = true) :
    ∃ c, completedErr s t i.opcode.isOtp c := by
  obtain ⟨-, -, ⟨b, hstatus, -⟩ | hfailed⟩ := exec_next h
  · simp [hstatus] at herr
  · exact hfailed

/-- Settles O7: the error completion of the undecodable word, and that of the command, which success excludes. -/
theorem errorCompletionWritesOnlyErrorState : Obligations.ErrorCompletionWritesOnlyErrorState := by
  intro s L hL
  refine ⟨fun c hdelay hc => ⟨s.badCommand L c, step_of_decode_error hL hdelay hc, ?_⟩, fun i t h herr => ?_⟩
  · rw [← opField, ← isOtpWord_eq_decide]
    exact completedErr_badCommand s L c
  · rw [← isOtp_eq_decide]
    exact completedErr_of_exec_err h herr

end Sys2Proof.Machine

/-! The proof of the statement about the destination span of an aborted command (family 70_reset_and_hazards). -/

namespace Sys2Proof.Machine

/-! ### The output length that the latched command names (R302) -/

/-- R154, R302: the length of a B32ENC does not depend on its field bits. -/
theorem destLength_b32enc {L : Latch} (h : opField L.cmd = 0x01) (m : Memory) (unknown : Nat) :
    destLength m L unknown = encodedLength L.srcLen.toNat := by
  rw [destLength, (ofByte_eq_some (o := .b32enc)).2 h.symm]

theorem destLength_b32dec {L : Latch} (h : opField L.cmd = 0x02) (m : Memory) (unknown : Nat) :
    destLength m L unknown = decodeLength m (Alphabet.ofBit (alphField L.cmd)) L unknown := by
  rw [destLength, (ofByte_eq_some (o := .b32dec)).2 h.symm]

theorem destLength_aes {L : Latch}
    (h : opField L.cmd = 0x20 ∨ opField L.cmd = 0x21 ∨ opField L.cmd = 0x22 ∨ opField L.cmd = 0x23)
    (m : Memory) (unknown : Nat) : destLength m L unknown = L.srcLen.toNat := by
  unfold destLength
  rcases h with h | h | h | h
  · rw [(ofByte_eq_some (o := .aesEcbEnc)).2 h.symm]
  · rw [(ofByte_eq_some (o := .aesEcbDec)).2 h.symm]
  · rw [(ofByte_eq_some (o := .aesCbcEnc)).2 h.symm]
  · rw [(ofByte_eq_some (o := .aesCbcDec)).2 h.symm]

theorem destLength_of_no_store {L : Latch}
    (h : opField L.cmd = 0x00 ∨ opField L.cmd = 0x10 ∨ opField L.cmd = 0x11 ∨ opField L.cmd = 0x12
      ∨ opField L.cmd = 0x13) (m : Memory) (unknown : Nat) : destLength m L unknown = 0 := by
  unfold destLength
  rcases h with h | h | h | h | h
  · rw [(ofByte_eq_some (o := .nop)).2 h.symm]
  · rw [(ofByte_eq_some (o := .sha1)).2 h.symm]
  · rw [(ofByte_eq_some (o := .hmac)).2 h.symm]
  · rw [(ofByte_eq_some (o := .hotp)).2 h.symm]
  · rw [(ofByte_eq_some (o := .totp)).2 h.symm]

/-- R302: where the text is all written, the length of a B32DEC is that of its decoding. -/
theorem decodeLength_of_holds {m : Memory} {L : Latch} {text : List Byte} {a : Alphabet}
    (h : operandHolds m L.srcAddr L.srcLen text) (unknown : Nat) :
    (∀ out, b32decode a text = .ok out → decodeLength m a L unknown = out.length)
    ∧ ∀ c, b32decode a text = .error c → decodeLength m a L unknown = 0 := by
  obtain ⟨hlen, hrange, hbytes⟩ := h
  have hsrc : inRange L.srcAddr.toNat L.srcLen.toNat = true := decide_eq_true hrange
  have hread : m.bytesAt? L.srcAddr.toNat L.srcLen.toNat = some text := Memory.bytesAt?_eq_some.2 ⟨hlen, hbytes⟩
  constructor
  · intro out hok
    simp only [decodeLength, hsrc, if_true, hread, hok]
  · intro c herr
    simp only [decodeLength, hsrc, if_true, hread, herr]

/-! ### The part of it that lies in RAM (R302) -/

/-- R302: an output that fits is clobbered whole. -/
theorem destSpan_of_fits {m : Memory} {L : Latch} {n : Nat} (hlen : destLength m L Config.ramSize = n)
    (hfits : L.dstAddr.toNat + n ≤ Config.ramSize) : destSpan m L = n := by
  rw [destSpan, hlen]
  exact Nat.min_eq_left (Nat.le_sub_of_add_le' hfits)

/-- R302: a command with no output clobbers nothing, wherever L.DST_ADDR points. -/
theorem destSpan_of_no_output {m : Memory} {L : Latch} (hlen : destLength m L Config.ramSize = 0) :
    destSpan m L = 0 := by
  rw [destSpan, hlen, Nat.zero_min]

/-- Settles O31: the output length by OP, cut at the end of RAM only where it does not fit. -/
theorem abortedDestinationSpan : Obligations.AbortedDestinationSpan := by
  intro m L
  refine ⟨fun hop => destSpan_of_fits (destLength_b32enc hop m _),
    fun text out hop htext hok => destSpan_of_fits ?_, fun text c hop htext herr => destSpan_of_no_output ?_,
    fun hop => destSpan_of_fits (destLength_aes hop m _),
    fun hop => destSpan_of_no_output (destLength_of_no_store hop m _)⟩
  · rw [destLength_b32dec hop]
    exact (decodeLength_of_holds htext _).1 out hok
  · rw [destLength_b32dec hop]
    exact (decodeLength_of_holds htext _).2 c herr

end Sys2Proof.Machine
